-- ==== Sys2Proof/Word.lean ====
section
/-! DEFINITION. The bit-vector types the spec computes with (00_scope.md R11): the 8-bit byte, the 32-bit
register word and the 5-bit FIFO pointer. -/

namespace Sys2Proof

/-- A framebuffer byte, an event word or an LCD byte: 8 bits. -/
abbrev Byte := BitVec 8

/-- A host register or CMD word: `CMD_W` = 32 bits (00_scope.md R7). -/
abbrev Word := BitVec 32

/-- A FIFO pointer: `PTR_W` = 5 bits, the top one the wrap bit (00_scope.md R7, 20_memory.md R98). -/
abbrev Ptr := BitVec 5

end Sys2Proof
end

