-- ==== Sys2Proof/Syntax.lean ====
section
/-! DEFINITION. The instructions: one constructor for each row of spec/opcode_table.json, in the four kinds of
00_scope.md R3 (CMD words, LCD bytes, host accesses, producer puts). -/

namespace Sys2Proof

/-- The four encoded things of 30_encoding.md. -/
inductive Kind where
  | cmd | lcd | access | event
deriving DecidableEq, Repr

/-- One host access as the bus ports carry it: `h_write`, `h_off`, `h_size`, `h_wdata` (10_state.md R32). -/
structure HostReq where
  write : Bool
  off   : BitVec 8
  size  : BitVec 2
  wdata : Word
deriving DecidableEq, Repr, Inhabited

/-- An instruction. The operand `rsv` of a CMD word holds the word's reserved bits, which the op ignores
(30_encoding.md R123) and which `eargs` still latches (10_state.md R49). -/
inductive Instr where
  -- CMD words, 30_encoding.md R121 and R122
  | nop (rsv : BitVec 28)
  | setpix (x y : BitVec 12) (c : BitVec 1) (rsv : BitVec 3)
  | getpix (x y : BitVec 12) (rsv : BitVec 4)
  | clear (rsv : BitVec 28)
  | flush (rsv : BitVec 28)
  | init (contrast bias : BitVec 8) (rsv : BitVec 12)
  | setcontrast (value : BitVec 8) (rsv : BitVec 20)
  | dispctl (mode : BitVec 2) (rsv : BitVec 26)
  | settempco (tc : BitVec 2) (rsv : BitVec 26)
  | sleep (dur : BitVec 24) (deep : BitVec 1) (rsv : BitVec 3)
  | rsvdA (arg : BitVec 28)
  | rsvdB (arg : BitVec 28)
  | rsvdC (arg : BitVec 28)
  | rsvdD (arg : BitVec 28)
  | rsvdE (arg : BitVec 28)
  | rsvdF (arg : BitVec 28)
  -- LCD bytes, 30_encoding.md R128 and R129; `h` is the mode where the form allows any
  | lcdFuncset (h p v hx : BitVec 1)
  | lcdDispctl (d e : BitVec 1)
  | lcdSety (y : BitVec 3)
  | lcdSetx (x : BitVec 7)
  | lcdTempctl (tc : BitVec 2)
  | lcdSetbias (bias : BitVec 3)
  | lcdSetvop (vop : BitVec 7)
  | lcdData (h : BitVec 1) (d : Byte)
  -- host accesses, 44_host_registers.md and 20_memory.md R91, R92
  | rdId
  | wrId (v : Word)
  | rdCtrl
  | wrCtrl (v : Word)
  | rdStatus
  | wrStatus (v : Word)
  | rdCmd
  | wrCmd (w : Word)
  | rdResult
  | wrResult (v : Word)
  | rdEvqPop
  | wrEvqPop (v : Word)
  | rdEvqStat
  | wrEvqStat (v : Word)
  | rdPwrStat
  | wrPwrStat (v : Word)
  | rdRsvd20 (n : BitVec 3)
  | rdRsvd40 (n : BitVec 4)
  | rdRsvd80 (n : BitVec 5)
  | wrRsvd20 (n : BitVec 3) (v : Word)
  | wrRsvd40 (n : BitVec 4) (v : Word)
  | wrRsvd80 (n : BitVec 5) (v : Word)
  | busErr (write : BitVec 1) (off : BitVec 8) (size : BitVec 2)
  -- producer puts, 30_encoding.md R132 and 42_event_fifo.md R246, R249
  | putTimer
  | putKeyleft
  | putKeyup
  | putKeydown
  | putKeyright
  | putKeyenter
  | putExt (e : Byte)
  | extReject (e : Byte)
deriving DecidableEq, Repr

end Sys2Proof
end

