-- ==== Sys2Proof/Decode.lean ====
section
/-! DEFINITION. Decoding and encoding of the four encoded things (30_encoding.md): CMD words, LCD bytes, host
accesses and event words. Each is laid out as bytes, least significant first (20_memory.md R94, log 17). -/

namespace Sys2Proof

/-- Why bytes are no instruction. -/
inductive DecodeError where
  /-- the number of bytes is not that of the kind -/
  | badLength (kind : Kind)
  /-- an LCD byte of no form of 30_encoding.md R129 -/
  | lcdPattern
  /-- bits above the 10-bit value `{dc, h, b}` are set -/
  | lcdHighBits
  /-- bits above the access's write, offset and size are set -/
  | accessHighBits
  /-- the source byte of an event word names no source -/
  | eventSource
deriving DecidableEq, Repr

/-- A storable event code: 0x01 to 0x07 or 0x80 to 0xFF (30_encoding.md R127). -/
def storable (e : Byte) : Bool :=
  (decide (1#8 ≤ e) && decide (e ≤ 7#8)) || decide (0x80#8 ≤ e)

/-- The accesses that the width and alignment check refuses (20_memory.md R91). -/
def illegalAccess (off : BitVec 8) (size : BitVec 2) : Bool :=
  size != 2#2 || off.extractLsb' 0 2 != 0#2

/-! ## Bytes and words -/

/-- The `n` low bytes of `w`, least significant first. -/
def toBytes : Nat → Nat → List Byte
  | 0, _ => []
  | n + 1, w => BitVec.ofNat 8 w :: toBytes n (w / 256)

/-- The number whose bytes are listed least significant first. -/
def ofBytes : List Byte → Nat
  | [] => 0
  | b :: bs => b.toNat + 256 * ofBytes bs

/-- How many bytes an instruction of each kind has: a CMD word 4; an LCD value 2; an access 6 (write, offset and
size in 2, the write data in 4); an event 2 (the code, then its source). -/
def kindBytes : Kind → Nat
  | .cmd => 4
  | .lcd => 2
  | .access => 6
  | .event => 2

/-! ## Decoders of one kind each -/

/-- A CMD word: `OP = w[31:28]` and the fields of that opcode (30_encoding.md R120 to R125). Total. -/
def decodeCmd (w : Word) : Instr :=
  let op := w.extractLsb' 28 4
  let arg := w.extractLsb' 0 28
  if op = 0x0#4 then .nop arg
  else if op = 0x1#4 then
    .setpix (w.extractLsb' 0 12) (w.extractLsb' 12 12) (w.extractLsb' 24 1) (w.extractLsb' 25 3)
  else if op = 0x2#4 then .getpix (w.extractLsb' 0 12) (w.extractLsb' 12 12) (w.extractLsb' 24 4)
  else if op = 0x3#4 then .clear arg
  else if op = 0x4#4 then .flush arg
  else if op = 0x5#4 then .init (w.extractLsb' 0 8) (w.extractLsb' 8 8) (w.extractLsb' 16 12)
  else if op = 0x6#4 then .setcontrast (w.extractLsb' 0 8) (w.extractLsb' 8 20)
  else if op = 0x7#4 then .dispctl (w.extractLsb' 0 2) (w.extractLsb' 2 26)
  else if op = 0x8#4 then .settempco (w.extractLsb' 0 2) (w.extractLsb' 2 26)
  else if op = 0x9#4 then .sleep (w.extractLsb' 0 24) (w.extractLsb' 24 1) (w.extractLsb' 25 3)
  else if op = 0xA#4 then .rsvdA arg
  else if op = 0xB#4 then .rsvdB arg
  else if op = 0xC#4 then .rsvdC arg
  else if op = 0xD#4 then .rsvdD arg
  else if op = 0xE#4 then .rsvdE arg
  else .rsvdF arg

/-- The 10-bit value `{dc, h, b}` of an LCD byte in 16 bits (30_encoding.md R128, R129). -/
def decodeLcd (w : BitVec 16) : Except DecodeError Instr :=
  let h := w.extractLsb' 8 1
  if w.extractLsb' 10 6 ≠ 0#6 then .error .lcdHighBits
  else if w.extractLsb' 9 1 = 1#1 then .ok (.lcdData h (w.extractLsb' 0 8))
  else if w.extractLsb' 3 5 = 0b00100#5 then
    .ok (.lcdFuncset h (w.extractLsb' 2 1) (w.extractLsb' 1 1) (w.extractLsb' 0 1))
  else if h = 0#1 then
    if w.extractLsb' 3 5 = 0b00001#5 ∧ w.extractLsb' 1 1 = 0#1 then
      .ok (.lcdDispctl (w.extractLsb' 2 1) (w.extractLsb' 0 1))
    else if w.extractLsb' 3 5 = 0b01000#5 then .ok (.lcdSety (w.extractLsb' 0 3))
    else if w.extractLsb' 7 1 = 1#1 then .ok (.lcdSetx (w.extractLsb' 0 7))
    else .error .lcdPattern
  else
    if w.extractLsb' 2 6 = 0b000001#6 then .ok (.lcdTempctl (w.extractLsb' 0 2))
    else if w.extractLsb' 3 5 = 0b00010#5 then .ok (.lcdSetbias (w.extractLsb' 0 3))
    else if w.extractLsb' 7 1 = 1#1 then .ok (.lcdSetvop (w.extractLsb' 0 7))
    else .error .lcdPattern

/-- A legal access to the register at `off` (10_state.md R39, 44_host_registers.md; 20_memory.md R92 for the
reserved offsets 0x20 to 0xFC, whose three ranges are the table's three rows). -/
def decodeLegal (write : Bool) (off : BitVec 8) (v : Word) : Instr :=
  if off.extractLsb' 7 1 = 1#1 then
    if write then .wrRsvd80 (off.extractLsb' 2 5) v else .rdRsvd80 (off.extractLsb' 2 5)
  else if off.extractLsb' 6 1 = 1#1 then
    if write then .wrRsvd40 (off.extractLsb' 2 4) v else .rdRsvd40 (off.extractLsb' 2 4)
  else if off.extractLsb' 5 1 = 1#1 then
    if write then .wrRsvd20 (off.extractLsb' 2 3) v else .rdRsvd20 (off.extractLsb' 2 3)
  else
    let reg := off.extractLsb' 2 3
    if reg = 0#3 then if write then .wrId v else .rdId
    else if reg = 1#3 then if write then .wrCtrl v else .rdCtrl
    else if reg = 2#3 then if write then .wrStatus v else .rdStatus
    else if reg = 3#3 then if write then .wrCmd v else .rdCmd
    else if reg = 4#3 then if write then .wrResult v else .rdResult
    else if reg = 5#3 then if write then .wrEvqPop v else .rdEvqPop
    else if reg = 6#3 then if write then .wrEvqStat v else .rdEvqStat
    else if write then .wrPwrStat v else .rdPwrStat

/-- A host access as the bus presents it: the width and alignment check first (60_exceptions.md R359), then the
register. Total (30_encoding.md R135). -/
def decodeReq (a : HostReq) : Instr :=
  if illegalAccess a.off a.size then .busErr (BitVec.ofBool a.write) a.off a.size
  else decodeLegal a.write a.off a.wdata

/-- The access that the 48 bits of its image stand for: offset [7:0], write [8], size [10:9], write data [47:16].
The size is stored with its word code 2 as 0 (exclusive or with 2), so that the table's 9-bit pattern, with zeros
above it, is the word access it stands for (log 17). -/
def reqOfImage (w : BitVec 48) : HostReq :=
  { write := w.extractLsb' 8 1 = 1#1
    off := w.extractLsb' 0 8
    size := w.extractLsb' 9 2 ^^^ 2#2
    wdata := w.extractLsb' 16 32 }

/-- The image of an access. -/
def imageOfReq (a : HostReq) : BitVec 48 :=
  a.wdata ++ 0#5 ++ (a.size ^^^ 2#2) ++ BitVec.ofBool a.write ++ a.off

/-- An access image; bits [15:11] are no part of an access. -/
def decodeAccess (w : BitVec 48) : Except DecodeError Instr :=
  if w.extractLsb' 11 5 ≠ 0#5 then .error .accessHighBits
  else .ok (decodeReq (reqOfImage w))

/-- An event code presented at the external port: stored or rejected (30_encoding.md R127). -/
def decodeExternal (e : Byte) : Instr :=
  if storable e then .putExt e else .extReject e

/-- An event code with the source that the table's row of that code has: 0x02 the timer, 0x03 to 0x07 the keys, any
other the external port (30_encoding.md R126). -/
def decodeInternal (e : Byte) : Instr :=
  if e = 0x02#8 then .putTimer
  else if e = 0x03#8 then .putKeyleft
  else if e = 0x04#8 then .putKeyup
  else if e = 0x05#8 then .putKeydown
  else if e = 0x06#8 then .putKeyright
  else if e = 0x07#8 then .putKeyenter
  else decodeExternal e

/-- An event word with its source (30_encoding.md R132): the code in [7:0]; [15:8] is 0 for the code's own source
and 1 for the external port (log 17). -/
def decodeEvent (w : BitVec 16) : Except DecodeError Instr :=
  let e := w.extractLsb' 0 8
  if w.extractLsb' 8 8 = 0#8 then .ok (decodeInternal e)
  else if w.extractLsb' 8 8 = 1#8 then .ok (decodeExternal e)
  else .error .eventSource

/-- Decoding of bytes, least significant first, of a given kind. Total; what is no instruction is rejected by name. -/
def decode (k : Kind) (bs : List Byte) : Except DecodeError Instr :=
  if bs.length ≠ kindBytes k then .error (.badLength k)
  else
    match k with
    | .cmd => .ok (decodeCmd (BitVec.ofNat 32 (ofBytes bs)))
    | .lcd => decodeLcd (BitVec.ofNat 16 (ofBytes bs))
    | .access => decodeAccess (BitVec.ofNat 48 (ofBytes bs))
    | .event => decodeEvent (BitVec.ofNat 16 (ofBytes bs))

/-! ## Encoders -/

/-- The kind of an instruction. -/
def Instr.kind : Instr → Kind
  | .nop _ | .setpix _ _ _ _ | .getpix _ _ _ | .clear _ | .flush _ | .init _ _ _ | .setcontrast _ _
  | .dispctl _ _ | .settempco _ _ | .sleep _ _ _ | .rsvdA _ | .rsvdB _ | .rsvdC _ | .rsvdD _ | .rsvdE _
  | .rsvdF _ => .cmd
  | .lcdFuncset _ _ _ _ | .lcdDispctl _ _ | .lcdSety _ | .lcdSetx _ | .lcdTempctl _ | .lcdSetbias _
  | .lcdSetvop _ | .lcdData _ _ => .lcd
  | .rdId | .wrId _ | .rdCtrl | .wrCtrl _ | .rdStatus | .wrStatus _ | .rdCmd | .wrCmd _ | .rdResult
  | .wrResult _ | .rdEvqPop | .wrEvqPop _ | .rdEvqStat | .wrEvqStat _ | .rdPwrStat | .wrPwrStat _
  | .rdRsvd20 _ | .rdRsvd40 _ | .rdRsvd80 _ | .wrRsvd20 _ _ | .wrRsvd40 _ _ | .wrRsvd80 _ _
  | .busErr _ _ _ => .access
  | .putTimer | .putKeyleft | .putKeyup | .putKeydown | .putKeyright | .putKeyenter | .putExt _
  | .extReject _ => .event

/-- A word read of the register at `off`. -/
def readReq (off : BitVec 8) : HostReq :=
  { write := false, off := off, size := 2#2, wdata := 0#32 }

/-- A word write of `v` to the register at `off`. -/
def writeReq (off : BitVec 8) (v : Word) : HostReq :=
  { write := true, off := off, size := 2#2, wdata := v }

/-- The number whose low bytes encode an instruction, from the encoding tables of 30_encoding.md (R121, R122, R126,
R129, R131) and 44_host_registers.md. -/
def encodeNat : Instr → Nat
  | .nop r => (0x0#4 ++ r).toNat
  | .setpix x y c r => (0x1#4 ++ r ++ c ++ y ++ x).toNat
  | .getpix x y r => (0x2#4 ++ r ++ y ++ x).toNat
  | .clear r => (0x3#4 ++ r).toNat
  | .flush r => (0x4#4 ++ r).toNat
  | .init contrast bias r => (0x5#4 ++ r ++ bias ++ contrast).toNat
  | .setcontrast value r => (0x6#4 ++ r ++ value).toNat
  | .dispctl mode r => (0x7#4 ++ r ++ mode).toNat
  | .settempco tc r => (0x8#4 ++ r ++ tc).toNat
  | .sleep dur deep r => (0x9#4 ++ r ++ deep ++ dur).toNat
  | .rsvdA a => (0xA#4 ++ a).toNat
  | .rsvdB a => (0xB#4 ++ a).toNat
  | .rsvdC a => (0xC#4 ++ a).toNat
  | .rsvdD a => (0xD#4 ++ a).toNat
  | .rsvdE a => (0xE#4 ++ a).toNat
  | .rsvdF a => (0xF#4 ++ a).toNat
  | .lcdFuncset h p v hx => (0#1 ++ h ++ 0b00100#5 ++ p ++ v ++ hx).toNat
  | .lcdDispctl d e => (0b00#2 ++ 0b00001#5 ++ d ++ 0#1 ++ e).toNat
  | .lcdSety y => (0b00#2 ++ 0b01000#5 ++ y).toNat
  | .lcdSetx x => (0b00#2 ++ 1#1 ++ x).toNat
  | .lcdTempctl tc => (0b01#2 ++ 0b000001#6 ++ tc).toNat
  | .lcdSetbias b => (0b01#2 ++ 0b00010#5 ++ b).toNat
  | .lcdSetvop v => (0b01#2 ++ 1#1 ++ v).toNat
  | .lcdData h d => (1#1 ++ h ++ d).toNat
  | .rdId => (imageOfReq (readReq 0x00#8)).toNat
  | .wrId v => (imageOfReq (writeReq 0x00#8 v)).toNat
  | .rdCtrl => (imageOfReq (readReq 0x04#8)).toNat
  | .wrCtrl v => (imageOfReq (writeReq 0x04#8 v)).toNat
  | .rdStatus => (imageOfReq (readReq 0x08#8)).toNat
  | .wrStatus v => (imageOfReq (writeReq 0x08#8 v)).toNat
  | .rdCmd => (imageOfReq (readReq 0x0C#8)).toNat
  | .wrCmd v => (imageOfReq (writeReq 0x0C#8 v)).toNat
  | .rdResult => (imageOfReq (readReq 0x10#8)).toNat
  | .wrResult v => (imageOfReq (writeReq 0x10#8 v)).toNat
  | .rdEvqPop => (imageOfReq (readReq 0x14#8)).toNat
  | .wrEvqPop v => (imageOfReq (writeReq 0x14#8 v)).toNat
  | .rdEvqStat => (imageOfReq (readReq 0x18#8)).toNat
  | .wrEvqStat v => (imageOfReq (writeReq 0x18#8 v)).toNat
  | .rdPwrStat => (imageOfReq (readReq 0x1C#8)).toNat
  | .wrPwrStat v => (imageOfReq (writeReq 0x1C#8 v)).toNat
  | .rdRsvd20 n => (imageOfReq (readReq (0b001#3 ++ n ++ 0#2))).toNat
  | .rdRsvd40 n => (imageOfReq (readReq (0b01#2 ++ n ++ 0#2))).toNat
  | .rdRsvd80 n => (imageOfReq (readReq (1#1 ++ n ++ 0#2))).toNat
  | .wrRsvd20 n v => (imageOfReq (writeReq (0b001#3 ++ n ++ 0#2) v)).toNat
  | .wrRsvd40 n v => (imageOfReq (writeReq (0b01#2 ++ n ++ 0#2) v)).toNat
  | .wrRsvd80 n v => (imageOfReq (writeReq (1#1 ++ n ++ 0#2) v)).toNat
  | .busErr write off size =>
      (imageOfReq { write := write = 1#1, off := off, size := size, wdata := 0#32 }).toNat
  | .putTimer => 0x02
  | .putKeyleft => 0x03
  | .putKeyup => 0x04
  | .putKeydown => 0x05
  | .putKeyright => 0x06
  | .putKeyenter => 0x07
  | .putExt e => (1#8 ++ e).toNat
  | .extReject e => (1#8 ++ e).toNat

/-- The bytes of a well-formed instruction, least significant first. -/
def encode (i : Instr) : List Byte :=
  toBytes (kindBytes i.kind) (encodeNat i)

/-- The CMD word of a CMD instruction (30_encoding.md R120). -/
def cmdWordOf (i : Instr) : Word :=
  BitVec.ofNat 32 (encodeNat i)

/-! ## The opcode table's words -/

/-- Which kind a 16-bit table word is. A host access (9 bits) and an LCD byte (10 bits) have the same number of whole
bytes and overlapping patterns; the word alone does not say which it is. An aligned access pattern is taken as the
access; any other word that is an LCD byte as the LCD byte (log 18). -/
def tableKind16 (w : Nat) : Kind :=
  if w < 512 && w % 4 == 0 then .access
  else
    match decodeLcd (BitVec.ofNat 16 w) with
    | .ok _ => .lcd
    | .error _ => .access

/-- The kind of a table word of `nbits` bits. -/
def tableKind (nbits w : Nat) : Option Kind :=
  if nbits = 32 then some .cmd
  else if nbits = 16 then some (tableKind16 w)
  else if nbits = 8 then some .event
  else if nbits = 9 || nbits = 48 then some .access
  else if nbits = 10 then some .lcd
  else none

/-- The instruction the decoder reads from a table word of `nbits` bits: the word laid out as bytes, zeros above. -/
def decodeTableWord (nbits w : Nat) : Option Instr :=
  match tableKind nbits w with
  | none => none
  | some k =>
    match decode k (toBytes (kindBytes k) w) with
    | .ok i => some i
    | .error _ => none

end Sys2Proof
end

