-- ==== Sys2Proof/Config.lean ====
section
/-! DEFINITION. What an implementation fixes (00_scope.md R7, R8), what the outside drives at each clock edge, and
the free values: constants without a body, so that no proof can know them. -/

namespace Sys2Proof.Config

/-- `W`, the framebuffer width in pixels (00_scope.md R7). -/
abbrev width : Nat := 84
/-- `H`, the framebuffer height in pixels (00_scope.md R7). -/
abbrev height : Nat := 48
/-- `FB_BYTES` = W * (H / 8) (00_scope.md R7). -/
abbrev fbBytes : Nat := 504
/-- `N`, the FIFO depth (00_scope.md R7). -/
abbrev fifoDepth : Nat := 16
/-- `VOP_MAX`, the largest contrast programmed (00_scope.md R7). -/
abbrev vopMax : Nat := 127
/-- `BIAS_MAX`, the largest bias programmed (00_scope.md R7). -/
abbrev biasMax : Nat := 7
/-- The value of the ID register (10_state.md R40). -/
abbrev idValue : Word := 0x56474C01#32

/-- The open parameters a model takes as arguments (00_scope.md R8, 20_memory.md R101). State holds one record of
them, which no step changes. -/
structure Params where
  sclkDiv    : Nat
  tRstLow    : Nat
  tRstHigh   : Nat
  syncStages : Nat
  base       : Nat
deriving DecidableEq, Repr

/-- `T = P_SCLK_DIV + 1`, the serial clock's half-period in clk cycles (70_reset_and_hazards.md R420). -/
def Params.halfPeriod (p : Params) : Nat := p.sclkDiv + 1

/-- The constraints of 00_scope.md R8 and 20_memory.md R101 on the open parameters. -/
abbrev Params.Legal (p : Params) : Prop :=
  1 ≤ p.tRstLow ∧ 2 ≤ p.syncStages ∧ p.base % 256 = 0

/-- What happens at one clk edge besides the block's own state: the access the host issues now, if any; for each
synchroniser into clk, which of the values in its window the first stage samples (20_memory.md R107); and whether
a clk domain still in reset leaves it (70_reset_and_hazards.md R390). -/
structure ClkIn where
  req        : Option HostReq
  wPick      : Nat
  ovfPick    : Nat
  mrgPick    : Nat
  rejPick    : Nat
  fatalPick  : Nat
  ackPick    : Nat
  leaveReset : Bool
deriving DecidableEq, Repr, Inhabited

/-- What the outside drives at one aon_clk edge: the sampled key lines and irq_any (asynchronous, 10_state.md R34),
the external event port, the wake timer's and the clock controller's answers (10_state.md R35, R36); and the
synchroniser draws into aon_clk. -/
structure AonIn where
  keys       : BitVec 5
  irqAny     : Bool
  extValid   : Bool
  extCode    : Byte
  wktAck     : Bool
  wktOk      : Bool
  wktExpire  : Bool
  restoreAck : Bool
  rPick      : Nat
  reqPick    : Nat
  leaveReset : Bool
deriving DecidableEq, Repr, Inhabited

/-- What happens next: an edge of one of the two asynchronous clocks (10_state.md R30), or `rst_n` falling or
rising (10_state.md R31). -/
inductive Tick where
  | clk (c : ClkIn)
  | aon (a : AonIn)
  | resetAssert
  | resetRelease
deriving DecidableEq, Repr, Inhabited

/-- A clk edge at which the host issues nothing new and every synchroniser samples the oldest value. -/
def quietClk : ClkIn :=
  { req := none, wPick := 0, ovfPick := 0, mrgPick := 0, rejPick := 0, fatalPick := 0, ackPick := 0, leaveReset := true }

/-- An aon_clk edge at which the outside drives nothing. -/
def quietAon : AonIn :=
  { keys := 0#5, irqAny := false, extValid := false, extCode := 0#8, wktAck := false, wktOk := false,
    wktExpire := false, restoreAck := false, rPick := 0, reqPick := 0, leaveReset := true }

/-- FREE VALUE. The n-th tick past the end of the tick list State holds: which clock has its edge and what the
outside drives there (00_scope.md R9: any agent may be scheduled at any step). -/
opaque env : Nat → Tick

/-- FREE VALUE. What framebuffer byte `i` holds after the reset numbered `epoch` until an op writes it
(10_state.md R50, 93_implementation_defined.md I1). -/
opaque fbUnspecified (epoch i : Nat) : Byte

/-- FREE VALUE. What FIFO slot `i` holds after the reset numbered `epoch` until the producer writes it
(10_state.md R55, 93_implementation_defined.md I2). -/
opaque fifoUnspecified (epoch i : Nat) : Byte

/-- FREE VALUE. `h_rdata` where no rule gives it, at the n-th completing write or wait state: the read data of a write,
and of an access that is held (10_state.md R32: valid when `h_ready = 1`; 44_host_registers.md R320). -/
opaque rdataUnstated : Nat → Word

end Sys2Proof.Config
end

