-- ==== Sys2Proof/Machine/State.lean ====
section
/-! DEFINITION. The state of the block (10_state.md), grouped by the agent that owns it (00_scope.md R9), its value
right after reset, and why a step can stop. Plain data throughout. -/

namespace Sys2Proof.Machine

open Sys2Proof Sys2Proof.Config

/-- The LCD engine's state (10_state.md R49). -/
inductive EngineState where
  | idle | run
deriving DecidableEq, Repr

/-- The display mode flag (10_state.md R49, 41_lcd_protocol.md R183). -/
inductive LcdMode where
  | uninit | cmdp | datap
deriving DecidableEq, Repr

/-- The power FSM's states (43_power.md R281); code 6 is never entered. -/
inductive PowerState where
  | idle | disarm1 | arm | sleep | disarm2 | restore | fatal
deriving DecidableEq, Repr

/-- A RAM: the bytes that have been written since reset, addresses strictly rising. An address that is not listed
holds no value. -/
abbrev Memory := List Host.Cell

/-- A clock-domain crossing (20_memory.md R107): the values its source has held since the last edge of the
destination clock, oldest first, and the synchroniser chain, stage 0 first. -/
structure Cross (α : Type) where
  held  : List α
  chain : List α
deriving DecidableEq, Repr

/-- A crossing whose source and `n` stages all hold `v`. -/
def Cross.settled {α : Type} (n : Nat) (v : α) : Cross α :=
  { held := [v], chain := List.replicate n v }

/-- The host bus (10_state.md R32): the response ports, and the accesses the host has issued and that have not
completed, oldest first; the first one is presented (log 11). `drawNo` is the model's own: how many unstated read data
have been drawn (log 10). -/
structure HostBus where
  hReady : Bool
  hErr   : Bool
  hRdata : Word
  hostQ  : List HostReq
  drawNo : Nat
deriving DecidableEq, Repr

/-- The register fields of 10_state.md R41, R42, R45 (listed in R49). -/
structure Regs where
  ctrlRot    : BitVec 2
  ctrlIeDone : Bool
  ctrlIeEvq  : Bool
  done       : Bool
  cmdErr     : Bool
  initDone   : Bool
  resultPix  : Bool
deriving DecidableEq, Repr

/-- The LCD engine (10_state.md R49); `lcdH` is the instruction-set mode the serializer knows the device to be in
(30_encoding.md R128, log 8). Two fields are the model's own: `ebyte` is the argument of the BYTE action in progress,
evaluated at the action's start (41_lcd_protocol.md R184), until R182 loads it into `eshift` (log 7); `esetup` says that
the wait in progress is the D/C setup of R182 (log 28). -/
structure Engine where
  estate : EngineState
  eop    : BitVec 4
  eargs  : BitVec 28
  erot   : BitVec 2
  eidx   : Nat
  ecnt   : Nat
  ebit   : Nat
  eshift : Byte
  ebyte  : Byte
  esetup : Bool
  mode   : LcdMode
  lcdH   : Bool
deriving DecidableEq, Repr

/-- The device-bus output registers (10_state.md R33). -/
structure Pins where
  lcdRstN : Bool
  lcdSceN : Bool
  lcdDc   : Bool
  lcdSclk : Bool
  lcdSdin : Bool
deriving DecidableEq, Repr

/-- The FIFO consumer (10_state.md R51). -/
structure Consumer where
  rptr      : Ptr
  rptrGray  : Ptr
  wsync     : Cross Ptr
  ovfSync   : Cross Bool
  mrgSync   : Cross Bool
  rejSync   : Cross Bool
  fatalSync : Cross Bool
deriving DecidableEq, Repr

/-- The clk side of the sleep handshake (10_state.md R52); `slpHeld` says that the presented SLEEP write has been
accepted and keeps holding (43_power.md R283, log 12). -/
structure SleepClk where
  pwrReqTgl : Bool
  slpDeep   : Bool
  slpDur    : BitVec 24
  ackChain  : Cross Bool
  slpHeld   : Bool
deriving DecidableEq, Repr

/-- The power FSM and wake arbiter (10_state.md R53) with its outputs (10_state.md R35, R36). -/
structure Power where
  pstate         : PowerState
  reqChain       : Cross Bool
  pwrAckTgl      : Bool
  pDeep          : Bool
  pDur           : BitVec 24
  wakePend       : Bool
  wakeCause      : BitVec 5
  armFail        : Bool
  dis1Fail       : Bool
  slept          : Bool
  wktWait        : Bool
  irqChain       : List Bool
  systickSuspend : Bool
  cpuRunEn       : Bool
  clkStopReq     : Bool
  clkRestoreReq  : Bool
  fatal          : Bool
  wktReq         : Bool
  wktOp          : Bool
  wktDur         : BitVec 24
deriving DecidableEq, Repr

/-- The FIFO producer front end (10_state.md R54). Bit `k` of `pend` is the latch of source `k`; bit `k` of each
stage of `ksync`, and of `kprev`, is key `k`. -/
structure Producer where
  wptr        : Ptr
  wptrGray    : Ptr
  rsync       : Cross Ptr
  pend        : BitVec 6
  pendExt     : Bool
  pendExtCode : Byte
  ksync       : List (BitVec 5)
  kprev       : BitVec 5
  ovf         : Bool
  mrg         : Bool
  rej         : Bool
  extEvReady  : Bool
deriving DecidableEq, Repr

/-- `rst_n` and whether each domain is still in reset (10_state.md R31, 70_reset_and_hazards.md R390, log 13). -/
structure Reset where
  rstN     : Bool
  clkInRst : Bool
  aonInRst : Bool
deriving DecidableEq, Repr

/-- The model's own fields: the ticks to come, how many free ticks have been drawn (log 1), and which reset the
unspecified RAM contents belong to (log 3, log 4). -/
structure Env where
  sched  : List Tick
  tickNo : Nat
  epoch  : Nat
deriving DecidableEq, Repr

/-- The whole block. -/
structure State where
  params   : Params
  bus      : HostBus
  regs     : Regs
  engine   : Engine
  pins     : Pins
  fb       : Memory
  consumer : Consumer
  sleep    : SleepClk
  power    : Power
  producer : Producer
  fifo     : Memory
  rst      : Reset
  env      : Env
deriving DecidableEq, Repr

/-- Why a step stops with a fault. The spec gives the block no trap (60_exceptions.md R350). -/
inductive Fault where
  /-- Raised by the engine stage of a clk edge before an action on a framebuffer byte with an index over 503, which
  does not exist (20_memory.md R96). Safe: no action list names such a byte (log 23). -/
  | noFramebufferByte (i : Nat)
deriving DecidableEq, Repr

/-- Why a step has no meaning. The block never refuses (00_scope.md R10). -/
inductive Refusal where
  /-- Raised by an arm of `exec` whose instruction has no meaning yet; no arm does. Safe. -/
  | notModelled (mnemonic : String)
deriving DecidableEq, Repr

/-- What a step answers. -/
abbrev Out := Host.Outcome State Fault Refusal

/-! ## Updates of one group each -/

def State.withParams (s : State) (x : Params) : State := { s with params := x }
def State.withBus (s : State) (x : HostBus) : State := { s with bus := x }
def State.withRegs (s : State) (x : Regs) : State := { s with regs := x }
def State.withEngine (s : State) (x : Engine) : State := { s with engine := x }
def State.withPins (s : State) (x : Pins) : State := { s with pins := x }
def State.withFb (s : State) (x : Memory) : State := { s with fb := x }
def State.withConsumer (s : State) (x : Consumer) : State := { s with consumer := x }
def State.withSleep (s : State) (x : SleepClk) : State := { s with sleep := x }
def State.withPower (s : State) (x : Power) : State := { s with power := x }
def State.withProducer (s : State) (x : Producer) : State := { s with producer := x }
def State.withFifo (s : State) (x : Memory) : State := { s with fifo := x }
def State.withRst (s : State) (x : Reset) : State := { s with rst := x }
def State.withEnv (s : State) (x : Env) : State := { s with env := x }

/-! ## Reset -/

/-- The reset values (70_reset_and_hazards.md R391) under the parameters `p`, with the RAM contents of reset number
`epoch` and the given reset lines and ticks to come. -/
def State.resetWith (p : Params) (r : Reset) (e : Env) : State :=
  { params := p
    bus := { hReady := true, hErr := false, hRdata := 0#32, hostQ := [], drawNo := 0 }
    regs :=
      { ctrlRot := 0#2, ctrlIeDone := false, ctrlIeEvq := false, done := false, cmdErr := false,
        initDone := false, resultPix := false }
    engine :=
      { estate := .idle, eop := 0#4, eargs := 0#28, erot := 0#2, eidx := 0, ecnt := 0, ebit := 0,
        eshift := 0#8, ebyte := 0#8, esetup := false, mode := .uninit, lcdH := false }
    pins := { lcdRstN := false, lcdSceN := true, lcdDc := false, lcdSclk := false, lcdSdin := false }
    fb := []
    consumer :=
      { rptr := 0#5, rptrGray := 0#5, wsync := .settled p.syncStages 0#5,
        ovfSync := .settled p.syncStages false, mrgSync := .settled p.syncStages false,
        rejSync := .settled p.syncStages false, fatalSync := .settled p.syncStages false }
    sleep :=
      { pwrReqTgl := false, slpDeep := false, slpDur := 0#24, ackChain := .settled p.syncStages false,
        slpHeld := false }
    power :=
      { pstate := .idle, reqChain := .settled p.syncStages false, pwrAckTgl := false, pDeep := false,
        pDur := 0#24, wakePend := false, wakeCause := 0#5, armFail := false, dis1Fail := false,
        slept := false, wktWait := false, irqChain := List.replicate p.syncStages false,
        systickSuspend := false, cpuRunEn := true, clkStopReq := false, clkRestoreReq := false,
        fatal := false, wktReq := false, wktOp := false, wktDur := 0#24 }
    producer :=
      { wptr := 0#5, wptrGray := 0#5, rsync := .settled p.syncStages 0#5, pend := 0#6, pendExt := false,
        pendExtCode := 0#8, ksync := List.replicate p.syncStages 0#5, kprev := 0#5, ovf := false,
        mrg := false, rej := false, extEvReady := true }
    fifo := []
    rst := r
    env := e }

/-- The parameters of `State.reset` (log 5): a statement about every state holds for every choice of them. -/
def resetParams : Params :=
  { sclkDiv := 0, tRstLow := 1, tRstHigh := 0, syncStages := 2, base := 0 }

/-- The machine right after reset, both domains out of reset (70_reset_and_hazards.md R391, R392): no access issued,
no tick given. -/
def State.reset : State :=
  State.resetWith resetParams { rstN := true, clkInRst := false, aonInRst := false }
    { sched := [], tickNo := 0, epoch := 0 }

end Sys2Proof.Machine
end

