-- ==== Sys2Proof/Machine/Operands.lean ====
section
/-! DEFINITION. Operand assembly (30_encoding.md R125): signed coordinates, the rotation transform, pixel addressing,
clamping, gray code, and the engine's action lists. Pure functions. -/

namespace Sys2Proof.Machine

open Sys2Proof Sys2Proof.Config

/-! ## Gray code (00_scope.md R16) -/

/-- `bin2gray(b) = b ^ (b >> 1)`. -/
def bin2gray (b : Ptr) : Ptr := b ^^^ (b >>> 1)

/-- The inverse: the top bit is `g[4]`, and each lower bit `i` is `g[i] ^ result[i+1]`. -/
def gray2bin (g : Ptr) : Ptr :=
  let b4 := g.getLsbD 4
  let b3 := g.getLsbD 3 ^^ b4
  let b2 := g.getLsbD 2 ^^ b3
  let b1 := g.getLsbD 1 ^^ b2
  let b0 := g.getLsbD 0 ^^ b1
  BitVec.ofBool b4 ++ BitVec.ofBool b3 ++ BitVec.ofBool b2 ++ BitVec.ofBool b1 ++ BitVec.ofBool b0

/-! ## Pixels (40_pixel_ops.md R151, R153) -/

/-- `sint12`: the two's-complement value of a 12-bit field (00_scope.md R11). -/
def sint12 (v : BitVec 12) : Int := v.toInt

/-- The rotation transform `rot(r, x, y)` (40_pixel_ops.md R151). -/
def rotate (r : BitVec 2) (x y : Int) : Int × Int :=
  if r = 0#2 then (x, y)
  else if r = 1#2 then (83 - y, x)
  else if r = 2#2 then (83 - x, 47 - y)
  else (y, 47 - x)

/-- `in_range(px, py)` (40_pixel_ops.md R151). -/
def inRange (px py : Int) : Bool :=
  decide (0 ≤ px) && decide (px < 84) && decide (0 ≤ py) && decide (py < 48)

/-- `fb_index(px, py) = (py div 8) * W + px` (20_memory.md R96). -/
def fbIndex (px py : Nat) : Nat := py / 8 * 84 + px

/-- Pixel addressing (40_pixel_ops.md R153): the byte index and the bit of logical `(X, Y)` under rotation `r`, or
`none` when the transformed coordinate is out of range. -/
def pixelAt (r : BitVec 2) (x y : BitVec 12) : Option (Nat × Nat) :=
  let p := rotate r (sint12 x) (sint12 y)
  if inRange p.1 p.2 then some (fbIndex p.1.toNat p.2.toNat, p.2.toNat % 8) else none

/-- The 8-bit mask `1 << k` (40_pixel_ops.md R153). -/
def bitMask (k : Nat) : Byte := 1#8 <<< k

/-- A byte with the bits of mask `m` set (`c = 1`) or cleared (40_pixel_ops.md R155). -/
def applyMask (b m : Byte) (c : Bool) : Byte :=
  if c then b ||| m else b &&& ~~~m

/-! ## Clamping (41_lcd_protocol.md R186) -/

/-- `clampv(v, max) = min(v, max)`, in 8 bits. -/
def clampv (v : BitVec 8) (max : Nat) : Byte := BitVec.ofNat 8 (min v.toNat max)

/-! ## Actions (00_scope.md R15, 41_lcd_protocol.md R180) -/

/-- One action of the engine. `byteFb i` is `BYTE(1, FbRead(i))`; `fbrd` without a location is `FBRD` out of range. -/
inductive Action where
  | rst (l : Bool)
  | wait (n : Nat)
  | sce (l : Bool)
  | byte (dc : Bool) (b : Byte)
  | byteFb (i : Nat)
  | fbrmw (i : Nat) (m : Byte) (c : Bool)
  | fbrd (at? : Option (Nat × Nat))
  | fbz (i : Nat)
deriving DecidableEq, Repr

/-- SETPIX's list (40_pixel_ops.md R155). -/
def setpixActions (r : BitVec 2) (x y : BitVec 12) (c : BitVec 1) : List Action :=
  match pixelAt r x y with
  | some (i, k) => [.fbrmw i (bitMask k) (c = 1#1)]
  | none => []

/-- GETPIX's list (40_pixel_ops.md R156). -/
def getpixActions (r : BitVec 2) (x y : BitVec 12) : List Action :=
  [.fbrd (pixelAt r x y)]

/-- CLEAR's list (40_pixel_ops.md R157). -/
def clearActions : List Action := (List.range' 0 fbBytes).map .fbz

/-- FLUSH's list (41_lcd_protocol.md R184). -/
def flushActions : List Action :=
  [.sce false, .byte false 0x40#8, .byte false 0x80#8] ++ (List.range' 0 fbBytes).map .byteFb ++ [.sce true]

/-- INIT's list (41_lcd_protocol.md R185). -/
def initActions (p : Params) (contrast bias : BitVec 8) : List Action :=
  [.rst false, .wait p.tRstLow, .rst true, .wait p.tRstHigh, .sce false,
   .byte false 0x21#8,
   .byte false (0x10#8 ||| clampv bias biasMax),
   .byte false (0x80#8 ||| clampv contrast vopMax),
   .byte false 0x20#8,
   .byte false 0x0C#8,
   .sce true]

/-- SETCONTRAST's list (41_lcd_protocol.md R187). -/
def setcontrastActions (value : BitVec 8) : List Action :=
  [.sce false, .byte false 0x21#8, .byte false (0x80#8 ||| clampv value vopMax), .byte false 0x20#8, .sce true]

/-- DISPCTL's byte: `0x08 | (MODE[1] << 2) | MODE[0]` (41_lcd_protocol.md R188). -/
def dispctlByte (mode : BitVec 2) : Byte :=
  0b00001#5 ++ mode.extractLsb' 1 1 ++ 0#1 ++ mode.extractLsb' 0 1

/-- DISPCTL's list (41_lcd_protocol.md R188). -/
def dispctlActions (mode : BitVec 2) : List Action :=
  [.sce false, .byte false (dispctlByte mode), .sce true]

/-- SETTEMPCO's list (41_lcd_protocol.md R189). -/
def settempcoActions (tc : BitVec 2) : List Action :=
  [.sce false, .byte false 0x21#8, .byte false (0x04#8 ||| tc.setWidth 8), .byte false 0x20#8, .sce true]

/-- `actions(eop, eargs)` (41_lcd_protocol.md R180), with the operand fields of 30_encoding.md R122; the lists of NOP,
SLEEP and the reserved opcodes are empty. -/
def actions (p : Params) (op : BitVec 4) (args : BitVec 28) (r : BitVec 2) : List Action :=
  if op = 0x1#4 then
    setpixActions r (args.extractLsb' 0 12) (args.extractLsb' 12 12) (args.extractLsb' 24 1)
  else if op = 0x2#4 then getpixActions r (args.extractLsb' 0 12) (args.extractLsb' 12 12)
  else if op = 0x3#4 then clearActions
  else if op = 0x4#4 then flushActions
  else if op = 0x5#4 then initActions p (args.extractLsb' 0 8) (args.extractLsb' 8 8)
  else if op = 0x6#4 then setcontrastActions (args.extractLsb' 0 8)
  else if op = 0x7#4 then dispctlActions (args.extractLsb' 0 2)
  else if op = 0x8#4 then settempcoActions (args.extractLsb' 0 2)
  else []

/-- The list of the op in progress. -/
def opActions (s : State) : List Action :=
  actions s.params s.engine.eop s.engine.eargs s.engine.erot

/-! ## Event sources (42_event_fifo.md R240) -/

/-- The seven sources of the producer front end, in priority order (42_event_fifo.md R247). -/
inductive Source where
  | timer | keyLeft | keyUp | keyDown | keyRight | keyEnter | ext
deriving DecidableEq, Repr

/-- The latch index of a source other than the external port (10_state.md R54). -/
def Source.latch : Source → Option Nat
  | .timer => some 0
  | .keyLeft => some 1
  | .keyUp => some 2
  | .keyDown => some 3
  | .keyRight => some 4
  | .keyEnter => some 5
  | .ext => none

/-- The put instruction of a source; for EXT the word is the one held in its latch. -/
def Source.instr (q : Source) (s : State) : Instr :=
  match q with
  | .timer => .putTimer
  | .keyLeft => .putKeyleft
  | .keyUp => .putKeyup
  | .keyDown => .putKeydown
  | .keyRight => .putKeyright
  | .keyEnter => .putKeyenter
  | .ext => .putExt s.producer.pendExtCode

end Sys2Proof.Machine
end

