-- ==== Sys2Proof/Machine/Flags.lean ====
section
/-! DEFINITION. Everything the block computes as a flag or a status view: BUSY, FIFO empty, full and count, EV_NE,
`irq`, the words STATUS, CTRL, EVQ_STAT and PWR_STAT read as, the wake sources, and the power outputs of a state. -/

namespace Sys2Proof.Machine

open Sys2Proof Sys2Proof.Config

/-- The output of a synchroniser chain: its last stage (20_memory.md R107). -/
def chainOut {α : Type} (d : α) (c : List α) : α := c.getLastD d

/-- The output of a crossing. -/
def Cross.out {α : Type} (d : α) (x : Cross α) : α := chainOut d x.chain

/-- `wsync_out` (10_state.md R51). -/
def wsyncOut (s : State) : Ptr := s.consumer.wsync.out 0#5
/-- `rsync_out` (10_state.md R54). -/
def rsyncOut (s : State) : Ptr := s.producer.rsync.out 0#5
/-- `fatal_sync`, read as STATUS.FATAL (10_state.md R42). -/
def fatalSyncOut (s : State) : Bool := s.consumer.fatalSync.out false
/-- `pwr_ack_sync` (10_state.md R52). -/
def pwrAckSync (s : State) : Bool := s.sleep.ackChain.out false
/-- `pwr_req_sync` (10_state.md R53). -/
def pwrReqSync (s : State) : Bool := s.power.reqChain.out false
/-- `kout`, one bit for each key: the last stage of `ksync` (42_event_fifo.md R242). -/
def kout (s : State) : BitVec 5 := chainOut 0#5 s.producer.ksync

/-- `BUSY = (estate ≠ IDLE) ∨ (pwr_req_tgl ≠ pwr_ack_sync)` (10_state.md R44). -/
def busy (s : State) : Bool :=
  decide (s.engine.estate ≠ .idle) || s.sleep.pwrReqTgl != pwrAckSync s

/-- The hold condition of a CMD write before its acceptance (20_memory.md R93, 44_host_registers.md R323). -/
def cmdHeld (s : State) : Bool := busy s || fatalSyncOut s

/-- `empty_c = (rptr_gray = wsync_out)` (42_event_fifo.md R255). -/
def emptyC (s : State) : Bool := s.consumer.rptrGray == wsyncOut s

/-- STATUS.EV_NE (42_event_fifo.md R258). -/
def evNe (s : State) : Bool := !emptyC s

/-- `EVQ_STAT.COUNT = (gray2bin(wsync_out) − rptr) mod 32` (42_event_fifo.md R259). -/
def countC (s : State) : Ptr := gray2bin (wsyncOut s) - s.consumer.rptr

/-- `full_p = (wptr_gray = {~rg[4], ~rg[3], rg[2], rg[1], rg[0]})` (42_event_fifo.md R250). -/
def fullP (s : State) : Bool :=
  let rg := rsyncOut s
  s.producer.wptrGray == ~~~(rg.extractLsb' 3 2) ++ rg.extractLsb' 0 3

/-- Producer-view occupancy (42_event_fifo.md R251). -/
def occP (s : State) : Ptr := s.producer.wptr - gray2bin (rsyncOut s)

/-- The interrupt output, combinational on clk registers (60_exceptions.md R356). -/
def irq (s : State) : Bool :=
  (s.regs.done && s.regs.ctrlIeDone) || (evNe s && s.regs.ctrlIeEvq)

/-- The code of the mode flag in STATUS.PHASE (10_state.md R42). -/
def LcdMode.phase : LcdMode → BitVec 2
  | .uninit => 0#2
  | .cmdp => 1#2
  | .datap => 2#2

/-- The code of a power state in PWR_STAT.STATE (43_power.md R281). -/
def PowerState.code : PowerState → BitVec 3
  | .idle => 0#3
  | .disarm1 => 1#3
  | .arm => 2#3
  | .sleep => 3#3
  | .disarm2 => 4#3
  | .restore => 5#3
  | .fatal => 7#3

/-- The word a CTRL read returns (44_host_registers.md R322). -/
def ctrlWord (s : State) : Word :=
  (BitVec.ofBool s.regs.ctrlIeEvq ++ BitVec.ofBool s.regs.ctrlIeDone ++ 0#2 ++ s.regs.ctrlRot).setWidth 32

/-- The word a STATUS read returns (44_host_registers.md R327). -/
def statusWord (s : State) : Word :=
  (BitVec.ofBool (fatalSyncOut s) ++ BitVec.ofBool (evNe s) ++ BitVec.ofBool s.regs.cmdErr ++
    BitVec.ofBool s.regs.done ++ BitVec.ofBool s.regs.initDone ++ s.engine.mode.phase ++
    BitVec.ofBool (busy s)).setWidth 32

/-- The word a RESULT read returns (44_host_registers.md R324). -/
def resultWord (s : State) : Word := (BitVec.ofBool s.regs.resultPix).setWidth 32

/-- The word an EVQ_STAT read returns (44_host_registers.md R330). -/
def evqStatWord (s : State) : Word :=
  (BitVec.ofBool (s.consumer.rejSync.out false) ++ BitVec.ofBool (s.consumer.mrgSync.out false) ++
    BitVec.ofBool (s.consumer.ovfSync.out false) ++ 0#3 ++ countC s).setWidth 32

/-- The word a PWR_STAT read returns (44_host_registers.md R331). -/
def pwrStatWord (s : State) : Word :=
  (s.power.wakeCause ++ 0#2 ++ BitVec.ofBool s.power.pDeep ++ BitVec.ofBool s.power.dis1Fail ++
    BitVec.ofBool s.power.armFail ++ s.power.pstate.code).setWidth 32

/-! ## Event sources at an aon_clk edge, read before the edge -/

/-- The keys that have an event: `kprev[k] = 0` and `kout[k] = 1` (42_event_fifo.md R242). -/
def keyEvents (s : State) : BitVec 5 := ~~~s.producer.kprev &&& kout s

/-- The events of sources 0 to 5, the timer in bit 0 and key `k` in bit `k + 1` (42_event_fifo.md R240). -/
def latchEvents (a : AonIn) (s : State) : BitVec 6 := keyEvents s ++ BitVec.ofBool a.wktExpire

/-- The external port has an event (42_event_fifo.md R241). -/
def extEvent (a : AonIn) : Bool := a.extValid && storable a.extCode

/-- The external port presents a code that is not storable (42_event_fifo.md R246). -/
def extRejected (a : AonIn) : Bool := a.extValid && !storable a.extCode

/-- `sel`, the first source in priority order whose latch is 1 (42_event_fifo.md R247). -/
def select (s : State) : Option Source :=
  if s.producer.pend.getLsbD 0 then some .timer
  else if s.producer.pend.getLsbD 1 then some .keyLeft
  else if s.producer.pend.getLsbD 2 then some .keyUp
  else if s.producer.pend.getLsbD 3 then some .keyDown
  else if s.producer.pend.getLsbD 4 then some .keyRight
  else if s.producer.pend.getLsbD 5 then some .keyEnter
  else if s.producer.pendExt then some .ext
  else none

/-- The wake sources `src`: FIFO, IRQ, EXT, KEY, TIMER in bits 4 to 0 (43_power.md R286). -/
def wakeSources (a : AonIn) (s : State) : BitVec 5 :=
  BitVec.ofBool (s.producer.wptr != gray2bin (rsyncOut s)) ++
    BitVec.ofBool (chainOut false s.power.irqChain) ++ BitVec.ofBool a.extValid ++
    BitVec.ofBool (keyEvents s != 0#5) ++ BitVec.ofBool a.wktExpire

/-- The states in which wake sources are latched (43_power.md R287). -/
def PowerState.latchesWake : PowerState → Bool
  | .disarm1 | .arm | .sleep => true
  | .idle | .disarm2 | .restore | .fatal => false

/-- A power record in state `st`, its outputs those of the table of 43_power.md R281. -/
def Power.enter (p : Power) (st : PowerState) : Power :=
  { p with
    pstate := st
    cpuRunEn := decide (st = .idle) || decide (st = .disarm1) || decide (st = .arm)
    systickSuspend := decide (st = .sleep)
    clkStopReq := decide (st = .sleep) && p.pDeep
    clkRestoreReq := decide (st = .restore)
    fatal := decide (st = .fatal) }

/-! ## The window (20_memory.md R101) -/

/-- The host address of the register at `off`. -/
def registerAddress (p : Params) (off : BitVec 8) : Nat := p.base + off.toNat

end Sys2Proof.Machine
end

