-- ==== Sys2Proof/Machine/Ops.lean ====
section
/-! DEFINITION. The named operations every meaning is made of: the two RAMs, the synchronisers, the bus responses,
recording an error and clearing its record (the block's exceptions, 60_exceptions.md R350 to R361), the put and
the pop of the event FIFO. -/

namespace Sys2Proof.Machine

open Sys2Proof Sys2Proof.Config

/-! ## RAM -/

/-- The byte an address holds, if one has been written there. -/
def Memory.get? : Memory → Nat → Option Byte
  | [], _ => none
  | (k, v) :: m, a => if k = a then some v else Memory.get? m a

/-- The memory with `v` at `a`, in canonical form. -/
def Memory.set : Memory → Nat → Byte → Memory
  | [], a, v => [(a, v)]
  | (k, w) :: m, a, v =>
    if a < k then (a, v) :: (k, w) :: m
    else if a = k then (a, v) :: m
    else (k, w) :: Memory.set m a v

/-- The canonical form of a RAM of `n` bytes: addresses strictly rising and below `n`. -/
abbrev Memory.wf (n : Nat) (m : Memory) : Prop :=
  m.Pairwise (fun c d => c.1 < d.1) ∧ ∀ c ∈ m, c.1 < n

/-- `FbRead(i)` (00_scope.md R14); a byte nothing has written since reset reads as a free value (10_state.md R50). -/
def fbRead (s : State) (i : Nat) : Byte := (s.fb.get? i).getD (fbUnspecified s.env.epoch i)

/-- `FbWrite(i, v)` (00_scope.md R14). -/
def fbWrite (i : Nat) (v : Byte) (s : State) : State := s.withFb (s.fb.set i v)

/-- `FifoRead(s)` (00_scope.md R14); an unwritten slot reads as a free value (10_state.md R55). -/
def fifoRead (s : State) (i : BitVec 4) : Byte :=
  (s.fifo.get? i.toNat).getD (fifoUnspecified s.env.epoch i.toNat)

/-- `FifoWrite(s, v)` (00_scope.md R14). -/
def fifoWrite (i : BitVec 4) (v : Byte) (s : State) : State := s.withFifo (s.fifo.set i.toNat v)

/-- The slot a pointer addresses: its low four bits (20_memory.md R98). -/
def slotOf (p : Ptr) : BitVec 4 := p.extractLsb' 0 4

/-! ## Synchronisers (20_memory.md R107) -/

/-- The source register takes the value `v`: it joins the window of the next destination edge. -/
def Cross.push {α : Type} (v : α) (x : Cross α) : Cross α := { x with held := x.held ++ [v] }

/-- `sample(src)`: the value of the window that the draw picks. -/
def Cross.sample {α : Type} (d : α) (pick : Nat) (x : Cross α) : α :=
  x.held.getD (pick % x.held.length) d

/-- An edge of the destination clock ends the window: the next one opens with the value the source holds now. -/
def Cross.close {α : Type} (d : α) (x : Cross α) : Cross α := { x with held := [x.held.getLastD d] }

/-- An edge of the destination clock: the stages shift, stage 0 takes the sample, and the window ends. -/
def Cross.clock {α : Type} (d : α) (pick : Nat) (x : Cross α) : Cross α :=
  { x.close d with chain := (x.sample d pick :: x.chain).dropLast }

/-- An edge of a chain whose source is an asynchronous input sampled as `v`. -/
def chainClock {α : Type} (v : α) (c : List α) : List α := (v :: c).dropLast

/-! ## Bus responses (20_memory.md R90, 44_host_registers.md R320) -/

/-- A read completes with data `v`. -/
def respondRead (v : Word) (s : State) : State :=
  s.withBus { s.bus with hReady := true, hErr := false, hRdata := v }

/-- A response without read data: `h_rdata` is a free value (log 10). -/
def respondUnread (ready : Bool) (s : State) : State :=
  s.withBus
    { s.bus with
      hReady := ready, hErr := false, hRdata := rdataUnstated s.bus.drawNo, drawNo := s.bus.drawNo + 1 }

/-- A write completes. -/
def respondWrite (s : State) : State := respondUnread true s

/-- The access is held: a wait state. -/
def holdAccess (s : State) : State := respondUnread false s

/-! ## Errors (60_exceptions.md R351) -/

/-- The eight error conditions. -/
inductive ErrorCode where
  | busErr | cmdErr | evqOvf | evqMrg | evqRej | armFail | dis1Fail | fatal
deriving DecidableEq, Repr

/-- `raise E`: error `E` is recorded where the table of 60_exceptions.md R351 says, and FATAL is entered
(43_power.md R294, 60_exceptions.md R360). A flag that crosses into clk joins its synchroniser's window. Nothing else
changes: no address, no command word, no mode, no mask is saved (R350, R360). -/
def raiseErr (e : ErrorCode) (s : State) : State :=
  match e with
  | .busErr => s.withBus { s.bus with hReady := true, hErr := true, hRdata := 0#32 }
  | .cmdErr => s.withRegs { s.regs with cmdErr := true }
  | .evqOvf =>
    (s.withProducer { s.producer with ovf := true }).withConsumer
      { s.consumer with ovfSync := s.consumer.ovfSync.push true }
  | .evqMrg =>
    (s.withProducer { s.producer with mrg := true }).withConsumer
      { s.consumer with mrgSync := s.consumer.mrgSync.push true }
  | .evqRej =>
    (s.withProducer { s.producer with rej := true }).withConsumer
      { s.consumer with rejSync := s.consumer.rejSync.push true }
  | .armFail => s.withPower { s.power with armFail := true }
  | .dis1Fail => s.withPower { s.power with dis1Fail := true }
  | .fatal =>
    (s.withPower (s.power.enter .fatal)).withConsumer
      { s.consumer with fatalSync := s.consumer.fatalSync.push true }

/-- The write-1-to-clear of STATUS (10_state.md R42, 44_host_registers.md R328). An event that sets the bit at the
same edge is applied after this write, so set wins. -/
def clearStatus (v : Word) (s : State) : State :=
  s.withRegs
    { s.regs with
      done := s.regs.done && !v.getLsbD 4
      cmdErr := s.regs.cmdErr && !v.getLsbD 5 }

/-! ## The event FIFO -/

/-- The put of word `v` (42_event_fifo.md R249). -/
def putEvent (v : Byte) (s : State) : State :=
  if fullP s then raiseErr .evqOvf s
  else
    let w := s.producer.wptr + 1#5
    ((fifoWrite (slotOf s.producer.wptr) v s).withProducer
        { s.producer with wptr := w, wptrGray := bin2gray w }).withConsumer
      { s.consumer with wsync := s.consumer.wsync.push (bin2gray w) }

/-- The selected source's latch is cleared (42_event_fifo.md R248). -/
def drain (q : Source) (s : State) : State :=
  match q.latch with
  | some k => s.withProducer { s.producer with pend := s.producer.pend &&& ~~~(1#6 <<< k) }
  | none => s.withProducer { s.producer with pendExt := false, extEvReady := true }

/-- The put stage of an aon_clk edge whose `sel` is `q`, with word `v`: the latch is cleared whether the put stores
the event or drops it (42_event_fifo.md R248, R249). -/
def putFrom (q : Source) (v : Byte) (s : State) : State := putEvent v (drain q s)

/-- The pop of an EVQ_POP read (42_event_fifo.md R257). -/
def popEvent (s : State) : State :=
  if emptyC s then respondRead 0#32 s
  else
    let r := s.consumer.rptr + 1#5
    ((respondRead ((fifoRead s (slotOf s.consumer.rptr)).setWidth 32) s).withConsumer
        { s.consumer with rptr := r, rptrGray := bin2gray r }).withProducer
      { s.producer with rsync := s.producer.rsync.push (bin2gray r) }

end Sys2Proof.Machine
end

