-- ==== Sys2Proof/Machine/Events.lean ====
section
/-! DEFINITION. The producer front end (42_event_fifo.md): the puts (R248, R249), the reject of an external event
(R246), and the capture of new events into the pending latches (R244, R245). -/

namespace Sys2Proof.Machine

open Sys2Proof Sys2Proof.Config

/-- PUT_TIMER: the put of 0x02 from the timer's latch (42_event_fifo.md R240, R249). -/
def execPutTimer (s : State) : Out := .next (putFrom .timer 0x02#8 s)
/-- PUT_KEYLEFT: the put of 0x03 from key 0's latch. -/
def execPutKeyleft (s : State) : Out := .next (putFrom .keyLeft 0x03#8 s)
/-- PUT_KEYUP: the put of 0x04 from key 1's latch. -/
def execPutKeyup (s : State) : Out := .next (putFrom .keyUp 0x04#8 s)
/-- PUT_KEYDOWN: the put of 0x05 from key 2's latch. -/
def execPutKeydown (s : State) : Out := .next (putFrom .keyDown 0x05#8 s)
/-- PUT_KEYRIGHT: the put of 0x06 from key 3's latch. -/
def execPutKeyright (s : State) : Out := .next (putFrom .keyRight 0x06#8 s)
/-- PUT_KEYENTER: the put of 0x07 from key 4's latch. -/
def execPutKeyenter (s : State) : Out := .next (putFrom .keyEnter 0x07#8 s)
/-- PUT_EXT: the put of the event word `e` from the external latch. -/
def execPutExt (e : Byte) (s : State) : Out := .next (putFrom .ext e s)

/-- EXT_REJECT: an external event with a code that is not storable: nothing is captured and `rej <- 1`
(42_event_fifo.md R246). -/
def execExtReject (_e : Byte) (s : State) : Out := .next (raiseErr .evqRej s)

/-- The sources 0 to 5 whose latch was 1 before the edge and is not the one selected, as latch bits. -/
def keptLatches (sel : Option Source) (pend : BitVec 6) : BitVec 6 :=
  match sel.bind Source.latch with
  | some k => pend &&& ~~~(1#6 <<< k)
  | none => pend

/-- Some event of this edge is lost at a latch that is already full (42_event_fifo.md R245). -/
def merges (a : AonIn) (pre : State) : Bool :=
  (latchEvents a pre &&& keptLatches (select pre) pre.producer.pend) != 0#6 ||
    (extEvent a && pre.producer.pendExt && decide (select pre ≠ some .ext))

/-- The external event of this edge is captured. -/
def capturesExt (a : AonIn) (pre : State) : Bool :=
  extEvent a && (!pre.producer.pendExt || decide (select pre = some .ext))

/-- The capture of an aon_clk edge's events into the latches of `s`, the state after the put stage; `pre` is the state
before the edge (42_event_fifo.md R244, R245). -/
def capture (a : AonIn) (pre s : State) : State :=
  let p := s.producer
  let t := s.withProducer
    { p with
      pend := p.pend ||| latchEvents a pre
      pendExt := p.pendExt || capturesExt a pre
      pendExtCode := if capturesExt a pre then a.extCode else p.pendExtCode
      extEvReady := !(p.pendExt || capturesExt a pre) }
  if merges a pre then raiseErr .evqMrg t else t

end Sys2Proof.Machine
end

