-- ==== Sys2Proof/Machine/Engine.lean ====
section
/-! DEFINITION. The LCD engine (40_pixel_ops.md R150, 41_lcd_protocol.md R180 to R182): acceptance of a CMD word, the
action list run one clk cycle at a time, and the byte shifter. The assignments an action makes at its start fall on
the edge where the action before it completes, or on the acceptance edge; a framebuffer action acts on the edge that
ends its one cycle (log 6). -/

namespace Sys2Proof.Machine

open Sys2Proof Sys2Proof.Config

/-- `T`, in clk cycles. -/
def halfT (s : State) : Nat := s.params.halfPeriod

/-- The phase `want` of a byte (41_lcd_protocol.md R182). -/
def wantMode (dc : Bool) : LcdMode := if dc then .datap else .cmdp

/-- The setup of a BYTE is over: `eshift <- b`, the first data bit goes out (`lcd_sdin <- eshift[7]`), and the wait
before the first rising edge begins (41_lcd_protocol.md R182). -/
def loadBits (s : State) : State :=
  (s.withEngine { s.engine with eshift := s.engine.ebyte, esetup := false, ecnt := halfT s }).withPins
    { s.pins with lcdSdin := s.engine.ebyte.getLsbD 7 }

/-- The start of `BYTE(dc, b)` (41_lcd_protocol.md R182), its argument evaluated here (R184, log 7). When the mode flag
differs from the wanted phase, `lcd_dc` and the flag change and the D/C setup wait begins, with `eshift` as it was; else
the byte is loaded at once. From the start on all 8 bits are still to send (`ebit`, 10_state.md R49, log 28). -/
def startByte (dc : Bool) (b : Byte) (s : State) : State :=
  if s.engine.mode = wantMode dc then
    loadBits (s.withEngine { s.engine with ebyte := b, ebit := 8 })
  else
    (s.withEngine
        { s.engine with ebyte := b, ebit := 8, mode := wantMode dc, esetup := true, ecnt := halfT s }).withPins
      { s.pins with lcdDc := dc }

/-- The op completes: `estate <- IDLE` and `done <- 1` at the same edge (40_pixel_ops.md R150), and `init_done <- 1`
for INIT (41_lcd_protocol.md R185). -/
def finishOp (s : State) : State :=
  (s.withEngine { s.engine with estate := .idle }).withRegs
    { s.regs with done := true, initDone := s.regs.initDone || s.engine.eop == 0x5#4 }

/-- What the start of an action does (41_lcd_protocol.md R180), and the byte to send when the action is a BYTE. -/
def startAction (a : Action) (s : State) : State × Option (Bool × Byte) :=
  match a with
  | .rst l =>
    ((s.withEngine { s.engine with ecnt := 1 }).withPins { s.pins with lcdRstN := l }, none)
  | .wait n => (s.withEngine { s.engine with ecnt := n }, none)
  | .sce l =>
    ((s.withEngine { s.engine with ecnt := halfT s }).withPins { s.pins with lcdSceN := l }, none)
  | .byte dc b => (s, some (dc, b))
  | .byteFb i => (s, some (true, fbRead s i))
  | .fbrmw _ _ _ => (s.withEngine { s.engine with ecnt := 1 }, none)
  | .fbrd _ => (s.withEngine { s.engine with ecnt := 1 }, none)
  | .fbz _ => (s.withEngine { s.engine with ecnt := 1 }, none)

/-- The rest of the op's list is `as`: its first action starts; `WAIT(0)` lasts no time; with none left the op
completes (10_state.md R38). -/
def startFrom (as : List Action) (s : State) : State × Option (Bool × Byte) :=
  match as with
  | [] => (finishOp s, none)
  | .wait 0 :: rest => startFrom rest (s.withEngine { s.engine with eidx := s.engine.eidx + 1 })
  | a :: _ => startAction a s

/-- The current action has completed: `eidx` goes up by one (10_state.md R38) and the next action starts. -/
def nextAction (s : State) : State × Option (Bool × Byte) :=
  let t := s.withEngine { s.engine with eidx := s.engine.eidx + 1 }
  startFrom ((opActions t).drop t.engine.eidx) t

/-- The last bit of a byte has gone: the mode the device is in after a function-set byte is known
(30_encoding.md R128, R130). -/
def finishByte (dc : Bool) (s : State) : State :=
  if !dc && s.engine.eshift.extractLsb' 3 5 == 0b00100#5 then
    s.withEngine { s.engine with lcdH := s.engine.eshift.getLsbD 0 }
  else s

/-- A wait inside `BYTE(dc, _)` ends: after the D/C setup the byte is loaded and its first bit goes out; after the low
half of a bit `lcd_sclk` rises; after its high half it falls, and the next bit goes out or the byte is complete
(41_lcd_protocol.md R182). -/
def byteEdge (dc : Bool) (s : State) : State × Option (Bool × Byte) :=
  if s.engine.esetup then (loadBits s, none)
  else if !s.pins.lcdSclk then
    ((s.withEngine { s.engine with ecnt := halfT s }).withPins { s.pins with lcdSclk := true }, none)
  else if s.engine.ebit ≤ 1 then
    nextAction
      (finishByte dc
        ((s.withEngine { s.engine with ebit := 0 }).withPins { s.pins with lcdSclk := false }))
  else
    ((s.withEngine { s.engine with ebit := s.engine.ebit - 1, ecnt := halfT s }).withPins
        { s.pins with lcdSclk := false, lcdSdin := s.engine.eshift.getLsbD (s.engine.ebit - 2) }, none)

/-- A wait of action `a` ends at this edge: what the action does there. -/
def actionEdge (a : Action) (s : State) : State × Option (Bool × Byte) :=
  match a with
  | .rst _ => nextAction s
  | .wait _ => nextAction s
  | .sce _ => nextAction s
  | .byte dc _ => byteEdge dc s
  | .byteFb _ => byteEdge true s
  | .fbrmw i m c => nextAction (fbWrite i (applyMask (fbRead s i) m c) s)
  | .fbrd none => nextAction (s.withRegs { s.regs with resultPix := false })
  | .fbrd (some (i, k)) => nextAction (s.withRegs { s.regs with resultPix := (fbRead s i).getLsbD k })
  | .fbz i => nextAction (fbWrite i 0#8 s)

/-- One clk edge of the engine in RUN, and the byte whose BYTE action starts there. `ecnt` counts the clk cycles that
remain of the current wait (10_state.md R49). -/
def engineEdge (s : State) : State × Option (Bool × Byte) :=
  match (opActions s)[s.engine.eidx]? with
  | none => (finishOp s, none)
  | some a =>
    if 1 < s.engine.ecnt then (s.withEngine { s.engine with ecnt := s.engine.ecnt - 1 }, none)
    else actionEdge a (s.withEngine { s.engine with ecnt := 0 })

/-- The framebuffer byte an action names, if it names one. -/
def Action.fbByte : Action → Option Nat
  | .rst _ => none
  | .wait _ => none
  | .sce _ => none
  | .byte _ _ => none
  | .byteFb i => some i
  | .fbrmw i _ _ => some i
  | .fbrd at? => at?.map Prod.fst
  | .fbz i => some i

/-- The index over 503 that the action at position `n` of the op's list names, if it names one. -/
def outsideByte (s : State) (n : Nat) : Option Nat :=
  ((opActions s)[n]?.bind Action.fbByte).filter fun i => decide (fbBytes ≤ i)

/-! ## Acceptance (40_pixel_ops.md R150) -/

/-- The latches of acceptance. -/
def latchOp (op : BitVec 4) (args : BitVec 28) (s : State) : State :=
  s.withEngine { s.engine with eop := op, eargs := args, erot := s.regs.ctrlRot, eidx := 0 }

/-- A byte that an action start asks for is started at once. -/
def startDue (p : State × Option (Bool × Byte)) : State :=
  match p.2 with
  | none => p.1
  | some (dc, b) => startByte dc b p.1

/-- `accept(w)`: an op with an empty list completes at its acceptance edge; else the engine runs and the first action
starts. -/
def acceptOp (op : BitVec 4) (args : BitVec 28) (s : State) : State :=
  let t := latchOp op args s
  match opActions t with
  | [] => t.withRegs { t.regs with done := true }
  | as => startDue (startFrom as (t.withEngine { t.engine with estate := .run }))

/-- A CMD write other than SLEEP (44_host_registers.md R323): held while `BUSY = 1` or `fatal_sync = 1`, else accepted
by `accept`, completing at the same edge. -/
def cmdWrite (accept : State → State) (s : State) : Out :=
  if cmdHeld s then .next (holdAccess s) else .next (respondWrite (accept s))

end Sys2Proof.Machine
end

