-- ==== Sys2Proof/Machine/Lcd.lean ====
section
/-! DEFINITION. The CMD ops that drive the device bus (41_lcd_protocol.md): FLUSH, INIT, SETCONTRAST, DISPCTL,
SETTEMPCO. Each meaning is the host write of the op's word to CMD at a clk edge. -/

namespace Sys2Proof.Machine

open Sys2Proof Sys2Proof.Config

/-- FLUSH (41_lcd_protocol.md R184). -/
def execFlush (rsv : BitVec 28) (s : State) : Out :=
  cmdWrite (acceptOp 0x4#4 rsv) s

/-- INIT (41_lcd_protocol.md R185): `init_done <- 0` at acceptance, and the op. -/
def execInit (contrast bias : BitVec 8) (rsv : BitVec 12) (s : State) : Out :=
  cmdWrite (fun t => acceptOp 0x5#4 (rsv ++ bias ++ contrast) (t.withRegs { t.regs with initDone := false })) s

/-- SETCONTRAST (41_lcd_protocol.md R187). -/
def execSetcontrast (value : BitVec 8) (rsv : BitVec 20) (s : State) : Out :=
  cmdWrite (acceptOp 0x6#4 (rsv ++ value)) s

/-- DISPCTL (41_lcd_protocol.md R188). -/
def execDispctl (mode : BitVec 2) (rsv : BitVec 26) (s : State) : Out :=
  cmdWrite (acceptOp 0x7#4 (rsv ++ mode)) s

/-- SETTEMPCO (41_lcd_protocol.md R189). -/
def execSettempco (tc : BitVec 2) (rsv : BitVec 26) (s : State) : Out :=
  cmdWrite (acceptOp 0x8#4 (rsv ++ tc)) s

end Sys2Proof.Machine
end

