-- ==== Sys2Proof/Machine/Pixel.lean ====
section
/-! DEFINITION. The CMD ops that touch only the framebuffer (40_pixel_ops.md): NOP, SETPIX, GETPIX, CLEAR. Each meaning
is the host write of the op's word to CMD at a clk edge. -/

namespace Sys2Proof.Machine

open Sys2Proof Sys2Proof.Config

/-- NOP (40_pixel_ops.md R152): a completion fence; an empty list. -/
def execNop (rsv : BitVec 28) (s : State) : Out :=
  cmdWrite (acceptOp 0x0#4 rsv) s

/-- SETPIX (40_pixel_ops.md R154, R155). -/
def execSetpix (x y : BitVec 12) (c : BitVec 1) (rsv : BitVec 3) (s : State) : Out :=
  cmdWrite (acceptOp 0x1#4 (rsv ++ c ++ y ++ x)) s

/-- GETPIX (40_pixel_ops.md R156). -/
def execGetpix (x y : BitVec 12) (rsv : BitVec 4) (s : State) : Out :=
  cmdWrite (acceptOp 0x2#4 (rsv ++ y ++ x)) s

/-- CLEAR (40_pixel_ops.md R157). -/
def execClear (rsv : BitVec 28) (s : State) : Out :=
  cmdWrite (acceptOp 0x3#4 rsv) s

end Sys2Proof.Machine
end

