-- ==== Sys2Proof/Machine/PowerFsm.lean ====
section
/-! DEFINITION. The SLEEP command (43_power.md R282, R283) and the power FSM with its wake latch and timer requests
(43_power.md R284 to R294). -/

namespace Sys2Proof.Machine

open Sys2Proof Sys2Proof.Config

/-- The acceptance of a SLEEP word: the latches of every op, the operands, and the request toggle; the write keeps
holding (43_power.md R282, R283). -/
def acceptSleep (dur : BitVec 24) (deep : BitVec 1) (rsv : BitVec 3) (s : State) : State :=
  let tgl := !s.sleep.pwrReqTgl
  let t := latchOp 0x9#4 (rsv ++ deep ++ dur) s
  (holdAccess
      (t.withSleep { t.sleep with slpDur := dur, slpDeep := deep = 1#1, pwrReqTgl := tgl, slpHeld := true })).withPower
    { t.power with reqChain := t.power.reqChain.push tgl }

/-- The completion of a SLEEP write (43_power.md R283). -/
def completeSleep (s : State) : State :=
  respondWrite ((s.withRegs { s.regs with done := true }).withSleep { s.sleep with slpHeld := false })

/-- SLEEP (43_power.md R282, R283): held like any CMD write until accepted; then held until
`pwr_ack_sync = pwr_req_tgl`, where it completes and `done <- 1`. -/
def execSleep (dur : BitVec 24) (deep : BitVec 1) (rsv : BitVec 3) (s : State) : Out :=
  if s.sleep.slpHeld then
    if pwrAckSync s = s.sleep.pwrReqTgl then .next (completeSleep s) else .next (holdAccess s)
  else if cmdHeld s then .next (holdAccess s)
  else .next (acceptSleep dur deep rsv s)

/-! ## The FSM, one aon_clk edge -/

/-- `issue(op)`, `op` 1 = ARM, 0 = DISARM (43_power.md R285). It is applied after `Power.tick`: where an edge both ends
the request before and issues the next one, the issue wins and `wkt_req` stays 1 (the model's choice, log 29). -/
def Power.issue (op : Bool) (p : Power) : Power :=
  { p with wktReq := true, wktOp := op, wktDur := if op then p.pDur else p.wktDur, wktWait := true }

/-- What every edge does before the state's own rule: the request pulse of the edge before ends, a response ends the
wait (43_power.md R285), and the wake sources are latched in DISARM1, ARM and SLEEP (43_power.md R287). An `issue` of the
same edge comes after it and wins over `wkt_req <- 0` (the model's choice, log 29). -/
def Power.tick (a : AonIn) (src : BitVec 5) (p : Power) : Power :=
  { p with
    wktReq := false
    wktWait := p.wktWait && !a.wktAck
    wakeCause := if p.pstate.latchesWake then p.wakeCause ||| src else p.wakeCause
    wakePend := p.wakePend || (p.pstate.latchesWake && src != 0#5) }

/-- `complete`: the acknowledge toggles and the FSM is IDLE (43_power.md R293). -/
def completePower (s : State) : State :=
  let tgl := !s.power.pwrAckTgl
  (s.withPower { (s.power.enter .idle) with pwrAckTgl := tgl }).withSleep
    { s.sleep with ackChain := s.sleep.ackChain.push tgl }

/-- The FSM issues `op` and goes to state `st`. -/
def issueAndEnter (op : Bool) (st : PowerState) (s : State) : State :=
  s.withPower ((s.power.issue op).enter st)

/-- IDLE at an edge with a request (43_power.md R284): the latches of the op, a DISARM, DISARM1. -/
def startSleepOp (s : State) : State :=
  issueAndEnter false .disarm1
    (s.withPower
      { s.power with
        pDeep := s.sleep.slpDeep, pDur := s.sleep.slpDur, wakePend := false, wakeCause := 0#5
        armFail := false, dis1Fail := false, slept := false })

/-- DISARM1 at the response (43_power.md R288). -/
def disarm1Response (ok : Bool) (s : State) : State :=
  issueAndEnter true .arm (if ok then s else raiseErr .dis1Fail s)

/-- ARM at the response (43_power.md R289); `wake` says that a wake source was seen before or is seen at this edge. -/
def armResponse (ok wake : Bool) (s : State) : State :=
  if !ok then issueAndEnter false .disarm2 (raiseErr .armFail s)
  else if wake then issueAndEnter false .disarm2 s
  else s.withPower ({ s.power with slept := true }.enter .sleep)

/-- DISARM2 at the response (43_power.md R292). -/
def disarm2Response (ok : Bool) (s : State) : State :=
  if !ok then raiseErr .fatal s
  else if s.power.pDeep && s.power.slept then s.withPower (s.power.enter .restore)
  else completePower s

/-- The power FSM at one aon_clk edge: the wake sources `src` and the inputs are read before the edge
(43_power.md R284 to R294). -/
def powerEdge (a : AonIn) (src : BitVec 5) (s : State) : State :=
  let resp := s.power.wktWait && a.wktAck
  let wake := s.power.wakePend || src != 0#5
  let t := s.withPower (s.power.tick a src)
  match s.power.pstate with
  | .idle => if pwrReqSync s = s.power.pwrAckTgl then t else startSleepOp t
  | .disarm1 => if resp then disarm1Response a.wktOk t else t
  | .arm => if resp then armResponse a.wktOk wake t else t
  | .sleep => if wake then issueAndEnter false .disarm2 t else t
  | .disarm2 => if resp then disarm2Response a.wktOk t else t
  | .restore => if a.restoreAck then completePower t else t
  | .fatal => t

end Sys2Proof.Machine
end

