-- ==== Sys2Proof/Machine/Reserved.lean ====
section
/-! DEFINITION. The reserved opcodes 0xA to 0xF (30_encoding.md R124, 60_exceptions.md R352): accepted, an empty list,
CMD_ERR raised at the acceptance edge. -/

namespace Sys2Proof.Machine

open Sys2Proof Sys2Proof.Config

/-- A CMD write of a reserved opcode. -/
def reservedWrite (op : BitVec 4) (arg : BitVec 28) (s : State) : Out :=
  cmdWrite (fun t => raiseErr .cmdErr (acceptOp op arg t)) s

/-- RSVD_A (30_encoding.md R124). -/
def execRsvdA (arg : BitVec 28) (s : State) : Out := reservedWrite 0xA#4 arg s
/-- RSVD_B (30_encoding.md R124). -/
def execRsvdB (arg : BitVec 28) (s : State) : Out := reservedWrite 0xB#4 arg s
/-- RSVD_C (30_encoding.md R124). -/
def execRsvdC (arg : BitVec 28) (s : State) : Out := reservedWrite 0xC#4 arg s
/-- RSVD_D (30_encoding.md R124). -/
def execRsvdD (arg : BitVec 28) (s : State) : Out := reservedWrite 0xD#4 arg s
/-- RSVD_E (30_encoding.md R124). -/
def execRsvdE (arg : BitVec 28) (s : State) : Out := reservedWrite 0xE#4 arg s
/-- RSVD_F (30_encoding.md R124). -/
def execRsvdF (arg : BitVec 28) (s : State) : Out := reservedWrite 0xF#4 arg s

end Sys2Proof.Machine
end

