-- ==== Sys2Proof/Machine/HostRegs.lean ====
section
/-! DEFINITION. The host register accesses (44_host_registers.md), the reserved offsets (20_memory.md R92) and the bus
error (20_memory.md R91), each at the clk edge where the host presents it. -/

namespace Sys2Proof.Machine

open Sys2Proof Sys2Proof.Config

/-- A write that completes with zero wait states and is ignored (44_host_registers.md R326, R332). -/
def ignoredWrite (s : State) : Out := .next (respondWrite s)

/-- A legal access to a reserved offset: read data 0, no error, no effect (20_memory.md R92). -/
def reservedAccess (s : State) : Out := .next (respondRead 0#32 s)

/-- RD_ID (44_host_registers.md R321). -/
def execRdId (s : State) : Out := .next (respondRead idValue s)
/-- WR_ID (44_host_registers.md R332). -/
def execWrId (_v : Word) (s : State) : Out := ignoredWrite s

/-- RD_CTRL (44_host_registers.md R322). -/
def execRdCtrl (s : State) : Out := .next (respondRead (ctrlWord s) s)

/-- WR_CTRL (44_host_registers.md R322). -/
def execWrCtrl (v : Word) (s : State) : Out :=
  .next (respondWrite (s.withRegs
    { s.regs with
      ctrlRot := v.extractLsb' 0 2
      ctrlIeDone := v.getLsbD 4
      ctrlIeEvq := v.getLsbD 5 }))

/-- RD_STATUS (44_host_registers.md R327). -/
def execRdStatus (s : State) : Out := .next (respondRead (statusWord s) s)

/-- WR_STATUS (44_host_registers.md R328). -/
def execWrStatus (v : Word) (s : State) : Out := .next (respondWrite (clearStatus v s))

/-- RD_CMD (44_host_registers.md R325). -/
def execRdCmd (s : State) : Out := .next (respondRead 0#32 s)

/-- WR_CMD (44_host_registers.md R323): the word's op, by its opcode (30_encoding.md R121, R122). -/
def execWrCmd (w : Word) (s : State) : Out :=
  let op := w.extractLsb' 28 4
  let arg := w.extractLsb' 0 28
  if op = 0x0#4 then execNop arg s
  else if op = 0x1#4 then
    execSetpix (w.extractLsb' 0 12) (w.extractLsb' 12 12) (w.extractLsb' 24 1) (w.extractLsb' 25 3) s
  else if op = 0x2#4 then execGetpix (w.extractLsb' 0 12) (w.extractLsb' 12 12) (w.extractLsb' 24 4) s
  else if op = 0x3#4 then execClear arg s
  else if op = 0x4#4 then execFlush arg s
  else if op = 0x5#4 then execInit (w.extractLsb' 0 8) (w.extractLsb' 8 8) (w.extractLsb' 16 12) s
  else if op = 0x6#4 then execSetcontrast (w.extractLsb' 0 8) (w.extractLsb' 8 20) s
  else if op = 0x7#4 then execDispctl (w.extractLsb' 0 2) (w.extractLsb' 2 26) s
  else if op = 0x8#4 then execSettempco (w.extractLsb' 0 2) (w.extractLsb' 2 26) s
  else if op = 0x9#4 then execSleep (w.extractLsb' 0 24) (w.extractLsb' 24 1) (w.extractLsb' 25 3) s
  else if op = 0xA#4 then execRsvdA arg s
  else if op = 0xB#4 then execRsvdB arg s
  else if op = 0xC#4 then execRsvdC arg s
  else if op = 0xD#4 then execRsvdD arg s
  else if op = 0xE#4 then execRsvdE arg s
  else execRsvdF arg s

/-- RD_RESULT (44_host_registers.md R324, 10_state.md R45): held while `BUSY = 1` (in FATAL: log 9). -/
def execRdResult (s : State) : Out :=
  if busy s then .next (holdAccess s) else .next (respondRead (resultWord s) s)

/-- WR_RESULT (44_host_registers.md R326). -/
def execWrResult (_v : Word) (s : State) : Out := ignoredWrite s

/-- RD_EVQ_POP (44_host_registers.md R329, 42_event_fifo.md R257). -/
def execRdEvqPop (s : State) : Out := .next (popEvent s)
/-- WR_EVQ_POP (44_host_registers.md R332): ignored, no pop. -/
def execWrEvqPop (_v : Word) (s : State) : Out := ignoredWrite s

/-- RD_EVQ_STAT (44_host_registers.md R330). -/
def execRdEvqStat (s : State) : Out := .next (respondRead (evqStatWord s) s)
/-- WR_EVQ_STAT (44_host_registers.md R332). -/
def execWrEvqStat (_v : Word) (s : State) : Out := ignoredWrite s

/-- RD_PWR_STAT (44_host_registers.md R331). -/
def execRdPwrStat (s : State) : Out := .next (respondRead (pwrStatWord s) s)
/-- WR_PWR_STAT (44_host_registers.md R332). -/
def execWrPwrStat (_v : Word) (s : State) : Out := ignoredWrite s

/-- RD_RSVD, offsets 0x20 to 0x3C (20_memory.md R92). -/
def execRdRsvd20 (_n : BitVec 3) (s : State) : Out := reservedAccess s
/-- RD_RSVD, offsets 0x40 to 0x7C (20_memory.md R92). -/
def execRdRsvd40 (_n : BitVec 4) (s : State) : Out := reservedAccess s
/-- RD_RSVD, offsets 0x80 to 0xFC (20_memory.md R92). -/
def execRdRsvd80 (_n : BitVec 5) (s : State) : Out := reservedAccess s
/-- WR_RSVD, offsets 0x20 to 0x3C (20_memory.md R92). -/
def execWrRsvd20 (_n : BitVec 3) (_v : Word) (s : State) : Out := reservedAccess s
/-- WR_RSVD, offsets 0x40 to 0x7C (20_memory.md R92). -/
def execWrRsvd40 (_n : BitVec 4) (_v : Word) (s : State) : Out := reservedAccess s
/-- WR_RSVD, offsets 0x80 to 0xFC (20_memory.md R92). -/
def execWrRsvd80 (_n : BitVec 5) (_v : Word) (s : State) : Out := reservedAccess s

/-- BUS_ERR (20_memory.md R91, 60_exceptions.md R351): the error response, no side effect, never held. -/
def execBusErr (_write : BitVec 1) (_off : BitVec 8) (_size : BitVec 2) (s : State) : Out :=
  .next (raiseErr .busErr s)

end Sys2Proof.Machine
end

