-- ==== Sys2Proof/Machine/LcdBytes.lean ====
section
/-! DEFINITION. The LCD bytes the serializer emits (41_lcd_protocol.md R190 to R197, patterns of 30_encoding.md R129).
Each meaning is the start of the BYTE action that sends the byte (41_lcd_protocol.md R182); the clk edges that follow
shift it out, MSB first. The mode `h` says which form a pattern is; the action does not depend on it. -/

namespace Sys2Proof.Machine

open Sys2Proof Sys2Proof.Config

/-- FUNCSET, `0010 0PVH` in the command phase (41_lcd_protocol.md R190). -/
def execLcdFuncset (_h p v hx : BitVec 1) (s : State) : Out :=
  .next (startByte false (0b00100#5 ++ p ++ v ++ hx) s)

/-- The DISPCTL byte, `0000 1D0E` in the command phase (41_lcd_protocol.md R191). -/
def execLcdDispctl (d e : BitVec 1) (s : State) : Out :=
  .next (startByte false (0b00001#5 ++ d ++ 0#1 ++ e) s)

/-- SETY, `0100 0YYY` in the command phase (41_lcd_protocol.md R192). -/
def execLcdSety (y : BitVec 3) (s : State) : Out :=
  .next (startByte false (0b01000#5 ++ y) s)

/-- SETX, `1XXX XXXX` in the command phase, basic mode (41_lcd_protocol.md R193). -/
def execLcdSetx (x : BitVec 7) (s : State) : Out :=
  .next (startByte false (1#1 ++ x) s)

/-- TEMPCTL, `0000 01TT` in the command phase, extended mode (41_lcd_protocol.md R194). -/
def execLcdTempctl (tc : BitVec 2) (s : State) : Out :=
  .next (startByte false (0b000001#6 ++ tc) s)

/-- SETBIAS, `0001 0BBB` in the command phase, extended mode (41_lcd_protocol.md R195). -/
def execLcdSetbias (bias : BitVec 3) (s : State) : Out :=
  .next (startByte false (0b00010#5 ++ bias) s)

/-- SETVOP, `1VVV VVVV` in the command phase, extended mode (41_lcd_protocol.md R196). -/
def execLcdSetvop (vop : BitVec 7) (s : State) : Out :=
  .next (startByte false (1#1 ++ vop) s)

/-- DATA, a byte of pixels in the data phase (41_lcd_protocol.md R197). -/
def execLcdData (_h : BitVec 1) (d : Byte) (s : State) : Out :=
  .next (startByte true d s)

end Sys2Proof.Machine
end

