-- ==== Sys2Proof/Machine/Dispatch.lean ====
section
/-! DEFINITION. The meaning of every instruction: one arm a constructor, one direct call an arm. -/

namespace Sys2Proof.Machine

open Sys2Proof

def exec (i : Instr) (s : State) : Host.Outcome State Fault Refusal :=
  match i with
  | .nop rsv => Sys2Proof.Machine.execNop rsv s
  | .setpix x y c rsv => Sys2Proof.Machine.execSetpix x y c rsv s
  | .getpix x y rsv => Sys2Proof.Machine.execGetpix x y rsv s
  | .clear rsv => Sys2Proof.Machine.execClear rsv s
  | .flush rsv => Sys2Proof.Machine.execFlush rsv s
  | .init contrast bias rsv => Sys2Proof.Machine.execInit contrast bias rsv s
  | .setcontrast value rsv => Sys2Proof.Machine.execSetcontrast value rsv s
  | .dispctl mode rsv => Sys2Proof.Machine.execDispctl mode rsv s
  | .settempco tc rsv => Sys2Proof.Machine.execSettempco tc rsv s
  | .sleep dur deep rsv => Sys2Proof.Machine.execSleep dur deep rsv s
  | .rsvdA arg => Sys2Proof.Machine.execRsvdA arg s
  | .rsvdB arg => Sys2Proof.Machine.execRsvdB arg s
  | .rsvdC arg => Sys2Proof.Machine.execRsvdC arg s
  | .rsvdD arg => Sys2Proof.Machine.execRsvdD arg s
  | .rsvdE arg => Sys2Proof.Machine.execRsvdE arg s
  | .rsvdF arg => Sys2Proof.Machine.execRsvdF arg s
  | .lcdFuncset h p v hx => Sys2Proof.Machine.execLcdFuncset h p v hx s
  | .lcdDispctl d e => Sys2Proof.Machine.execLcdDispctl d e s
  | .lcdSety y => Sys2Proof.Machine.execLcdSety y s
  | .lcdSetx x => Sys2Proof.Machine.execLcdSetx x s
  | .lcdTempctl tc => Sys2Proof.Machine.execLcdTempctl tc s
  | .lcdSetbias bias => Sys2Proof.Machine.execLcdSetbias bias s
  | .lcdSetvop vop => Sys2Proof.Machine.execLcdSetvop vop s
  | .lcdData h d => Sys2Proof.Machine.execLcdData h d s
  | .rdId => Sys2Proof.Machine.execRdId s
  | .wrId v => Sys2Proof.Machine.execWrId v s
  | .rdCtrl => Sys2Proof.Machine.execRdCtrl s
  | .wrCtrl v => Sys2Proof.Machine.execWrCtrl v s
  | .rdStatus => Sys2Proof.Machine.execRdStatus s
  | .wrStatus v => Sys2Proof.Machine.execWrStatus v s
  | .rdCmd => Sys2Proof.Machine.execRdCmd s
  | .wrCmd w => Sys2Proof.Machine.execWrCmd w s
  | .rdResult => Sys2Proof.Machine.execRdResult s
  | .wrResult v => Sys2Proof.Machine.execWrResult v s
  | .rdEvqPop => Sys2Proof.Machine.execRdEvqPop s
  | .wrEvqPop v => Sys2Proof.Machine.execWrEvqPop v s
  | .rdEvqStat => Sys2Proof.Machine.execRdEvqStat s
  | .wrEvqStat v => Sys2Proof.Machine.execWrEvqStat v s
  | .rdPwrStat => Sys2Proof.Machine.execRdPwrStat s
  | .wrPwrStat v => Sys2Proof.Machine.execWrPwrStat v s
  | .rdRsvd20 n => Sys2Proof.Machine.execRdRsvd20 n s
  | .rdRsvd40 n => Sys2Proof.Machine.execRdRsvd40 n s
  | .rdRsvd80 n => Sys2Proof.Machine.execRdRsvd80 n s
  | .wrRsvd20 n v => Sys2Proof.Machine.execWrRsvd20 n v s
  | .wrRsvd40 n v => Sys2Proof.Machine.execWrRsvd40 n v s
  | .wrRsvd80 n v => Sys2Proof.Machine.execWrRsvd80 n v s
  | .busErr write off size => Sys2Proof.Machine.execBusErr write off size s
  | .putTimer => Sys2Proof.Machine.execPutTimer s
  | .putKeyleft => Sys2Proof.Machine.execPutKeyleft s
  | .putKeyup => Sys2Proof.Machine.execPutKeyup s
  | .putKeydown => Sys2Proof.Machine.execPutKeydown s
  | .putKeyright => Sys2Proof.Machine.execPutKeyright s
  | .putKeyenter => Sys2Proof.Machine.execPutKeyenter s
  | .putExt e => Sys2Proof.Machine.execPutExt e s
  | .extReject e => Sys2Proof.Machine.execExtReject e s

end Sys2Proof.Machine
end

