-- ==== Sys2Proof/Machine/Edge.lean ====
section
/-! DEFINITION. One step: the next tick, the instructions it carries, and what the rest of that clock edge does. The
meaning of an instruction comes in as `run` (Step.lean gives `exec`). Every stage of an edge reads values from before
the edge (00_scope.md R13, log 16). -/

namespace Sys2Proof.Machine

open Sys2Proof Sys2Proof.Config

/-- Go on with the next state, or stop as the outcome says. -/
def andThen (o : Out) (f : State → Out) : Out :=
  match o with
  | .next t => f t
  | .fault r => .fault r
  | .refused r => .refused r

/-! ## What comes next -/

/-- The next tick: the first of the list, or past its end the next free one (log 1). -/
def nextTick (s : State) : Tick × State :=
  match s.env.sched with
  | t :: ts => (t, s.withEnv { s.env with sched := ts })
  | [] => (env s.env.tickNo, s.withEnv { s.env with tickNo := s.env.tickNo + 1 })

/-- The host issues an access: it waits behind those already issued (log 11). -/
def issueAccess (r : Option HostReq) (s : State) : State :=
  s.withBus { s.bus with hostQ := s.bus.hostQ ++ r.toList }

/-! ## A clk edge -/

/-- The access presented at this edge, decoded. -/
def presented (s : State) : Option Instr := s.bus.hostQ.head?.map decodeReq

/-- After the access presented has been run: it leaves the queue if it completed, and is presented again if it is
held (20_memory.md R90). -/
def retire (s : State) : State :=
  if s.bus.hReady then s.withBus { s.bus with hostQ := s.bus.hostQ.tail } else s

/-- The bus stage: the presented access is run. -/
def busStage (run : Instr → State → Out) (s : State) : Out :=
  match presented s with
  | none => .next s
  | some i => andThen (run i s) fun t => .next (retire t)

/-- The 10-bit value `{dc, h, b}` of a byte the serializer starts (30_encoding.md R128), in 16 bits. -/
def lcdWord (dc h : Bool) (b : Byte) : BitVec 16 :=
  0#6 ++ BitVec.ofBool dc ++ BitVec.ofBool h ++ b

/-- A BYTE action starts: the LCD byte instruction it is, is run. A pattern of no form, which no op emits
(30_encoding.md R130), is sent as it is. -/
def sendByte (run : Instr → State → Out) (dc : Bool) (b : Byte) (s : State) : Out :=
  match decodeLcd (lcdWord dc s.engine.lcdH b) with
  | .ok i => run i s
  | .error _ => .next (startByte dc b s)

/-- The engine stage: one clk cycle of the op in progress before the edge. -/
def engineStage (run : Instr → State → Out) (s : State) : Out :=
  match outsideByte s s.engine.eidx, outsideByte s (s.engine.eidx + 1) with
  | some i, _ => .fault (.noFramebufferByte i)
  | none, some i => .fault (.noFramebufferByte i)
  | none, none =>
    match engineEdge s with
    | (t, none) => .next t
    | (t, some (dc, b)) => sendByte run dc b t

/-- The synchronisers into clk (10_state.md R51, R52; 20_memory.md R107). -/
def clkSync (c : ClkIn) (s : State) : State :=
  (s.withConsumer
      { s.consumer with
        wsync := s.consumer.wsync.clock 0#5 c.wPick
        ovfSync := s.consumer.ovfSync.clock false c.ovfPick
        mrgSync := s.consumer.mrgSync.clock false c.mrgPick
        rejSync := s.consumer.rejSync.clock false c.rejPick
        fatalSync := s.consumer.fatalSync.clock false c.fatalPick }).withSleep
    { s.sleep with ackChain := s.sleep.ackChain.clock false c.ackPick }

/-- The synchronisers into clk at a clk edge in reset: every stage keeps its reset value (70_reset_and_hazards.md R390),
and the edge counts as a destination edge of 20_memory.md R107: it ends the window (the model's reading, log 13 and
log 14). -/
def clkResetSync (s : State) : State :=
  (s.withConsumer
      { s.consumer with
        wsync := s.consumer.wsync.close 0#5
        ovfSync := s.consumer.ovfSync.close false
        mrgSync := s.consumer.mrgSync.close false
        rejSync := s.consumer.rejSync.close false
        fatalSync := s.consumer.fatalSync.close false }).withSleep
    { s.sleep with ackChain := s.sleep.ackChain.close false }

/-- A clk edge while the clk domain is in reset: every register keeps its value, and the domain leaves reset when
`rst_n` is high and the tick says so (70_reset_and_hazards.md R390, log 13). -/
def clkResetEdge (c : ClkIn) (s : State) : State :=
  (clkResetSync s).withRst { s.rst with clkInRst := !(s.rst.rstN && c.leaveReset) }

/-- A clk edge: the access presented, the op that was in progress before the edge, and the synchronisers. -/
def clkEdge (run : Instr → State → Out) (c : ClkIn) (s : State) : Out :=
  if s.rst.clkInRst then .next (issueAccess c.req (clkResetEdge c s))
  else
    andThen (busStage run (issueAccess c.req s)) fun t =>
    andThen (if s.engine.estate = .run then engineStage run t else .next t) fun u =>
    .next (clkSync c u)

/-! ## An aon_clk edge -/

/-- The put stage: the put of the selected source, if a latch was pending (42_event_fifo.md R247, R249). -/
def putStage (run : Instr → State → Out) (s : State) : Out :=
  match select s with
  | none => .next s
  | some q => run (q.instr s) s

/-- The reject stage: an external event with a code that is not storable (42_event_fifo.md R246). -/
def rejectStage (run : Instr → State → Out) (a : AonIn) (s : State) : Out :=
  if extRejected a then run (.extReject a.extCode) s else .next s

/-- The synchronisers into aon_clk and the key history (10_state.md R53, R54; 42_event_fifo.md R242). -/
def aonSync (a : AonIn) (s : State) : State :=
  (s.withProducer
      { s.producer with
        rsync := s.producer.rsync.clock 0#5 a.rPick
        kprev := kout s
        ksync := chainClock a.keys s.producer.ksync }).withPower
    { s.power with
      reqChain := s.power.reqChain.clock false a.reqPick
      irqChain := chainClock a.irqAny s.power.irqChain }

/-- What an aon_clk edge does besides the put and the reject: the capture, the power FSM and the synchronisers;
`pre` is the state before the edge. -/
def aonRest (a : AonIn) (pre s : State) : State :=
  aonSync a (powerEdge a (wakeSources a pre) (capture a pre s))

/-- The crossings into aon_clk at an aon_clk edge in reset: the stages keep their reset values and the window ends, as
in `clkResetSync` (log 13, log 14). -/
def aonResetSync (s : State) : State :=
  (s.withProducer { s.producer with rsync := s.producer.rsync.close 0#5 }).withPower
    { s.power with reqChain := s.power.reqChain.close false }

/-- An aon_clk edge while the aon domain is in reset: every register keeps its value, and the domain leaves reset when
`rst_n` is high and the tick says so (70_reset_and_hazards.md R390, log 13). -/
def aonResetEdge (a : AonIn) (s : State) : State :=
  (aonResetSync s).withRst { s.rst with aonInRst := !(s.rst.rstN && a.leaveReset) }

/-- An aon_clk edge: the put of `sel`, the reject, and the rest of the edge. -/
def aonEdge (run : Instr → State → Out) (a : AonIn) (s : State) : Out :=
  if s.rst.aonInRst then .next (aonResetEdge a s)
  else
    andThen (putStage run s) fun t =>
    andThen (rejectStage run a t) fun u =>
    .next (aonRest a s u)

/-! ## Reset (70_reset_and_hazards.md R390 to R394) -/

/-- `rst_n` falls: every register takes its reset value, whatever the clocks do; the RAM contents are unspecified
again; the accesses the host had issued are abandoned (log 13). -/
def applyReset (s : State) : State :=
  State.resetWith s.params { rstN := false, clkInRst := true, aonInRst := true }
    { s.env with epoch := s.env.epoch + 1 }

/-- `rst_n` rises; each domain leaves reset at an edge of its own. -/
def releaseReset (s : State) : State := s.withRst { s.rst with rstN := true }

/-- One step, `run` being the meaning of the instructions. -/
def tickStep (run : Instr → State → Out) (t : Tick) (s : State) : Out :=
  match t with
  | .clk c => clkEdge run c s
  | .aon a => aonEdge run a s
  | .resetAssert => .next (applyReset s)
  | .resetRelease => .next (releaseReset s)

/-- One step from a state: its next tick is taken. -/
def stepWith (run : Instr → State → Out) (s : State) : Out :=
  tickStep run (nextTick s).1 (nextTick s).2

/-! ## Placing an instruction where the next step runs it -/

/-- The next tick will be `t`, with `rst_n` high and both domains out of reset. -/
def placeTick (t : Tick) (s : State) : State :=
  (s.withEnv { s.env with sched := t :: s.env.sched }).withRst { rstN := true, clkInRst := false, aonInRst := false }

/-- The next step is a quiet clk edge at which the host presents the access `r`. -/
def placeAccess (r : HostReq) (s : State) : State :=
  placeTick (.clk quietClk) (s.withBus { s.bus with hostQ := r :: s.bus.hostQ })

/-- The next step is an aon_clk edge with inputs `a` and exactly the latches `pend` and `ext` pending. -/
def placePending (pend : BitVec 6) (ext : Bool) (code : Byte) (a : AonIn) (s : State) : State :=
  placeTick (.aon a)
    (s.withProducer
      { s.producer with pend := pend, pendExt := ext, pendExtCode := code, extEvReady := !ext })

/-- The next step is a quiet clk edge, with no access presented, at which the engine, running the op `(op, args)`,
completes the action before position `n` of its list and starts the BYTE action there. -/
def placeByte (op : BitVec 4) (args : BitVec 28) (n : Nat) (h : Bool) (s : State) : State :=
  let inByte := decide (2 ≤ n) && op != 0x5#4 || decide (6 ≤ n)
  placeTick (.clk quietClk)
    (((s.withBus { s.bus with hostQ := [] }).withEngine
        { s.engine with
          estate := .run, eop := op, eargs := args, eidx := n - 1, ecnt := 1
          ebit := if inByte then 1 else 0
          eshift := 0#8, esetup := false, lcdH := h }).withPins
      { s.pins with lcdSceN := false, lcdSclk := inByte })

/-- The state whose next step runs `i`. An LCD byte is placed in an op that emits it; a byte that no op emits
(41_lcd_protocol.md R190, R192, R193) has no such state, and `s` is unchanged (log 19). -/
def placeInstr (i : Instr) (s : State) : State :=
  match i with
  | .nop _ | .setpix _ _ _ _ | .getpix _ _ _ | .clear _ | .flush _ | .init _ _ _ | .setcontrast _ _
  | .dispctl _ _ | .settempco _ _ | .sleep _ _ _ | .rsvdA _ | .rsvdB _ | .rsvdC _ | .rsvdD _ | .rsvdE _
  | .rsvdF _ => placeAccess (writeReq 0x0C#8 (cmdWordOf i)) s
  | .lcdFuncset h p v hx =>
    if p = 0#1 ∧ v = 0#1 then placeByte 0x6#4 0#28 (if hx = 1#1 then 1 else 3) (h = 1#1) s else s
  | .lcdDispctl d e => placeByte 0x7#4 (0#26 ++ d ++ e) 1 false s
  | .lcdSety y => if y = 0#3 then placeByte 0x4#4 0#28 1 false s else s
  | .lcdSetx x => if x = 0#7 then placeByte 0x4#4 0#28 2 false s else s
  | .lcdTempctl tc => placeByte 0x8#4 (0#26 ++ tc) 2 true s
  | .lcdSetbias b => placeByte 0x5#4 (0#12 ++ (0#5 ++ b) ++ 0#8) 6 true s
  | .lcdSetvop v => placeByte 0x6#4 (0#20 ++ (0#1 ++ v)) 2 true s
  | .lcdData h d => placeByte 0x4#4 0#28 3 (h = 1#1) (fbWrite 0 d s)
  | .rdId | .wrId _ | .rdCtrl | .wrCtrl _ | .rdStatus | .wrStatus _ | .rdCmd | .wrCmd _ | .rdResult
  | .wrResult _ | .rdEvqPop | .wrEvqPop _ | .rdEvqStat | .wrEvqStat _ | .rdPwrStat | .wrPwrStat _
  | .rdRsvd20 _ | .rdRsvd40 _ | .rdRsvd80 _ | .wrRsvd20 _ _ | .wrRsvd40 _ _ | .wrRsvd80 _ _
  | .busErr _ _ _ => placeAccess (reqOfImage (BitVec.ofNat 48 (encodeNat i))) s
  | .putTimer => placePending 0b000001#6 false 0#8 quietAon s
  | .putKeyleft => placePending 0b000010#6 false 0#8 quietAon s
  | .putKeyup => placePending 0b000100#6 false 0#8 quietAon s
  | .putKeydown => placePending 0b001000#6 false 0#8 quietAon s
  | .putKeyright => placePending 0b010000#6 false 0#8 quietAon s
  | .putKeyenter => placePending 0b100000#6 false 0#8 quietAon s
  | .putExt e => placePending 0#6 true e quietAon s
  | .extReject e => placePending 0#6 false 0#8 { quietAon with extValid := true, extCode := e } s

end Sys2Proof.Machine
end

