-- ==== Sys2Proof/Machine/Step.lean ====
section
/-! DEFINITION. The step of the machine, with `exec` as the meaning of the instructions, and where the host places
an instruction to be run first. -/

namespace Sys2Proof.Machine

open Sys2Proof

/-- One step: the next tick is taken, and the instructions it carries are run by `exec`. -/
def step (s : State) : Host.Outcome State Fault Refusal := stepWith exec s

/-- `s` with the table word's instruction placed so that the next step runs it (log 2); a word that decodes to nothing
places nothing. -/
def State.withFetchWord (s : State) (nbits w : Nat) : State :=
  match decodeTableWord nbits w with
  | some i => placeInstr i s
  | none => s

end Sys2Proof.Machine
end

