-- ==== Sys2Proof/WellFormed.lean ====
section
/-! DEFINITION. Which instructions are well formed: the operand ranges that the field widths do not already say
(`storable` and `illegalAccess` stand in Decode.lean, where the decoder uses them too). -/

namespace Sys2Proof

/-- Well-formedness: a bank of SETY is 0 to 5 and a column of SETX 0 to 83 (30_encoding.md R129), a bus error is an
illegal access (R91), a stored external event has a storable code and a rejected one has not (R127). -/
def Instr.wf : Instr → Bool
  | .nop _ => true
  | .setpix _ _ _ _ => true
  | .getpix _ _ _ => true
  | .clear _ => true
  | .flush _ => true
  | .init _ _ _ => true
  | .setcontrast _ _ => true
  | .dispctl _ _ => true
  | .settempco _ _ => true
  | .sleep _ _ _ => true
  | .rsvdA _ => true
  | .rsvdB _ => true
  | .rsvdC _ => true
  | .rsvdD _ => true
  | .rsvdE _ => true
  | .rsvdF _ => true
  | .lcdFuncset _ _ _ _ => true
  | .lcdDispctl _ _ => true
  | .lcdSety y => y.toNat ≤ 5
  | .lcdSetx x => x.toNat ≤ 83
  | .lcdTempctl _ => true
  | .lcdSetbias _ => true
  | .lcdSetvop _ => true
  | .lcdData _ _ => true
  | .rdId => true
  | .wrId _ => true
  | .rdCtrl => true
  | .wrCtrl _ => true
  | .rdStatus => true
  | .wrStatus _ => true
  | .rdCmd => true
  | .wrCmd _ => true
  | .rdResult => true
  | .wrResult _ => true
  | .rdEvqPop => true
  | .wrEvqPop _ => true
  | .rdEvqStat => true
  | .wrEvqStat _ => true
  | .rdPwrStat => true
  | .wrPwrStat _ => true
  | .rdRsvd20 _ => true
  | .rdRsvd40 _ => true
  | .rdRsvd80 _ => true
  | .wrRsvd20 _ _ => true
  | .wrRsvd40 _ _ => true
  | .wrRsvd80 _ _ => true
  | .busErr _ off size => illegalAccess off size
  | .putTimer => true
  | .putKeyleft => true
  | .putKeyup => true
  | .putKeydown => true
  | .putKeyright => true
  | .putKeyenter => true
  | .putExt e => storable e
  | .extReject e => !storable e

end Sys2Proof
end

