-- ==== Sys2Proof/Safety.lean ====
section
/-! DEFINITION. The terms claims use: runs of the LCD engine and what the device sees on its pins, the abstract list
of events the FIFO holds, and the invariants of the block. Nothing here is part of the machine. -/

namespace Sys2Proof.Safety

open Sys2Proof Sys2Proof.Config Sys2Proof.Machine

/-! ## Runs of the LCD engine -/

/-- `n` clk edges of the LCD engine, which does nothing when it is IDLE. -/
def engineRun : Nat → State → Out
  | 0, s => .next s
  | n + 1, s =>
    if s.engine.estate = .run then andThen (engineStage exec s) (engineRun n) else .next s

/-- From `s`, the op in progress takes exactly `n` clk edges and leaves `t`: the engine is in RUN before each of them
and IDLE after the last. -/
def RunsToIdle (n : Nat) (s t : State) : Prop :=
  engineRun n s = .next t ∧ t.engine.estate = .idle ∧
    ∀ m < n, ∃ u, engineRun m s = .next u ∧ u.engine.estate = .run

/-- What the device samples in `n` clk edges of the engine: `(lcd_dc, lcd_sdin)` at each rising edge of `lcd_sclk` with
`lcd_sce_n` low (10_state.md R33). -/
def sampledBits : Nat → State → List (Bool × Bool)
  | 0, _ => []
  | n + 1, s =>
    if s.engine.estate = .run then
      match engineStage exec s with
      | .next t =>
        (if !s.pins.lcdSclk && t.pins.lcdSclk && !t.pins.lcdSceN then [(t.pins.lcdDc, t.pins.lcdSdin)] else []) ++
          sampledBits n t
      | _ => []
    else []

/-- The bits of one byte in phase `dc`, most significant first (20_memory.md R95). -/
def byteBits (dc : Bool) (b : Byte) : List (Bool × Bool) :=
  [7, 6, 5, 4, 3, 2, 1, 0].map fun k => (dc, b.getLsbD k)

/-- The bits of a list of bytes with their phases. -/
def streamBits (bs : List (Bool × Byte)) : List (Bool × Bool) := bs.flatMap fun p => byteBits p.1 p.2

/-- Command bytes. -/
def commands (bs : List Byte) : List (Bool × Byte) := bs.map fun b => (false, b)

/-- The extra cycles of a D/C setup: `T` when the mode flag must change to `m`, else 0 (70_reset_and_hazards.md R420). -/
def setupCycles (s : State) (m : LcdMode) : Nat := if s.engine.mode = m then 0 else halfT s

/-! ## When a CMD write is accepted, and what an op leaves alone -/

/-- A CMD write presented now is accepted: the engine is IDLE, no sleep handshake is outstanding, and FATAL has not
been seen (44_host_registers.md R323). -/
def Ready (s : State) : Prop :=
  s.engine.estate = .idle ∧ s.sleep.pwrReqTgl = pwrAckSync s ∧ fatalSyncOut s = false ∧ s.sleep.slpHeld = false

/-- The device lines between ops: `lcd_sclk` is low and `lcd_dc` agrees with the mode flag (41_lcd_protocol.md R182,
R183). -/
def LinesIdle (s : State) : Prop :=
  s.pins.lcdSclk = false ∧ s.pins.lcdDc = decide (s.engine.mode = .datap)

/-- From the ports `b` to the ports `b'`, an access has completed without error; its read data are not said. -/
def Completed (b b' : HostBus) : Prop := b'.hReady = true ∧ b'.hErr = false ∧ b'.hostQ = b.hostQ

/-- From the ports `b` to the ports `b'`, an access is held. -/
def Held (b b' : HostBus) : Prop := b'.hReady = false ∧ b'.hErr = false ∧ b'.hostQ = b.hostQ

/-- What no op of the LCD engine touches: everything but the engine, its pins, the framebuffer, the register fields
and the response ports. -/
def OthersUnchanged (s t : State) : Prop :=
  t.params = s.params ∧ t.consumer = s.consumer ∧ t.sleep = s.sleep ∧ t.power = s.power ∧
    t.producer = s.producer ∧ t.fifo = s.fifo ∧ t.rst = s.rst ∧ t.env = s.env ∧ t.bus.hostQ = s.bus.hostQ

/-- Every framebuffer byte reads as before. -/
def SameFramebuffer (s t : State) : Prop := ∀ i, fbRead t i = fbRead s i

/-- Every FIFO slot reads as before. -/
def SameFifoRam (s t : State) : Prop := ∀ i, fifoRead t i = fifoRead s i

/-! ## The FIFO -/

/-- How many events the FIFO really holds: `(wptr − rptr) mod 32` (42_event_fifo.md R251). -/
def occupancy (s : State) : Nat := (s.producer.wptr - s.consumer.rptr).toNat

/-- The gray pointers from the oldest copy to the newest: the producer's copies of `rptr_gray`, oldest first, then the
consumer's copies of `wptr_gray`, oldest first. -/
def pointerTrail (s : State) : List Ptr :=
  s.producer.rsync.chain.reverse ++ s.producer.rsync.held ++
    (s.consumer.wsync.chain.reverse ++ s.consumer.wsync.held)

/-- How far a gray pointer is ahead of the producer's oldest copy of the read pointer. -/
def ahead (s : State) (g : Ptr) : Nat := (gray2bin g - gray2bin (rsyncOut s)).toNat

/-- The pointers are in order and span at most 16 slots: every copy of the read pointer is behind every newer copy,
every copy of the write pointer behind every newer one, and all copies of the write pointer ahead of all copies of
the read pointer (20_memory.md R105 to R107). -/
def FifoOrdered (s : State) : Prop :=
  s.producer.rsync.chain ≠ [] ∧ s.consumer.wsync.chain ≠ [] ∧
    ((pointerTrail s).map (ahead s)).Pairwise (· ≤ ·) ∧
    ahead s s.producer.wptrGray ≤ 16

/-- The words that `n` EVQ_POP reads return. -/
def popWords : Nat → State → List Word
  | 0, _ => []
  | n + 1, s =>
    match exec .rdEvqPop s with
    | .next t => t.bus.hRdata :: popWords n t
    | _ => []

/-- The puts of a list of external event words, one after the other. -/
def putAll : List Byte → State → Out
  | [], s => .next s
  | v :: vs, s => andThen (exec (.putExt v) s) (putAll vs)

/-! ## Sleep -/

/-- The next tick of `s` is an edge of aon_clk. -/
def aonNext (s : State) : Bool :=
  match (nextTick s).1 with
  | .aon _ => true
  | .clk _ | .resetAssert | .resetRelease => false

/-- The timer requests issued in a run of at most `n` steps from `s` (1 = ARM, 0 = DISARM), up to the step after which the
FSM is IDLE again, and the state there. A request is issued at an edge of aon_clk that leaves `wkt_req` 1; the other
steps issue none (43_power.md R285, R295). -/
def sleepRequests : Nat → State → List Bool × State
  | 0, s => ([], s)
  | n + 1, s =>
    match step s with
    | .next t =>
      let issued := if aonNext s && t.power.wktReq then [t.power.wktOp] else []
      if t.power.pstate = .idle then (issued, t)
      else (issued ++ (sleepRequests n t).1, (sleepRequests n t).2)
    | _ => ([], s)

/-! ## Invariants -/

/-- A crossing has `n` stages, and the newest value of its window is the one its source holds now. -/
def CrossOk {α : Type} (n : Nat) (src : α) (x : Cross α) : Prop :=
  x.chain.length = n ∧ x.held.getLast? = some src

/-- From `x` to `y` a crossing has taken one edge of its destination clock: the stages have shifted, stage 0 is one of the
values of the window, and the next window opens with the newest of them (20_memory.md R107). -/
def Clocked {α : Type} (x y : Cross α) : Prop :=
  ∀ l, x.held.getLast? = some l → y.held = [l] ∧ ∃ v ∈ x.held, y.chain = (v :: x.chain).dropLast

/-- Every synchroniser has `P_SYNC_STAGES` stages, at least 2 (00_scope.md R8), and carries its own source
(20_memory.md R107). -/
def CrossingsOk (s : State) : Prop :=
  2 ≤ s.params.syncStages ∧
    CrossOk s.params.syncStages s.producer.wptrGray s.consumer.wsync ∧
    CrossOk s.params.syncStages s.producer.ovf s.consumer.ovfSync ∧
    CrossOk s.params.syncStages s.producer.mrg s.consumer.mrgSync ∧
    CrossOk s.params.syncStages s.producer.rej s.consumer.rejSync ∧
    CrossOk s.params.syncStages s.power.fatal s.consumer.fatalSync ∧
    CrossOk s.params.syncStages s.power.pwrAckTgl s.sleep.ackChain ∧
    CrossOk s.params.syncStages s.consumer.rptrGray s.producer.rsync ∧
    CrossOk s.params.syncStages s.sleep.pwrReqTgl s.power.reqChain ∧
    s.power.irqChain.length = s.params.syncStages ∧
    s.producer.ksync.length = s.params.syncStages

/-- The gray pointers are the gray codes of the binary ones (42_event_fifo.md R252). -/
def GrayOk (s : State) : Prop :=
  s.producer.wptrGray = bin2gray s.producer.wptr ∧ s.consumer.rptrGray = bin2gray s.consumer.rptr

/-- Both RAMs are in canonical form (20_memory.md R96, R98). -/
def MemoryOk (s : State) : Prop := s.fb.wf fbBytes ∧ s.fifo.wf fifoDepth

/-- The power outputs are those of the state (43_power.md R281), and `ext_ev_ready = ¬pend_ext` (42_event_fifo.md
R241). -/
def OutputsOk (s : State) : Prop :=
  s.power.enter s.power.pstate = s.power ∧ s.producer.extEvReady = !s.producer.pendExt

/-- The level of `lcd_sce_n` after a list of actions that starts with it high. -/
def sceAfter (as : List Action) : Bool :=
  as.foldl (fun l a => match a with | .sce l' => l' | _ => l) true

/-- The instruction-set mode after a list of actions that starts in basic mode (30_encoding.md R130). -/
def modeAfter (as : List Action) : Bool :=
  as.foldl (fun h a =>
    match a with
    | .byte false b => if b.extractLsb' 3 5 = 0b00100#5 then b.getLsbD 0 else h
    | _ => h) false

/-- The serializer between and within ops: `lcd_dc` agrees with the mode flag; when the engine is IDLE, bus-select and
`lcd_sclk` are idle and the device is in basic mode; in RUN they are as the actions performed so far leave them, and
`lcd_sclk` is high only inside a byte, past its D/C setup; a byte in progress has bits still to send, all eight during the
setup, and is in the shifter after it (41_lcd_protocol.md R181, R182, R198, R199; 10_state.md R49). -/
def SerializerOk (s : State) : Prop :=
  s.pins.lcdDc = decide (s.engine.mode = .datap) ∧ s.engine.ebit ≤ 8 ∧
    match s.engine.estate with
    | .idle => s.pins.lcdSceN = true ∧ s.pins.lcdSclk = false ∧ s.engine.lcdH = false
    | .run =>
      s.engine.eidx < (opActions s).length ∧
        s.pins.lcdSceN = sceAfter ((opActions s).take (s.engine.eidx + 1)) ∧
        s.engine.lcdH = modeAfter ((opActions s).take s.engine.eidx) ∧
        match (opActions s)[s.engine.eidx]? with
        | some (.byte dc b) =>
          s.engine.ebyte = b ∧ s.engine.mode = wantMode dc ∧ 1 ≤ s.engine.ebit ∧
            (s.engine.esetup = false → s.engine.eshift = b) ∧
            (s.engine.esetup = true → s.engine.ebit = 8 ∧ s.pins.lcdSclk = false)
        | some (.byteFb _) =>
          s.engine.mode = .datap ∧ 1 ≤ s.engine.ebit ∧
            (s.engine.esetup = true → s.engine.ebit = 8 ∧ s.pins.lcdSclk = false)
        | _ => s.pins.lcdSclk = false

end Sys2Proof.Safety
end

