-- ==== Sys2Proof/Certificates/Slice0/Obligations.lean ====
section
/-! DEFINITION. The statements for the provers. Each docstring names the rules of spec/ it formalises and the
instructions it covers. -/

open Sys2Proof Sys2Proof.Config Sys2Proof.Machine Sys2Proof.Safety

/-! ## Decoding and stepping -/

/-- Decode and encode agree on every well-formed instruction, with every operand at every value (30_encoding.md). -/
def Obligations.DecodeInvertsEncode : Prop :=
  ∀ i : Instr, i.wf = true → decode i.kind (encode i) = .ok i

/-- Every 32-bit word is a CMD instruction (30_encoding.md R121, R123, R135), and encoding what it decodes to gives the
word back. That the reserved bits, which R123 says are ignored, stay in the decoded instruction, so that no bit is lost,
is the model's reading of the latch `eargs` (40_pixel_ops.md R150; log 22, DEDUCED). -/
def Obligations.CmdDecodingLosesNoBit : Prop :=
  ∀ w : Word, (decodeCmd w).kind = .cmd ∧ (decodeCmd w).wf = true ∧ cmdWordOf (decodeCmd w) = w

/-- A few words decode to what they stand for: CMD words and LCD bytes written out from the spec's encodings
(95_test_vectors.md 2.1, 30_encoding.md R129), and accesses and events in the model's byte images (log 17, DESIGN CHOICE:
the write data in bytes 2 to 5, the size stored exclusive or 2, the source byte of an event), around the spec's offsets
and event codes (44_host_registers.md, 30_encoding.md R126). -/
def Obligations.SpecWordsDecode : Prop :=
  decode .cmd [0x01#8, 0x10#8, 0x00#8, 0x11#8] = .ok (.setpix 1#12 1#12 1#1 0#3) ∧
    decode .cmd [0x3F#8, 0x04#8, 0x00#8, 0x50#8] = .ok (.init 63#8 4#8 0#12) ∧
    decode .cmd [0xE8#8, 0x03#8, 0x00#8, 0x91#8] = .ok (.sleep 1000#24 1#1 0#3) ∧
    decode .lcd [0x06#8, 0x01#8] = .ok (.lcdTempctl 2#2) ∧
    decode .lcd [0xBF#8, 0x01#8] = .ok (.lcdSetvop 63#7) ∧
    decode .access [0x14#8, 0x00#8, 0#8, 0#8, 0#8, 0#8] = .ok .rdEvqPop ∧
    decode .access [0x04#8, 0x01#8, 0x33#8, 0#8, 0#8, 0#8] = .ok (.wrCtrl 0x33#32) ∧
    decode .event [0x04#8, 0x00#8] = .ok .putKeyup ∧
    decode .event [0x04#8, 0x01#8] = .ok (.putExt 4#8) ∧
    decode .event [0x08#8, 0x00#8] = .ok (.extReject 8#8)

/-- A step runs the decoded instruction, host side: on a clk tick out of reset, with the access `r` first in the queue,
the step is `exec` of what `r` decodes to, after which the access leaves the queue if it completed and stays if it is
held; then, where an op was in progress before the edge, one clk cycle of the engine, which always goes on; and then the
synchronisers into clk take one edge. With no access presented the step is the rest of the edge alone. The access that the
tick brings in waits behind those already issued (log 11; the order of the stages is log 16). -/
def Obligations.StepRunsThePresentedAccess : Prop :=
  ∀ (s s' : State) (c : ClkIn) (ts : List Tick),
    s.env.sched = .clk c :: ts → s.rst.clkInRst = false →
    s' = { s with
      env := { s.env with sched := ts }
      bus := { s.bus with hostQ := s.bus.hostQ ++ c.req.toList } } →
    (∀ (r : HostReq) (q : List HostReq) (t u : State), s'.bus.hostQ = r :: q → exec (decodeReq r) s' = .next t →
      u = (if t.bus.hReady then { t with bus := { t.bus with hostQ := t.bus.hostQ.tail } } else t) →
      (s.engine.estate = .idle → step s = .next (clkSync c u)) ∧
      (s.engine.estate = .run → ∃ v, engineStage exec u = .next v ∧ step s = .next (clkSync c v))) ∧
    (s'.bus.hostQ = [] →
      (s.engine.estate = .idle → step s = .next (clkSync c s')) ∧
      (s.engine.estate = .run → ∃ v, engineStage exec s' = .next v ∧ step s = .next (clkSync c v)))

/-- A step runs the decoded instruction, producer side: on an aon tick out of reset, the step is `exec` of the selected
source's put, if a latch is pending, then `exec` of the reject, if the external port presents a code that is not storable
(0, or 8 to 0x7F), and then the capture, the power FSM and the synchronisers into aon_clk; with neither it is the rest of
the edge alone (42_event_fifo.md R246, R247, R249; 60_exceptions.md R359). Which source is selected is in
CaptureDrainAndMerge. -/
def Obligations.StepRunsTheSelectedPut : Prop :=
  ∀ (s s' : State) (a : AonIn) (ts : List Tick),
    s.env.sched = .aon a :: ts → s.rst.aonInRst = false →
    s' = { s with env := { s.env with sched := ts } } →
    (extRejected a = true ↔
      a.extValid = true ∧ (a.extCode.toNat = 0 ∨ (8 ≤ a.extCode.toNat ∧ a.extCode.toNat < 0x80))) ∧
    (∀ q t, extRejected a = false → select s' = some q →
      exec (q.instr s') s' = .next t → step s = .next (aonRest a s' t)) ∧
    (∀ q t u, extRejected a = true → select s' = some q →
      exec (q.instr s') s' = .next t → exec (.extReject a.extCode) t = .next u → step s = .next (aonRest a s' u)) ∧
    (∀ u, extRejected a = true → select s' = none →
      exec (.extReject a.extCode) s' = .next u → step s = .next (aonRest a s' u)) ∧
    (extRejected a = false → select s' = none → step s = .next (aonRest a s' s'))

/-- A step runs the decoded instruction, serializer side: where a clk edge starts a BYTE action, and the pattern under the
present mode is the LCD byte instruction `i`, the engine stage is `exec i`, after the access presented at that edge, if
there is one (30_encoding.md R128, 41_lcd_protocol.md R182; the order of the stages is log 16). -/
def Obligations.StepRunsTheLcdByte : Prop :=
  ∀ (s s' w t u : State) (c : ClkIn) (ts : List Tick) (dc : Bool) (b : Byte) (i : Instr),
    s.env.sched = .clk c :: ts → s.rst.clkInRst = false → s.engine.estate = .run →
    s' = { s with
      env := { s.env with sched := ts }
      bus := { s.bus with hostQ := s.bus.hostQ ++ c.req.toList } } →
    ((s'.bus.hostQ = [] ∧ w = s') ∨
      ∃ r q z, s'.bus.hostQ = r :: q ∧ exec (decodeReq r) s' = .next z ∧
        w = (if z.bus.hReady then { z with bus := { z.bus with hostQ := z.bus.hostQ.tail } } else z)) →
    engineEdge w = (t, some (dc, b)) →
    decodeLcd (0#6 ++ BitVec.ofBool dc ++ BitVec.ofBool t.engine.lcdH ++ b) = .ok i →
    exec i t = .next u → step s = .next (clkSync c u)

/-- The block never refuses and never faults: every step, from every state, answers a next state (00_scope.md R10,
60_exceptions.md R350). -/
def Obligations.EveryStepGoesOn : Prop :=
  ∀ s : State, ∃ t, step s = .next t

/-! ## Host accesses -/

/-- An access of a wrong size or alignment is a bus error in every state, never held, with no side effect; every other
access is none (20_memory.md R91). Covers BUS_ERR. -/
def Obligations.IllegalAccessIsABusError : Prop :=
  ∀ (r : HostReq) (s : State),
    ((r.size ≠ 2#2 ∨ r.off.toNat % 4 ≠ 0) →
      exec (decodeReq r) s =
        .next { s with bus := { s.bus with hReady := true, hErr := true, hRdata := 0#32 } }) ∧
    ((∃ w o z, decodeReq r = .busErr w o z) ↔ (r.size ≠ 2#2 ∨ r.off.toNat % 4 ≠ 0)) ∧
    ∀ w o z, exec (.busErr w o z) s =
      .next { s with bus := { s.bus with hReady := true, hErr := true, hRdata := 0#32 } }

/-- The offset selects the register, and a legal access to a reserved offset completes at once with read data 0 and no
effect (20_memory.md R92, 10_state.md R39). Covers RD_RSVD and WR_RSVD (six rows). -/
def Obligations.OffsetsSelectRegisters : Prop :=
  (∀ v : Word,
    ((List.range 8).map fun k => decodeReq (readReq (BitVec.ofNat 8 (4 * k)))) =
        [.rdId, .rdCtrl, .rdStatus, .rdCmd, .rdResult, .rdEvqPop, .rdEvqStat, .rdPwrStat] ∧
      ((List.range 8).map fun k => decodeReq (writeReq (BitVec.ofNat 8 (4 * k)) v)) =
        [.wrId v, .wrCtrl v, .wrStatus v, .wrCmd v, .wrResult v, .wrEvqPop v, .wrEvqStat v, .wrPwrStat v]) ∧
  (∀ (r : HostReq) (s : State), r.size = 2#2 → r.off.toNat % 4 = 0 → 0x20 ≤ r.off.toNat →
    exec (decodeReq r) s =
      .next { s with bus := { s.bus with hReady := true, hErr := false, hRdata := 0#32 } }) ∧
  ∀ (n3 : BitVec 3) (n4 : BitVec 4) (n5 : BitVec 5) (v : Word) (s : State),
    ∀ i ∈ [Instr.rdRsvd20 n3, .rdRsvd40 n4, .rdRsvd80 n5, .wrRsvd20 n3 v, .wrRsvd40 n4 v, .wrRsvd80 n5 v],
      exec i s = .next { s with bus := { s.bus with hReady := true, hErr := false, hRdata := 0#32 } }

/-- Writes to ID, RESULT, EVQ_POP, EVQ_STAT and PWR_STAT complete with zero wait states, without error, and change
nothing but the response ports (44_host_registers.md R326, R332). Covers WR_ID, WR_RESULT, WR_EVQ_POP, WR_EVQ_STAT,
WR_PWR_STAT. -/
def Obligations.ReadOnlyWritesAreIgnored : Prop :=
  ∀ (v : Word) (s : State),
    ∀ p ∈ [(0x00#8, Instr.wrId v), (0x10#8, .wrResult v), (0x14#8, .wrEvqPop v), (0x18#8, .wrEvqStat v),
        (0x1C#8, .wrPwrStat v)],
      decodeReq (writeReq p.1 v) = p.2 ∧ ∃ b, exec p.2 s = .next { s with bus := b } ∧ Completed s.bus b

/-- A read of ID answers the constant and a read of CMD answers 0, each at once in every state, with no effect
(44_host_registers.md R321, R325). Covers RD_ID and RD_CMD. -/
def Obligations.IdAndCmdReadConstants : Prop :=
  ∀ s : State,
    decodeReq (readReq 0x00#8) = .rdId ∧ decodeReq (readReq 0x0C#8) = .rdCmd ∧
      exec .rdId s =
        .next { s with bus := { s.bus with hReady := true, hErr := false, hRdata := 0x56474C01#32 } } ∧
      exec .rdCmd s = .next { s with bus := { s.bus with hReady := true, hErr := false, hRdata := 0#32 } }

/-- A CTRL read answers the three fields at their places and zeros elsewhere and changes nothing; a CTRL write sets the
three fields and nothing else, whatever the engine does, so that the op in progress keeps its rotation, and `irq` follows
the new enables; a read after a write returns the word under the mask 0x33; and the next op accepted uses the new ROT
(44_host_registers.md R322). Covers RD_CTRL and WR_CTRL. -/
def Obligations.CtrlReadsAndWrites : Prop :=
  ∀ (v : Word) (s : State), decodeReq (readReq 0x04#8) = .rdCtrl ∧ decodeReq (writeReq 0x04#8 v) = .wrCtrl v ∧
    (∃ w : Word,
      exec .rdCtrl s = .next { s with bus := { s.bus with hReady := true, hErr := false, hRdata := w } } ∧
      w.extractLsb' 0 2 = s.regs.ctrlRot ∧ w.getLsbD 4 = s.regs.ctrlIeDone ∧ w.getLsbD 5 = s.regs.ctrlIeEvq ∧
      ∀ k, k = 2 ∨ k = 3 ∨ 6 ≤ k → w.getLsbD k = false) ∧
    ∃ t u,
      exec (.wrCtrl v) s = .next t ∧ Completed s.bus t.bus ∧
      t = { s with
        regs := { s.regs with
          ctrlRot := v.extractLsb' 0 2, ctrlIeDone := v.getLsbD 4, ctrlIeEvq := v.getLsbD 5 }
        bus := t.bus } ∧
      irq t = ((s.regs.done && v.getLsbD 4) || (evNe s && v.getLsbD 5)) ∧
      exec .rdCtrl t = .next u ∧ u.bus.hRdata = v &&& 0x33#32 ∧
      (Ready s → ∀ w : Word, ∃ x, exec (.wrCmd w) t = .next x ∧ x.engine.erot = v.extractLsb' 0 2)

/-- A STATUS read never holds, changes nothing, and answers each field at its bit (44_host_registers.md R327,
10_state.md R42, R44). Covers RD_STATUS.
That bit 0 follows the formula of R44 in FATAL too, beside a corner case of R324, is the model's reading of D10 (log 9,
DEDUCED). -/
def Obligations.StatusReadBits : Prop :=
  ∀ s : State, decodeReq (readReq 0x08#8) = .rdStatus ∧ ∃ w : Word,
    exec .rdStatus s = .next { s with bus := { s.bus with hReady := true, hErr := false, hRdata := w } } ∧
    (w.getLsbD 0 = true ↔ s.engine.estate ≠ .idle ∨ s.sleep.pwrReqTgl ≠ pwrAckSync s) ∧
    (w.extractLsb' 1 2 = 0#2 ↔ s.engine.mode = .uninit) ∧
    (w.extractLsb' 1 2 = 1#2 ↔ s.engine.mode = .cmdp) ∧
    (w.extractLsb' 1 2 = 2#2 ↔ s.engine.mode = .datap) ∧
    w.getLsbD 3 = s.regs.initDone ∧ w.getLsbD 4 = s.regs.done ∧ w.getLsbD 5 = s.regs.cmdErr ∧
    (w.getLsbD 6 = true ↔ s.consumer.rptrGray ≠ wsyncOut s) ∧
    w.getLsbD 7 = fatalSyncOut s ∧
    ∀ k, 8 ≤ k → w.getLsbD k = false

/-- A STATUS write clears exactly the written-one bits among DONE and CMD_ERR; and set wins: when the op in progress
completes at the edge of a STATUS write, DONE is 1 after the edge (44_host_registers.md R328, 10_state.md R42). Covers
WR_STATUS. -/
def Obligations.StatusWriteOneToClear : Prop :=
  ∀ (v : Word) (s : State),
    (∃ b, exec (.wrStatus v) s =
        .next { s with
          regs := { s.regs with
            done := s.regs.done && !v.getLsbD 4, cmdErr := s.regs.cmdErr && !v.getLsbD 5 }
          bus := b } ∧
      Completed s.bus b) ∧
    ∀ (t : State) (c : ClkIn) (ts : List Tick) (q : List HostReq),
      s.env.sched = .clk c :: ts → s.rst.clkInRst = false →
      s.bus.hostQ = writeReq 0x08#8 v :: q → s.engine.estate = .run →
      step s = .next t → t.engine.estate = .idle → t.regs.done = true

/-- BUSY is the formula of 10_state.md R44. A RESULT read holds while BUSY, and otherwise answers the pixel in bit 0
(10_state.md R45, 44_host_registers.md R324, 92_eei_decisions.md D10). In FATAL, once clk has seen it in every stage, a
BUSY that is 0 with no acknowledge on its way stays 0 at every step but a reset, so that the read completes. Covers
RD_RESULT.
That this is what R324 says of FATAL, and that a handshake still outstanding there keeps BUSY 1 and the read held, is the
model's reading of D10 (log 9, DEDUCED). -/
def Obligations.ResultReadHoldsWhileBusy : Prop :=
  ∀ s : State,
    (busy s = true ↔ s.engine.estate = .run ∨ s.sleep.pwrReqTgl ≠ pwrAckSync s) ∧
    (s.engine.estate = .idle ∧ s.sleep.pwrReqTgl = pwrAckSync s →
      exec .rdResult s =
        .next { s with
          bus := { s.bus with
            hReady := true, hErr := false, hRdata := if s.regs.resultPix then 1#32 else 0#32 } }) ∧
    (s.engine.estate = .run ∨ s.sleep.pwrReqTgl ≠ pwrAckSync s → ∃ b,
      exec .rdResult s = .next { s with bus := b } ∧ Held s.bus b) ∧
    ∀ t, s.power.pstate = .fatal → s.consumer.fatalSync.held ≠ [] → s.consumer.fatalSync.chain ≠ [] →
      (∀ b ∈ s.consumer.fatalSync.held ++ s.consumer.fatalSync.chain, b = true) → s.sleep.ackChain.held ≠ [] →
      (∀ b ∈ s.sleep.ackChain.held ++ s.sleep.ackChain.chain, b = s.sleep.pwrReqTgl) → busy s = false →
      step s = .next t → t.env.epoch = s.env.epoch → busy t = false

/-- An EVQ_STAT read answers COUNT and the three synchronised flags at their bits, zeros elsewhere, and pops nothing; a
PWR_STAT read answers the FSM's registers at their bits and zeros elsewhere (44_host_registers.md R330, R331;
10_state.md R48; 43_power.md R281). Covers RD_EVQ_STAT and RD_PWR_STAT. -/
def Obligations.EvqStatAndPwrStatReadBits : Prop :=
  ∀ s : State, decodeReq (readReq 0x18#8) = .rdEvqStat ∧ decodeReq (readReq 0x1C#8) = .rdPwrStat ∧
    (∃ w : Word,
      exec .rdEvqStat s = .next { s with bus := { s.bus with hReady := true, hErr := false, hRdata := w } } ∧
      w.extractLsb' 0 5 = gray2bin (wsyncOut s) - s.consumer.rptr ∧
      w.getLsbD 8 = s.consumer.ovfSync.out false ∧ w.getLsbD 9 = s.consumer.mrgSync.out false ∧
      w.getLsbD 10 = s.consumer.rejSync.out false ∧
      ∀ k, (5 ≤ k ∧ k < 8) ∨ 11 ≤ k → w.getLsbD k = false) ∧
    ∃ w : Word,
      exec .rdPwrStat s = .next { s with bus := { s.bus with hReady := true, hErr := false, hRdata := w } } ∧
      (w.extractLsb' 0 3).toNat =
        (match s.power.pstate with
          | .idle => 0 | .disarm1 => 1 | .arm => 2 | .sleep => 3 | .disarm2 => 4 | .restore => 5 | .fatal => 7) ∧
      w.getLsbD 3 = s.power.armFail ∧ w.getLsbD 4 = s.power.dis1Fail ∧ w.getLsbD 5 = s.power.pDeep ∧
      w.extractLsb' 8 5 = s.power.wakeCause ∧
      ∀ k, k = 6 ∨ k = 7 ∨ 13 ≤ k → w.getLsbD k = false

/-! ## CMD words -/

/-- A CMD write runs the op its word decodes to, and acceptance latches the word: in a ready state every CMD write
answers a next state with the opcode, the operand bits and the rotation latched and the action index 0; the engine runs
exactly when the op's list is not empty; the write completes at this edge unless it is SLEEP; DONE is set exactly for an
empty list, SLEEP apart, CMD_ERR for a reserved opcode, INIT_DONE cleared by INIT; both RAMs, the consumer and the
producer are unchanged, and the sleep handshake and the power FSM unless it is SLEEP (40_pixel_ops.md R150,
44_host_registers.md R323, 41_lcd_protocol.md R185). Covers WR_CMD. -/
def Obligations.AcceptanceLatchesTheWord : Prop :=
  ∀ (w : Word) (s : State), exec (.wrCmd w) s = exec (decodeCmd w) s ∧
    (Ready s → ∃ t,
      exec (.wrCmd w) s = .next t ∧
      t.engine.eop = w.extractLsb' 28 4 ∧ t.engine.eargs = w.extractLsb' 0 28 ∧
      t.engine.erot = s.regs.ctrlRot ∧ t.engine.eidx = 0 ∧ t.engine.mode = s.engine.mode ∧
      (t.engine.estate = .run ↔
        actions s.params (w.extractLsb' 28 4) (w.extractLsb' 0 28) s.regs.ctrlRot ≠ []) ∧
      (if w.extractLsb' 28 4 = 0x9#4 then Held s.bus t.bus else Completed s.bus t.bus) ∧
      t.regs = { s.regs with
        done := s.regs.done || (decide (t.engine.estate = .idle) && decide (w.extractLsb' 28 4 ≠ 0x9#4))
        cmdErr := s.regs.cmdErr || decide (0xA#4 ≤ w.extractLsb' 28 4)
        initDone := s.regs.initDone && decide (w.extractLsb' 28 4 ≠ 0x5#4) } ∧
      SameFramebuffer s t ∧ SameFifoRam s t ∧
      (w.extractLsb' 28 4 ≠ 0x9#4 → t.sleep = s.sleep ∧ t.power = s.power) ∧
      t.params = s.params ∧ t.consumer = s.consumer ∧ t.producer = s.producer ∧ t.rst = s.rst ∧ t.env = s.env)

/-- A CMD write that is not accepted is held, with no other effect: while the engine runs, a sleep handshake is
outstanding, or FATAL has been seen (20_memory.md R93, 44_host_registers.md R323). Says where the sixteen CMD
instructions wait. -/
def Obligations.CmdWritesHold : Prop :=
  ∀ (i : Instr) (s : State), i.kind = .cmd → s.sleep.slpHeld = false →
    (s.engine.estate = .run ∨ s.sleep.pwrReqTgl ≠ pwrAckSync s ∨ fatalSyncOut s = true) → ∃ b,
    exec i s = .next { s with bus := b } ∧ Held s.bus b

/-- NOP completes at its acceptance and only sets DONE (40_pixel_ops.md R152). Covers NOP. -/
def Obligations.NopOnlySetsDone : Prop :=
  ∀ (r : BitVec 28) (s : State), Ready s → ∃ b,
    exec (.nop r) s =
      .next { s with
        engine := { s.engine with eop := 0x0#4, eargs := r, erot := s.regs.ctrlRot, eidx := 0 }
        regs := { s.regs with done := true }
        bus := b } ∧
    Completed s.bus b

/-- A reserved opcode sets CMD_ERR and DONE at its acceptance and has no other effect (30_encoding.md R124,
60_exceptions.md R352). Covers RSVD_A to RSVD_F. -/
def Obligations.ReservedOpcodesSetCmdErr : Prop :=
  ∀ (arg : BitVec 28) (s : State), Ready s →
    ∀ p ∈ [(Instr.rsvdA arg, 0xA#4), (.rsvdB arg, 0xB#4), (.rsvdC arg, 0xC#4), (.rsvdD arg, 0xD#4),
        (.rsvdE arg, 0xE#4), (.rsvdF arg, 0xF#4)], ∃ b,
      exec p.1 s =
        .next { s with
          engine := { s.engine with eop := p.2, eargs := arg, erot := s.regs.ctrlRot, eidx := 0 }
          regs := { s.regs with done := true, cmdErr := true }
          bus := b } ∧
      Completed s.bus b

/-- SETPIX. In range: accepted, and one clk edge later the addressed bit is the colour; every other bit of the
framebuffer, the pins, the mode flag and every other agent are unchanged; DONE is set. Out of range: a silent no-op that
completes at acceptance and sets DONE (40_pixel_ops.md R153, R155). Covers SETPIX. -/
def Obligations.SetpixWritesOneBit : Prop :=
  ∀ (s : State) (x y : BitVec 12) (c : BitVec 1) (r : BitVec 3), Ready s →
    (∀ i k : Nat, pixelAt s.regs.ctrlRot x y = some (i, k) → ∃ t u,
      exec (.setpix x y c r) s = .next t ∧ Completed s.bus t.bus ∧ SameFramebuffer s t ∧
      RunsToIdle 1 t u ∧
      (fbRead u i).getLsbD k = decide (c = 1#1) ∧
      (∀ j, j ≠ k → (fbRead u i).getLsbD j = (fbRead s i).getLsbD j) ∧
      (∀ a, a ≠ i → fbRead u a = fbRead s a) ∧
      u.regs = { s.regs with done := true } ∧ u.pins = s.pins ∧ u.engine.mode = s.engine.mode ∧
      OthersUnchanged s u) ∧
    (pixelAt s.regs.ctrlRot x y = none → ∃ b,
      exec (.setpix x y c r) s =
        .next { s with
          engine := { s.engine with
            eop := 0x1#4, eargs := r ++ c ++ y ++ x, erot := s.regs.ctrlRot, eidx := 0 }
          regs := { s.regs with done := true }
          bus := b } ∧
      Completed s.bus b)

/-- GETPIX: accepted, and one clk edge later RESULT.PIX is the addressed bit, or 0 out of range; no framebuffer byte,
pin or other agent changes; DONE is set (40_pixel_ops.md R153, R156). Covers GETPIX. -/
def Obligations.GetpixReadsOneBit : Prop :=
  ∀ (s : State) (x y : BitVec 12) (r : BitVec 4), Ready s → ∃ t u,
    exec (.getpix x y r) s = .next t ∧ Completed s.bus t.bus ∧
    RunsToIdle 1 t u ∧
    u.regs = { s.regs with
      done := true
      resultPix :=
        match pixelAt s.regs.ctrlRot x y with
        | some (i, k) => (fbRead s i).getLsbD k
        | none => false } ∧
    SameFramebuffer s u ∧ u.pins = s.pins ∧ u.engine.mode = s.engine.mode ∧ OthersUnchanged s u

/-- Round trip: a SETPIX and then a GETPIX of the same logical coordinate put the colour in RESULT.PIX when it is in
range, and 0 when it is not (40_pixel_ops.md R158). -/
def Obligations.SetpixThenGetpix : Prop :=
  ∀ (s t u v w : State) (x y : BitVec 12) (c : BitVec 1) (r : BitVec 3) (r' : BitVec 4) (m n : Nat), Ready s →
    exec (.setpix x y c r) s = .next t → RunsToIdle m t u →
    exec (.getpix x y r') u = .next v → RunsToIdle n v w →
    w.regs.resultPix = ((pixelAt s.regs.ctrlRot x y).isSome && decide (c = 1#1))

/-- CLEAR: accepted, and 504 clk edges later every framebuffer byte is 0; the pins, the mode flag, RESULT and every other
agent are unchanged; DONE is set (40_pixel_ops.md R157, 70_reset_and_hazards.md R420). Covers CLEAR. -/
def Obligations.ClearZeroesTheFramebuffer : Prop :=
  ∀ (s : State) (r : BitVec 28), Ready s → ∃ t u,
    exec (.clear r) s = .next t ∧ Completed s.bus t.bus ∧
    RunsToIdle 504 t u ∧
    (∀ i, i < 504 → fbRead u i = 0#8) ∧ (∀ i, 504 ≤ i → fbRead u i = fbRead s i) ∧
    u.regs = { s.regs with done := true } ∧ u.pins = s.pins ∧ u.engine.mode = s.engine.mode ∧
    OthersUnchanged s u

/-- FLUSH: accepted, and over `8099·T + s` clk edges (`s` the D/C setup of the first byte) the device samples the two
address bytes and then the 504 framebuffer bytes in index order, MSB first, with bus-select low; the framebuffer and
every other agent are unchanged; the mode flag is left in the data phase and DONE is set (41_lcd_protocol.md R184, R181,
R182; 20_memory.md R95, R97; 70_reset_and_hazards.md R420). Covers FLUSH.
The edge each assignment falls on is the model's reading (log 6). -/
def Obligations.FlushSendsTheFramebuffer : Prop :=
  ∀ (s : State) (r : BitVec 28), Ready s → LinesIdle s → ∃ t u,
    exec (.flush r) s = .next t ∧ Completed s.bus t.bus ∧
    RunsToIdle (8099 * halfT s + setupCycles s .cmdp) t u ∧
    sampledBits (8099 * halfT s + setupCycles s .cmdp) t =
      streamBits (commands [0x40#8, 0x80#8] ++ (List.range 504).map fun i => (true, fbRead s i)) ∧
    SameFramebuffer s u ∧ u.engine.mode = .datap ∧
    u.pins = { s.pins with
      lcdSceN := true, lcdDc := true, lcdSclk := false, lcdSdin := (fbRead s 503).getLsbD 0 } ∧
    u.regs = { s.regs with done := true } ∧ OthersUnchanged s u

/-- INIT: INIT_DONE is 0 and the device reset line low from acceptance; the line stays low for `P_T_RST_LOW` edges more,
at least `P_T_RST_LOW` clk cycles, and is high at every later edge; no bit is sampled before it has been high for
`P_T_RST_HIGH` cycles and bus-select has been low for `T`; after `2 + P_T_RST_LOW + P_T_RST_HIGH + 82·T + s` clk edges the
device has sampled 0x21, the clamped bias, the clamped contrast, 0x20 and 0x0C; INIT_DONE and DONE are set; the
framebuffer and every other agent are unchanged (41_lcd_protocol.md R185, R186; 70_reset_and_hazards.md R420). Covers INIT.
That the reset line falls at the acceptance edge, so that the pulse is one cycle longer than its wait, is the model's
reading (log 6). -/
def Obligations.InitProgramsTheDevice : Prop :=
  ∀ (s : State) (contrast bias : BitVec 8) (r : BitVec 12), Ready s → LinesIdle s → ∃ t u,
    exec (.init contrast bias r) s = .next t ∧ Completed s.bus t.bus ∧
    t.regs = { s.regs with initDone := false } ∧ t.pins = { s.pins with lcdRstN := false } ∧
    RunsToIdle (2 + s.params.tRstLow + s.params.tRstHigh + 82 * halfT s + setupCycles s .cmdp) t u ∧
    (∀ m, m ≤ 2 + s.params.tRstLow + s.params.tRstHigh + 82 * halfT s + setupCycles s .cmdp → ∃ v,
      engineRun m t = .next v ∧ v.pins.lcdRstN = decide (s.params.tRstLow < m)) ∧
    sampledBits (2 + s.params.tRstLow + s.params.tRstHigh + halfT s) t = [] ∧
    sampledBits (2 + s.params.tRstLow + s.params.tRstHigh + 82 * halfT s + setupCycles s .cmdp) t =
      streamBits (commands
        [0x21#8, BitVec.ofNat 8 (0x10 + min bias.toNat 7), BitVec.ofNat 8 (0x80 + min contrast.toNat 127),
         0x20#8, 0x0C#8]) ∧
    SameFramebuffer s u ∧ u.engine.mode = .cmdp ∧
    u.pins = { lcdRstN := true, lcdSceN := true, lcdDc := false, lcdSclk := false, lcdSdin := false } ∧
    u.regs = { s.regs with done := true, initDone := true } ∧ OthersUnchanged s u

/-- SETCONTRAST: over `50·T + s` clk edges the device samples 0x21, the clamped contrast and 0x20; no reset pulse,
INIT_DONE unchanged (41_lcd_protocol.md R187, R186; 70_reset_and_hazards.md R420). Covers SETCONTRAST. -/
def Obligations.SetcontrastProgramsVop : Prop :=
  ∀ (s : State) (value : BitVec 8) (r : BitVec 20), Ready s → LinesIdle s → ∃ t u,
    exec (.setcontrast value r) s = .next t ∧ Completed s.bus t.bus ∧
    RunsToIdle (50 * halfT s + setupCycles s .cmdp) t u ∧
    sampledBits (50 * halfT s + setupCycles s .cmdp) t =
      streamBits (commands [0x21#8, BitVec.ofNat 8 (0x80 + min value.toNat 127), 0x20#8]) ∧
    SameFramebuffer s u ∧ u.engine.mode = .cmdp ∧
    u.pins = { s.pins with lcdSceN := true, lcdDc := false, lcdSclk := false, lcdSdin := false } ∧
    u.regs = { s.regs with done := true } ∧ OthersUnchanged s u

/-- DISPCTL: over `18·T + s` clk edges the device samples the one byte of the mode: 0x08, 0x09, 0x0C or 0x0D
(41_lcd_protocol.md R188; 70_reset_and_hazards.md R420). Covers DISPCTL. -/
def Obligations.DispctlSendsItsByte : Prop :=
  ∀ (s : State) (mode : BitVec 2) (r : BitVec 26), Ready s → LinesIdle s → ∃ t u,
    exec (.dispctl mode r) s = .next t ∧ Completed s.bus t.bus ∧
    RunsToIdle (18 * halfT s + setupCycles s .cmdp) t u ∧
    sampledBits (18 * halfT s + setupCycles s .cmdp) t =
      streamBits (commands [[0x08#8, 0x09#8, 0x0C#8, 0x0D#8].getD mode.toNat 0#8]) ∧
    SameFramebuffer s u ∧ u.engine.mode = .cmdp ∧
    u.pins = { s.pins with lcdSceN := true, lcdDc := false, lcdSclk := false, lcdSdin := mode.getLsbD 0 } ∧
    u.regs = { s.regs with done := true } ∧ OthersUnchanged s u

/-- SETTEMPCO: over `50·T + s` clk edges the device samples 0x21, `0x04 | TC` and 0x20 (41_lcd_protocol.md R189;
70_reset_and_hazards.md R420). Covers SETTEMPCO. -/
def Obligations.SettempcoProgramsTc : Prop :=
  ∀ (s : State) (tc : BitVec 2) (r : BitVec 26), Ready s → LinesIdle s → ∃ t u,
    exec (.settempco tc r) s = .next t ∧ Completed s.bus t.bus ∧
    RunsToIdle (50 * halfT s + setupCycles s .cmdp) t u ∧
    sampledBits (50 * halfT s + setupCycles s .cmdp) t =
      streamBits (commands [0x21#8, BitVec.ofNat 8 (4 + tc.toNat), 0x20#8]) ∧
    SameFramebuffer s u ∧ u.engine.mode = .cmdp ∧
    u.pins = { s.pins with lcdSceN := true, lcdDc := false, lcdSclk := false, lcdSdin := false } ∧
    u.regs = { s.regs with done := true } ∧ OthersUnchanged s u

/-- SLEEP. In a ready state it is accepted: the operands are latched, the request toggles into its synchroniser, BUSY is
1, the write keeps holding and DONE is not set. Once accepted, it completes, setting DONE, at the first edge where the
acknowledge equals the request, and is held until then (43_power.md R282, R283). Covers SLEEP.
The bit slpHeld that tells the accepted write is the model's (log 12). -/
def Obligations.SleepWaitsForItsAcknowledge : Prop :=
  ∀ (s : State) (dur : BitVec 24) (deep : BitVec 1) (r : BitVec 3),
    (Ready s → ∃ t,
      exec (.sleep dur deep r) s = .next t ∧ busy t = true ∧ Held s.bus t.bus ∧
      t = { s with
        engine := { s.engine with
          eop := 0x9#4, eargs := r ++ deep ++ dur, erot := s.regs.ctrlRot, eidx := 0 }
        sleep := { s.sleep with
          slpDur := dur, slpDeep := decide (deep = 1#1), pwrReqTgl := !s.sleep.pwrReqTgl, slpHeld := true }
        power := { s.power with
          reqChain := { s.power.reqChain with held := s.power.reqChain.held ++ [!s.sleep.pwrReqTgl] } }
        bus := t.bus }) ∧
    (s.sleep.slpHeld = true → pwrAckSync s = s.sleep.pwrReqTgl → ∃ b,
      exec (.sleep dur deep r) s =
        .next { s with
          regs := { s.regs with done := true }
          sleep := { s.sleep with slpHeld := false }
          bus := b } ∧
      Completed s.bus b) ∧
    (s.sleep.slpHeld = true → pwrAckSync s ≠ s.sleep.pwrReqTgl → ∃ b,
      exec (.sleep dur deep r) s = .next { s with bus := b } ∧ Held s.bus b)

/-! ## Pixels and bytes -/

/-- The in-range logical extents of each rotation, and the inverse maps (40_pixel_ops.md R151, R159). -/
def Obligations.RotationExtentsAndInverses : Prop :=
  ∀ (x y px py : Int),
    (∀ r : BitVec 2, (r = 0#2 ∨ r = 2#2) →
      (inRange (rotate r x y).1 (rotate r x y).2 = true ↔ 0 ≤ x ∧ x < 84 ∧ 0 ≤ y ∧ y < 48)) ∧
    (∀ r : BitVec 2, (r = 1#2 ∨ r = 3#2) →
      (inRange (rotate r x y).1 (rotate r x y).2 = true ↔ 0 ≤ x ∧ x < 48 ∧ 0 ≤ y ∧ y < 84)) ∧
    (rotate 1#2 x y = (px, py) ↔ x = py ∧ y = 84 - 1 - px) ∧
    (rotate 2#2 x y = (px, py) ↔ x = 84 - 1 - px ∧ y = 48 - 1 - py) ∧
    (rotate 3#2 x y = (px, py) ↔ x = 48 - 1 - py ∧ y = px)

/-- Pixel addressing: the logical coordinate is the two's-complement value of its field; it addresses byte
`(py div 8)·84 + px` and bit `py mod 8` of the physical pixel `(px, py)` it is rotated to, when that lies in the 84 by 48
panel, and nothing otherwise. Under each rotation distinct in-range coordinates address distinct bits, and every
addressed bit exists (40_pixel_ops.md R151, R153, R158; 20_memory.md R96; 00_scope.md R11). -/
def Obligations.PixelAddressesAreDistinct : Prop :=
  (∀ (r : BitVec 2) (x y : BitVec 12) (lx ly : Int) (i k : Nat),
    lx = (if x.toNat < 2048 then (x.toNat : Int) else (x.toNat : Int) - 4096) →
    ly = (if y.toNat < 2048 then (y.toNat : Int) else (y.toNat : Int) - 4096) →
    (pixelAt r x y = some (i, k) ↔ ∃ px py : Nat, px < 84 ∧ py < 48 ∧
      ((r = 0#2 ∧ (px : Int) = lx ∧ (py : Int) = ly) ∨ (r = 1#2 ∧ (px : Int) = 84 - 1 - ly ∧ (py : Int) = lx) ∨
        (r = 2#2 ∧ (px : Int) = 84 - 1 - lx ∧ (py : Int) = 48 - 1 - ly) ∨
        (r = 3#2 ∧ (px : Int) = ly ∧ (py : Int) = 48 - 1 - lx)) ∧
      i = py / 8 * 84 + px ∧ k = py % 8)) ∧
  ∀ (r : BitVec 2) (x y x' y' : BitVec 12) (i k : Nat),
    pixelAt r x y = some (i, k) →
    i < 504 ∧ k < 8 ∧ (pixelAt r x' y' = some (i, k) → x' = x ∧ y' = y)

/-- Executing an LCD byte starts its BYTE action. When the mode flag already has the byte's phase, the byte is in the
shifter and its first bit, the most significant, is on `lcd_sdin`; else the flag and `lcd_dc` change and the setup wait of
`T` cycles begins, the shifter as it was, and at the end of that wait (the engine edge of any op whose action at `eidx` is
a BYTE of this phase) the byte enters the shifter and its first bit goes out. Every other part of the state is unchanged
(41_lcd_protocol.md R182, R190 to R197). Covers LCD_FUNCSET, LCD_DISPCTL, LCD_SETY, LCD_SETX, LCD_TEMPCTL, LCD_SETBIAS,
LCD_SETVOP, LCD_DATA.
The model's choices in it: the field `ebyte` that keeps the byte during the setup (log 7, DEDUCED), the edges where `ebit`
changes and the field `esetup` that marks the setup (log 28), and a meaning for the forms no op emits, FUNCSET with P or V set, SETY 1 to 7 and SETX above 0 (log 19). -/
def Obligations.LcdBytesStart : Prop :=
  ∀ (s : State) (h p v hx d e : BitVec 1) (y bias : BitVec 3) (x vop : BitVec 7) (tc : BitVec 2) (data : Byte),
    ∀ q ∈ [(Instr.lcdFuncset h p v hx, false, 0x20 + 4 * p.toNat + 2 * v.toNat + hx.toNat),
        (.lcdDispctl d e, false, 0x08 + 4 * d.toNat + e.toNat),
        (.lcdSety y, false, 0x40 + y.toNat), (.lcdSetx x, false, 0x80 + x.toNat),
        (.lcdTempctl tc, false, 0x04 + tc.toNat), (.lcdSetbias bias, false, 0x10 + bias.toNat),
        (.lcdSetvop vop, false, 0x80 + vop.toNat), (.lcdData h data, true, data.toNat)],
      (s.engine.mode = (if q.2.1 then .datap else .cmdp) →
        exec q.1 s =
          .next { s with
            engine := { s.engine with
              ebyte := BitVec.ofNat 8 q.2.2, eshift := BitVec.ofNat 8 q.2.2, ebit := 8, esetup := false
              ecnt := halfT s }
            pins := { s.pins with lcdSdin := (BitVec.ofNat 8 q.2.2).getLsbD 7 } }) ∧
      (s.engine.mode ≠ (if q.2.1 then .datap else .cmdp) → ∃ t,
        exec q.1 s = .next t ∧
        t = { s with
          engine := { s.engine with
            ebyte := BitVec.ofNat 8 q.2.2, mode := if q.2.1 then .datap else .cmdp
            ebit := 8, esetup := true, ecnt := halfT s }
          pins := { s.pins with lcdDc := q.2.1 } } ∧
        (((∃ b', (opActions s)[s.engine.eidx]? = some (.byte q.2.1 b')) ∨
            (q.2.1 = true ∧ ∃ i, (opActions s)[s.engine.eidx]? = some (.byteFb i))) → ∃ u v,
          engineRun (halfT s - 1) { t with engine := { t.engine with estate := .run } } = .next u ∧
          u.engine.eshift = s.engine.eshift ∧ u.pins = t.pins ∧
          engineStage exec u = .next v ∧
          v.engine = { t.engine with
            estate := .run, eshift := BitVec.ofNat 8 q.2.2, esetup := false, ecnt := halfT s } ∧
          v.pins = { t.pins with lcdSdin := (BitVec.ofNat 8 q.2.2).getLsbD 7 }))

/-- A byte in progress is shifted out MSB first: from the state in which the BYTE action at `eidx` of the op's list has
just been started, with `lcd_sclk` low and bus-select low, `16·T` edges of the engine, and `T` more when the D/C setup
comes first, show the device the eight bits in order, all with the byte's phase on `lcd_dc`, and the action index has
gone up (41_lcd_protocol.md R182, 20_memory.md R95, 10_state.md R38). -/
def Obligations.ByteShiftsOutMsbFirst : Prop :=
  ∀ (s t : State) (dc : Bool) (b b' : Byte),
    s.engine.estate = .run → (opActions s)[s.engine.eidx]? = some (.byte dc b') →
    s.pins.lcdSclk = false → s.pins.lcdSceN = false → s.pins.lcdDc = decide (s.engine.mode = .datap) →
    t = startByte dc b s → ∃ u,
    engineRun (16 * halfT s + setupCycles s (wantMode dc)) t = .next u ∧
    sampledBits (16 * halfT s + setupCycles s (wantMode dc)) t = byteBits dc b ∧
    s.engine.eidx + 1 ≤ u.engine.eidx ∧ u.pins.lcdSclk = false

/-- Every byte an op emits is one of the listed forms, under the mode the function-set bytes before it in the op have
left: FUNCSET 0x20 or 0x21, DISPCTL, SETY 0, SETX 0, TEMPCTL, SETBIAS, SETVOP; and an op leaves the device in basic mode
and bus-select high (30_encoding.md R130, 41_lcd_protocol.md R181, R198).
That an op starts in basic mode is presumed of the device's reset (log 8). -/
def Obligations.EmittedBytesAreListed : Prop :=
  ∀ (p : Params) (op : BitVec 4) (args : BitVec 28) (r : BitVec 2) (n : Nat) (dc : Bool) (b : Byte),
    ((actions p op args r)[n]? = some (.byte dc b) →
      dc = false ∧ ∃ i, decodeLcd (0#7 ++ BitVec.ofBool (modeAfter ((actions p op args r).take n)) ++ b) = .ok i ∧
        (i = .lcdFuncset 0#1 0#1 0#1 1#1 ∨ i = .lcdFuncset 1#1 0#1 0#1 0#1 ∨ (∃ d e, i = .lcdDispctl d e) ∨
          i = .lcdSety 0#3 ∨ i = .lcdSetx 0#7 ∨ (∃ tc, i = .lcdTempctl tc) ∨ (∃ c, i = .lcdSetbias c) ∨
          ∃ v, i = .lcdSetvop v)) ∧
    modeAfter (actions p op args r) = false ∧ sceAfter (actions p op args r) = true

/-! ## The event FIFO -/

/-- A put with room stores the word in the slot of the write pointer, advances both forms of the pointer by one into the
synchroniser, and clears the source's latch, with `ext_ev_ready` 1 again for the external source; every other slot,
latch, flag and agent is unchanged (42_event_fifo.md R240, R241, R248, R249, R252). Covers PUT_TIMER, PUT_KEYLEFT,
PUT_KEYUP, PUT_KEYDOWN, PUT_KEYRIGHT, PUT_KEYENTER, PUT_EXT. -/
def Obligations.PutStoresTheEvent : Prop :=
  ∀ (s : State) (e : Byte), fullP s = false →
    ∀ q ∈ [(Instr.putTimer, some 0, 0x02#8), (.putKeyleft, some 1, 0x03#8), (.putKeyup, some 2, 0x04#8),
        (.putKeydown, some 3, 0x05#8), (.putKeyright, some 4, 0x06#8), (.putKeyenter, some 5, 0x07#8),
        (.putExt e, none, e)],
      ∃ t, exec q.1 s = .next t ∧
        fifoRead t (slotOf s.producer.wptr) = q.2.2 ∧
        (∀ i, i ≠ slotOf s.producer.wptr → fifoRead t i = fifoRead s i) ∧
        (∀ k, t.producer.pend.getLsbD k = (s.producer.pend.getLsbD k && decide (q.2.1 ≠ some k))) ∧
        t = { s with
          fifo := t.fifo
          producer := { s.producer with
            wptr := s.producer.wptr + 1#5, wptrGray := bin2gray (s.producer.wptr + 1#5), pend := t.producer.pend
            pendExt := if q.2.1 = none then false else s.producer.pendExt
            extEvReady := if q.2.1 = none then true else s.producer.extEvReady }
          consumer := { s.consumer with
            wsync := { s.consumer.wsync with
              held := s.consumer.wsync.held ++ [bin2gray (s.producer.wptr + 1#5)] } } }

/-- A put that finds the producer view full drops its event: `ovf` is set and enters its synchroniser, the latch is
cleared, and nothing else changes (42_event_fifo.md R248, R249; 60_exceptions.md R353). Says where the seven puts drop. -/
def Obligations.PutOnFullDropsTheEvent : Prop :=
  ∀ (s : State) (e : Byte), fullP s = true →
    (∀ q ∈ [(Instr.putTimer, 0), (.putKeyleft, 1), (.putKeyup, 2), (.putKeydown, 3), (.putKeyright, 4),
        (.putKeyenter, 5)],
      exec q.1 s =
        .next { s with
          producer := { s.producer with ovf := true, pend := s.producer.pend &&& ~~~(1#6 <<< q.2) }
          consumer := { s.consumer with
            ovfSync := { s.consumer.ovfSync with held := s.consumer.ovfSync.held ++ [true] } } }) ∧
    exec (.putExt e) s =
      .next { s with
        producer := { s.producer with ovf := true, pendExt := false, extEvReady := true }
        consumer := { s.consumer with
          ovfSync := { s.consumer.ovfSync with held := s.consumer.ovfSync.held ++ [true] } } }

/-- An external event that is not storable only sets `rej`, which enters its synchroniser (42_event_fifo.md R246,
60_exceptions.md R355). Covers EXT_REJECT. -/
def Obligations.RejectOnlySetsRej : Prop :=
  ∀ (s : State) (e : Byte),
    exec (.extReject e) s =
      .next { s with
        producer := { s.producer with rej := true }
        consumer := { s.consumer with
          rejSync := { s.consumer.rejSync with held := s.consumer.rejSync.held ++ [true] } } }

/-- A pop of an empty consumer view answers None and changes nothing; of a non-empty one it answers the slot of the
read pointer, zero-extended, and advances both forms of the pointer into the synchroniser; it never holds
(42_event_fifo.md R257, 44_host_registers.md R329). Covers RD_EVQ_POP. -/
def Obligations.PopTakesTheOldest : Prop :=
  ∀ s : State,
    (s.consumer.rptrGray = wsyncOut s →
      exec .rdEvqPop s =
        .next { s with bus := { s.bus with hReady := true, hErr := false, hRdata := 0#32 } }) ∧
    (s.consumer.rptrGray ≠ wsyncOut s → ∃ w : Word,
      w.toNat = (fifoRead s (slotOf s.consumer.rptr)).toNat ∧
      exec .rdEvqPop s =
        .next { s with
          bus := { s.bus with hReady := true, hErr := false, hRdata := w }
          consumer := { s.consumer with
            rptr := s.consumer.rptr + 1#5, rptrGray := bin2gray (s.consumer.rptr + 1#5) }
          producer := { s.producer with
            rsync := { s.producer.rsync with
              held := s.producer.rsync.held ++ [bin2gray (s.consumer.rptr + 1#5)] } } })

/-- The gray code: the two conversions are as the spec writes them and inverse, one increment changes one bit, and the
full test is a binary difference of 16 (00_scope.md R16, 42_event_fifo.md R250). -/
def Obligations.GrayCodeFacts : Prop :=
  (∀ b : Ptr, bin2gray b = b ^^^ (b >>> 1) ∧ (gray2bin b).getLsbD 4 = b.getLsbD 4 ∧
    ∀ i < 4, (gray2bin b).getLsbD i = (b.getLsbD i ^^ (gray2bin b).getLsbD (i + 1))) ∧
  (∀ b : Ptr, gray2bin (bin2gray b) = b ∧ bin2gray (gray2bin b) = b ∧
    ∃ k < 5, bin2gray b ^^^ bin2gray (b + 1#5) = 1#5 <<< k) ∧
  ∀ s : State, s.producer.wptrGray = bin2gray s.producer.wptr →
    (fullP s = true ↔ s.producer.wptr - gray2bin (rsyncOut s) = 16#5)

/-- When the pointers are in order: producer-view occupancy is 0 to 16 and at least the real occupancy; COUNT is 0 to 16,
at most the real occupancy, and 0 exactly when the consumer view is empty (42_event_fifo.md R251, R259). -/
def Obligations.FifoViewsAreSafe : Prop :=
  ∀ s : State, GrayOk s → CrossingsOk s → FifoOrdered s →
    occP s = s.producer.wptr - gray2bin (rsyncOut s) ∧ (occP s).toNat ≤ 16 ∧
    (s.producer.wptr - s.consumer.rptr).toNat ≤ (occP s).toNat ∧
    countC s = gray2bin (wsyncOut s) - s.consumer.rptr ∧ (countC s).toNat ≤ 16 ∧
    (countC s).toNat ≤ (s.producer.wptr - s.consumer.rptr).toNat ∧ (countC s = 0#5 ↔ emptyC s = true)

/-- Every step keeps the pointers in order (20_memory.md R105 to R107). -/
def Obligations.StepKeepsFifoOrder : Prop :=
  ∀ s t : State, GrayOk s → CrossingsOk s → FifoOrdered s → step s = .next t → FifoOrdered t

/-- No unread slot is overwritten: for every event the FIFO holds before a step, counted from the read pointer, and still
holds after it, its slot reads the same (20_memory.md R105, R106; 42_event_fifo.md R262). A reset empties the FIFO, so
it leaves none. -/
def Obligations.UnreadSlotsAreNeverOverwritten : Prop :=
  ∀ (s t : State) (p : Ptr), GrayOk s → CrossingsOk s → FifoOrdered s → step s = .next t →
    (p - s.consumer.rptr).toNat < occupancy s → (p - t.consumer.rptr).toNat < occupancy t →
    t.env.epoch = s.env.epoch → fifoRead t (slotOf p) = fifoRead s (slotOf p)

/-- Capacity: puts to an empty, settled FIFO store the first 16 words in put order and drop every later one, setting
`ovf` (42_event_fifo.md R261, C2). -/
def Obligations.PutsStoreTheFirstSixteen : Prop :=
  ∀ (vs : List Byte) (s : State), GrayOk s → s.producer.wptr = s.consumer.rptr →
    rsyncOut s = s.consumer.rptrGray → ∃ t,
    putAll vs s = .next t ∧
    t.producer.wptr = s.producer.wptr + BitVec.ofNat 5 (min vs.length 16) ∧
    t.producer.ovf = (s.producer.ovf || decide (16 < vs.length)) ∧
    ∀ k, k < 16 → ∀ v, vs[k]? = some v → fifoRead t (slotOf (s.producer.wptr + BitVec.ofNat 5 k)) = v

/-- Order: with the consumer's copy settled and `n` events held, `n` pops return their words in put order, and the next
one returns None (42_event_fifo.md R261, R256, R257; 20_memory.md R104). -/
def Obligations.PopsReturnTheEventsInOrder : Prop :=
  ∀ (n : Nat) (s : State), GrayOk s → wsyncOut s = s.producer.wptrGray → occupancy s = n →
    popWords (n + 1) s =
      ((List.range n).map fun k =>
        (fifoRead s (slotOf (s.consumer.rptr + BitVec.ofNat 5 k))).setWidth 32) ++ [0#32]

/-- A synchroniser whose source stops changing shows its value after at most one edge more than it has stages, whatever
is drawn: the pointer crossings, and those of the flags, FATAL, the request and the acknowledge, of any type of value.
And the machine clocks its crossings: at every step on a clk tick out of reset the six synchronisers into clk, and on an
aon tick out of reset the two into aon_clk, shift by one stage, stage 0 taking a value of the window held before the edge,
and the next window opens with the newest value (20_memory.md R107). -/
def Obligations.SynchroniserSettles : Prop :=
  (∀ (α : Type) (x : Cross α) (v d : α) (picks : List Nat), x.held.getLast? = some v →
    x.chain ≠ [] → x.chain.length + 1 ≤ picks.length →
    (picks.foldl (fun y n => y.clock d n) x).out d = v) ∧
  ∀ (s t : State) (ts : List Tick), step s = .next t →
    (∀ c, s.env.sched = .clk c :: ts → s.rst.clkInRst = false →
      Clocked s.consumer.wsync t.consumer.wsync ∧ Clocked s.consumer.ovfSync t.consumer.ovfSync ∧
      Clocked s.consumer.mrgSync t.consumer.mrgSync ∧ Clocked s.consumer.rejSync t.consumer.rejSync ∧
      Clocked s.consumer.fatalSync t.consumer.fatalSync ∧ Clocked s.sleep.ackChain t.sleep.ackChain) ∧
    (∀ a, s.env.sched = .aon a :: ts → s.rst.aonInRst = false →
      Clocked s.producer.rsync t.producer.rsync ∧ Clocked s.power.reqChain t.power.reqChain)

/-- The capture of an aon edge: the selected source is the first whose latch is 1, in the order Timer, KeyLeft, KeyUp,
KeyDown, KeyRight, KeyEnter, EXT; each latch is 1 after the edge if it was 1 and its source was not selected, or its source
had an event; an event at a full latch that is not drained is lost and sets `mrg`; the external code is taken only when
the external event is captured; an external event that is not storable sets `rej`, beside a put or alone; the sampled
key lines shift into their synchroniser, whose output is the new key history (42_event_fifo.md R241 to R248). -/
def Obligations.CaptureDrainAndMerge : Prop :=
  ∀ (a : AonIn) (s t : State), s.rst.aonInRst = false → aonEdge exec a s = .next t →
    (∀ p ∈ [(Source.timer, 0), (.keyLeft, 1), (.keyUp, 2), (.keyDown, 3), (.keyRight, 4), (.keyEnter, 5)],
      p.1.latch = some p.2 ∧
      (select s = some p.1 ↔
        s.producer.pend.getLsbD p.2 = true ∧ ∀ j < p.2, s.producer.pend.getLsbD j = false)) ∧
    (select s = some .ext ↔ s.producer.pendExt = true ∧ s.producer.pend = 0#6) ∧
    (select s = none ↔ s.producer.pendExt = false ∧ s.producer.pend = 0#6) ∧
    t.producer.rej = (s.producer.rej || (a.extValid && !storable a.extCode)) ∧
    (∀ k < 6, ∀ q : Source, q.latch = some k →
      t.producer.pend.getLsbD k =
        ((s.producer.pend.getLsbD k && decide (select s ≠ some q)) || (latchEvents a s).getLsbD k)) ∧
    t.producer.pendExt =
      ((s.producer.pendExt && decide (select s ≠ some .ext)) || (a.extValid && storable a.extCode)) ∧
    t.producer.extEvReady = !t.producer.pendExt ∧
    t.producer.pendExtCode =
      (if a.extValid && storable a.extCode && !(s.producer.pendExt && decide (select s ≠ some .ext))
        then a.extCode else s.producer.pendExtCode) ∧
    (t.producer.mrg = true ↔ s.producer.mrg = true ∨
      (∃ k < 6, ∃ q : Source, q.latch = some k ∧ (latchEvents a s).getLsbD k = true ∧
        s.producer.pend.getLsbD k = true ∧ select s ≠ some q) ∨
      (a.extValid = true ∧ storable a.extCode = true ∧ s.producer.pendExt = true ∧ select s ≠ some .ext)) ∧
    t.producer.kprev = chainOut 0#5 s.producer.ksync ∧
    t.producer.ksync = (a.keys :: s.producer.ksync).dropLast ∧
    (∀ k, keyEvents s = ~~~s.producer.kprev &&& chainOut 0#5 s.producer.ksync ∧
      (latchEvents a s).getLsbD (k + 1) = (keyEvents s).getLsbD k) ∧
    (latchEvents a s).getLsbD 0 = a.wktExpire

/-! ## Power -/

/-- The start of a sleep op: from IDLE with a request the FSM latches the operands, clears the records, issues a DISARM
and is in DISARM1 (43_power.md R284, R285). -/
def Obligations.SleepOpStarts : Prop :=
  ∀ (a : AonIn) (s : State), s.rst.aonInRst = false → s.power.pstate = .idle →
    pwrReqSync s ≠ s.power.pwrAckTgl → ∃ t,
    aonEdge exec a s = .next t ∧ t.power.pstate = .disarm1 ∧
    t.power.pDeep = s.sleep.slpDeep ∧ t.power.pDur = s.sleep.slpDur ∧
    t.power.wakePend = false ∧ t.power.wakeCause = 0#5 ∧ t.power.armFail = false ∧ t.power.dis1Fail = false ∧
    t.power.slept = false ∧ t.power.wktReq = true ∧ t.power.wktOp = false ∧ t.power.wktWait = true ∧
    t.power.wktDur = s.power.wktDur ∧ t.power.cpuRunEn = true ∧ t.power.pwrAckTgl = s.power.pwrAckTgl

/-- The answers to the first disarm and to the arm: a failed disarm is recorded and tolerated, an ARM with the duration
is issued; a failed arm or a wake seen by then skips the sleep with a DISARM; else the FSM sleeps. While no response
comes, DISARM1 and ARM wait: nothing is issued, `wkt_op` and `wkt_dur` hold, and only the wake latch and the two
synchronisers go on. SLEEP ends with a DISARM at the first edge with a wake source, and only then (43_power.md R281, R285
to R290).
That the request of a response edge keeps `wkt_req` 1 when the edge before issued too is the model's choice (log 29). -/
def Obligations.ArmAndSleep : Prop :=
  ∀ (a : AonIn) (s : State), s.rst.aonInRst = false →
    (s.power.pstate = .disarm1 → s.power.wktWait = true → a.wktAck = true → ∃ t, aonEdge exec a s = .next t ∧
      t.power.pstate = .arm ∧ t.power.dis1Fail = (s.power.dis1Fail || !a.wktOk) ∧
      t.power.wktReq = true ∧ t.power.wktOp = true ∧ t.power.wktDur = s.power.pDur ∧ t.power.wktWait = true ∧
      t.power.cpuRunEn = true) ∧
    (s.power.pstate = .disarm1 ∨ s.power.pstate = .arm → s.power.wktWait = false ∨ a.wktAck = false →
      ∃ t, aonEdge exec a s = .next t ∧
      t.power = { s.power with
        wktReq := false, wakePend := t.power.wakePend, wakeCause := t.power.wakeCause
        reqChain := t.power.reqChain, irqChain := t.power.irqChain }) ∧
    (s.power.pstate = .arm → s.power.wktWait = true → a.wktAck = true → ∃ t, aonEdge exec a s = .next t ∧
      t.power.armFail = (s.power.armFail || !a.wktOk) ∧
      (if a.wktOk = true ∧ s.power.wakePend = false ∧ wakeSources a s = 0#5 then
        t.power.pstate = .sleep ∧ t.power.slept = true ∧ t.power.wktReq = false ∧ t.power.wktWait = false ∧
          t.power.systickSuspend = true ∧ t.power.cpuRunEn = false ∧ t.power.clkStopReq = s.power.pDeep
      else
        t.power.pstate = .disarm2 ∧ t.power.slept = s.power.slept ∧ t.power.wktReq = true ∧
          t.power.wktOp = false ∧ t.power.wktWait = true ∧ t.power.cpuRunEn = false)) ∧
    (s.power.pstate = .sleep → ∃ t, aonEdge exec a s = .next t ∧
      (if s.power.wakePend = true ∨ a.wktExpire = true ∨ keyEvents s ≠ 0#5 ∨ a.extValid = true ∨
          chainOut false s.power.irqChain = true ∨ s.producer.wptr ≠ gray2bin (rsyncOut s) then
        t.power.pstate = .disarm2 ∧ t.power.wktReq = true ∧ t.power.wktOp = false ∧
          t.power.systickSuspend = false ∧ t.power.clkStopReq = false ∧ t.power.cpuRunEn = false
      else t.power.pstate = .sleep ∧ t.power.wktReq = false))

/-- The answer to the second disarm: a failure is FATAL; a deep sleep that slept goes to RESTORE; any other completes,
toggling the acknowledge; and RESTORE completes at the clock controller's answer. While no answer comes, DISARM2 and
RESTORE wait: nothing is issued and the acknowledge does not toggle (43_power.md R285, R292, R293, R294). -/
def Obligations.SecondDisarmAndRestore : Prop :=
  ∀ (a : AonIn) (s : State), s.rst.aonInRst = false →
    (s.power.pstate = .disarm2 → s.power.wktWait = true → a.wktAck = true → ∃ t, aonEdge exec a s = .next t ∧
      (if a.wktOk = false then
        t.power.pstate = .fatal ∧ t.power.fatal = true ∧ t.power.cpuRunEn = false ∧
          t.power.pwrAckTgl = s.power.pwrAckTgl ∧ t.power.wktReq = false
      else if s.power.pDeep = true ∧ s.power.slept = true then
        t.power.pstate = .restore ∧ t.power.clkRestoreReq = true ∧ t.power.pwrAckTgl = s.power.pwrAckTgl
      else
        t.power.pstate = .idle ∧ t.power.cpuRunEn = true ∧ t.power.pwrAckTgl = !s.power.pwrAckTgl)) ∧
    (s.power.pstate = .restore → a.restoreAck = true → ∃ t, aonEdge exec a s = .next t ∧
      t.power.pstate = .idle ∧ t.power.clkRestoreReq = false ∧ t.power.cpuRunEn = true ∧
      t.power.pwrAckTgl = !s.power.pwrAckTgl) ∧
    ((s.power.pstate = .disarm2 ∧ (s.power.wktWait = false ∨ a.wktAck = false)) ∨
        (s.power.pstate = .restore ∧ a.restoreAck = false) → ∃ t, aonEdge exec a s = .next t ∧
      t.power = { s.power with
        wktReq := false, wktWait := t.power.wktWait
        reqChain := t.power.reqChain, irqChain := t.power.irqChain } ∧
      (s.power.pstate = .disarm2 → t.power.wktWait = s.power.wktWait))

/-- The wake sources are TIMER, KEY, EXT, IRQ and FIFO in bits 0 to 4, each under its own condition read before the edge.
The wake latch: in DISARM1, ARM and SLEEP every active source joins WAKE_CAUSE; in the other states WAKE_CAUSE
changes only where a sleep op starts, which clears it. The sampled `irq_any` shifts into its synchroniser (43_power.md
R284, R286, R287). -/
def Obligations.WakeLatchRecordsSources : Prop :=
  ∀ (a : AonIn) (s t : State), s.rst.aonInRst = false → aonEdge exec a s = .next t →
    ((wakeSources a s).getLsbD 0 = a.wktExpire ∧
      ((wakeSources a s).getLsbD 1 = true ↔
        ∃ k < 5, s.producer.kprev.getLsbD k = false ∧ (kout s).getLsbD k = true) ∧
      (wakeSources a s).getLsbD 2 = a.extValid ∧
      (wakeSources a s).getLsbD 3 = chainOut false s.power.irqChain ∧
      ((wakeSources a s).getLsbD 4 = true ↔ s.producer.wptr ≠ gray2bin (rsyncOut s))) ∧
    t.power.irqChain = (a.irqAny :: s.power.irqChain).dropLast ∧
    (s.power.pstate = .disarm1 ∨ s.power.pstate = .arm ∨ s.power.pstate = .sleep →
      t.power.wakeCause = s.power.wakeCause ||| wakeSources a s ∧
      t.power.wakePend = (s.power.wakePend || decide (wakeSources a s ≠ 0#5))) ∧
    (s.power.pstate = .disarm2 ∨ s.power.pstate = .restore ∨ s.power.pstate = .fatal ∨
        (s.power.pstate = .idle ∧ pwrReqSync s = s.power.pwrAckTgl) →
      t.power.wakeCause = s.power.wakeCause ∧ t.power.wakePend = s.power.wakePend)

/-- Every sleep op issues DISARM, ARM, DISARM in this order, whatever arrives during it: in every run of steps with no
reset, edges of clk and of aon_clk in any order, the requests issued from the aon_clk edge where it starts are as far
along this list as the FSM's state says, and all three when it is IDLE again or FATAL (43_power.md R295, derived there
from R284 to R292).
The steps are the model's ticks (log 1), and a request issued at the edge after another one counts as its own (log 29). -/
def Obligations.SleepIssuesDisarmArmDisarm : Prop :=
  ∀ (n : Nat) (s : State), s.rst.aonInRst = false → s.power.pstate = .idle →
    pwrReqSync s ≠ s.power.pwrAckTgl → aonNext s = true →
    (sleepRequests (n + 1) s).2.env.epoch = s.env.epoch →
    (sleepRequests (n + 1) s).1 =
      (match (sleepRequests (n + 1) s).2.power.pstate with
        | .disarm1 => [false]
        | .arm => [false, true]
        | .sleep => [false, true]
        | .disarm2 => [false, true, false]
        | .restore => [false, true, false]
        | .fatal => [false, true, false]
        | .idle => [false, true, false])

/-- FATAL is terminal: no step but a reset leaves it or toggles the acknowledge, and it keeps its outputs, from the edge it
is entered at; the value its synchroniser carries stays 1; and once the consumer side has seen it in every stage it stays
seen, so that every CMD write is held from then on (43_power.md R294, 44_host_registers.md R323). -/
def Obligations.FatalIsTerminal : Prop :=
  ∀ s t : State, s.power.pstate = .fatal → step s = .next t → t.env.epoch = s.env.epoch →
    (t.power.pstate = .fatal ∧ t.power.pwrAckTgl = s.power.pwrAckTgl ∧ t.power.fatal = s.power.fatal ∧
      t.power.cpuRunEn = s.power.cpuRunEn) ∧
    (s.consumer.fatalSync.held.getLast? = some true → t.consumer.fatalSync.held.getLast? = some true) ∧
    (s.consumer.fatalSync.held ≠ [] → s.consumer.fatalSync.chain ≠ [] →
      (∀ b ∈ s.consumer.fatalSync.held ++ s.consumer.fatalSync.chain, b = true) →
      t.consumer.fatalSync.held ≠ [] ∧ t.consumer.fatalSync.chain ≠ [] ∧
      (∀ b ∈ t.consumer.fatalSync.held ++ t.consumer.fatalSync.chain, b = true) ∧ fatalSyncOut t = true)

/-! ## The two domains -/

/-- Each domain holds without its clock. A step on an aon tick changes no engine, pin, register field, framebuffer byte,
bus, read-pointer or handshake state, no synchroniser stage in clk, and not `irq`; a step on a clk tick changes no
producer, FIFO RAM or power state but the windows of the two crossings into aon_clk, which only grow (10_state.md R30,
R57; 42_event_fifo.md R262). -/
def Obligations.DomainsHoldWithoutTheirClock : Prop :=
  ∀ (s t : State) (ts : List Tick), step s = .next t →
    (∀ a, s.env.sched = .aon a :: ts →
      t.engine = s.engine ∧ t.pins = s.pins ∧ t.regs = s.regs ∧ t.fb = s.fb ∧ t.bus = s.bus ∧
      t.consumer.rptr = s.consumer.rptr ∧ t.consumer.rptrGray = s.consumer.rptrGray ∧
      t.consumer.wsync.chain = s.consumer.wsync.chain ∧ t.consumer.ovfSync.chain = s.consumer.ovfSync.chain ∧
      t.consumer.mrgSync.chain = s.consumer.mrgSync.chain ∧ t.consumer.rejSync.chain = s.consumer.rejSync.chain ∧
      t.consumer.fatalSync.chain = s.consumer.fatalSync.chain ∧ t.sleep.ackChain.chain = s.sleep.ackChain.chain ∧
      t.sleep.pwrReqTgl = s.sleep.pwrReqTgl ∧ t.sleep.slpDeep = s.sleep.slpDeep ∧
      t.sleep.slpDur = s.sleep.slpDur ∧ t.sleep.slpHeld = s.sleep.slpHeld ∧ irq t = irq s) ∧
    (∀ c, s.env.sched = .clk c :: ts →
      t.fifo = s.fifo ∧
      t.producer = { s.producer with rsync := { s.producer.rsync with held := t.producer.rsync.held } } ∧
      t.power = { s.power with reqChain := { s.power.reqChain with held := t.power.reqChain.held } } ∧
      s.producer.rsync.held <+: t.producer.rsync.held ∧ s.power.reqChain.held <+: t.power.reqChain.held)

/-! ## Invariants -/

/-- Every step keeps both RAMs in canonical form (20_memory.md R96, R98). -/
def Obligations.StepKeepsMemoryForm : Prop :=
  ∀ s t : State, MemoryOk s → step s = .next t → MemoryOk t

/-- Every step keeps the gray pointers equal to the binary ones, every synchroniser at its length and fed by its own
source, and the power outputs and `ext_ev_ready` as the state says (42_event_fifo.md R252, R241; 20_memory.md R107;
43_power.md R281). -/
def Obligations.StepKeepsCrossingsAndOutputs : Prop :=
  ∀ s t : State, GrayOk s ∧ CrossingsOk s ∧ OutputsOk s → step s = .next t → GrayOk t ∧ CrossingsOk t ∧ OutputsOk t

/-- Every step keeps the serializer's invariant: `lcd_dc` agrees with the mode flag, bus-select is low exactly within the
frame of an op, `lcd_sclk` is high only inside a byte, and the device is in basic mode between ops
(41_lcd_protocol.md R181, R182, R183, R198).
The mode between ops rests on the device's presumed reset mode (log 8), the edges of the assignments on log 6, the byte
and the bit count within a BYTE on log 7 and log 28. -/
def Obligations.StepKeepsSerializer : Prop :=
  ∀ s t : State, SerializerOk s → step s = .next t → SerializerOk t

/-- The bus protocol of the serializer, over one step: `lcd_sclk` rises only with bus-select low, and `lcd_dc` does not
change at a rising edge or while `lcd_sclk` stays high (41_lcd_protocol.md R182, R199). -/
def Obligations.DcIsStableAroundClockEdges : Prop :=
  ∀ s t : State, SerializerOk s → step s = .next t →
    (s.pins.lcdSclk = false → t.pins.lcdSclk = true → t.pins.lcdSceN = false) ∧
    (t.pins.lcdSclk = true → t.pins.lcdDc = s.pins.lcdDc)

/-- The state after reset meets every invariant (70_reset_and_hazards.md R390, R391).
State.reset has the model's parameters (log 5) and the presumed mode (log 8). -/
def Obligations.ResetMeetsTheInvariants : Prop :=
  MemoryOk State.reset ∧ GrayOk State.reset ∧ CrossingsOk State.reset ∧ OutputsOk State.reset ∧
    SerializerOk State.reset ∧ FifoOrdered State.reset

/-- What a reset leaves, from any state and whatever the clocks do: every port, pin, register field, machine state,
pointer, synchroniser stage and toggle at the value the spec states, `irq` and BUSY 0, the FIFO empty, and every host
register reading 0 but ID; both domains are in reset. A domain in reset keeps every register at its own clock edges,
and leaves reset only with `rst_n` high; the rise of `rst_n` changes nothing else (70_reset_and_hazards.md R390, R391,
R392; 10_state.md R31 to R36, R49 to R54). The RAMs, and the model's own fields, are not part of the values.
That a domain leaves reset at the edge whose tick says so, and that an edge in reset ends a synchroniser's window, are
the model's (log 13, log 14). -/
def Obligations.ResetValues : Prop :=
  (∀ (s t : State) (ts : List Tick) (c : ClkIn), s.env.sched = .clk c :: ts → s.rst.clkInRst = true → step s = .next t →
    t.engine = s.engine ∧ t.pins = s.pins ∧ t.regs = s.regs ∧ t.fb = s.fb ∧
    t.bus = { s.bus with hostQ := s.bus.hostQ ++ c.req.toList } ∧
    (∀ v, s.consumer.wsync.held.getLast? = some v → t.consumer.wsync.held = [v]) ∧
    t.consumer = { s.consumer with
      wsync := { s.consumer.wsync with held := t.consumer.wsync.held }
      ovfSync := { s.consumer.ovfSync with held := t.consumer.ovfSync.held }
      mrgSync := { s.consumer.mrgSync with held := t.consumer.mrgSync.held }
      rejSync := { s.consumer.rejSync with held := t.consumer.rejSync.held }
      fatalSync := { s.consumer.fatalSync with held := t.consumer.fatalSync.held } } ∧
    t.sleep = { s.sleep with ackChain := { s.sleep.ackChain with held := t.sleep.ackChain.held } } ∧
    t.power = s.power ∧ t.producer = s.producer ∧ t.fifo = s.fifo ∧
    t.rst = { s.rst with clkInRst := !(s.rst.rstN && c.leaveReset) }) ∧
  (∀ (s t : State) (ts : List Tick) (a : AonIn), s.env.sched = .aon a :: ts → s.rst.aonInRst = true → step s = .next t →
    t.fifo = s.fifo ∧
    (∀ v, s.producer.rsync.held.getLast? = some v → t.producer.rsync.held = [v]) ∧
    t.producer = { s.producer with rsync := { s.producer.rsync with held := t.producer.rsync.held } } ∧
    t.power = { s.power with reqChain := { s.power.reqChain with held := t.power.reqChain.held } } ∧
    t.engine = s.engine ∧ t.pins = s.pins ∧ t.regs = s.regs ∧ t.fb = s.fb ∧ t.bus = s.bus ∧
    t.consumer = s.consumer ∧ t.sleep = s.sleep ∧
    t.rst = { s.rst with aonInRst := !(s.rst.rstN && a.leaveReset) }) ∧
  (∀ (s t : State) (ts : List Tick), s.env.sched = .resetRelease :: ts → step s = .next t →
    t = { s with env := { s.env with sched := ts }, rst := { s.rst with rstN := true } }) ∧
  ∀ (s t : State) (ts : List Tick), s.env.sched = .resetAssert :: ts → 1 ≤ s.params.syncStages → step s = .next t →
    t.rst = { rstN := false, clkInRst := true, aonInRst := true } ∧
    t.bus.hReady = true ∧ t.bus.hErr = false ∧ t.bus.hRdata = 0#32 ∧ irq t = false ∧ busy t = false ∧
    t.pins = { lcdRstN := false, lcdSceN := true, lcdDc := false, lcdSclk := false, lcdSdin := false } ∧
    t.engine = { t.engine with
      estate := .idle, eop := 0#4, eargs := 0#28, erot := 0#2, eidx := 0, ecnt := 0, ebit := 0, eshift := 0#8
      mode := .uninit } ∧
    t.regs = { ctrlRot := 0#2, ctrlIeDone := false, ctrlIeEvq := false, done := false, cmdErr := false,
               initDone := false, resultPix := false } ∧
    t.consumer.rptr = 0#5 ∧ t.consumer.rptrGray = 0#5 ∧ (∀ g ∈ t.consumer.wsync.chain, g = 0#5) ∧
    (∀ b ∈ t.consumer.ovfSync.chain ++ t.consumer.mrgSync.chain ++ t.consumer.rejSync.chain ++
      t.consumer.fatalSync.chain ++ t.sleep.ackChain.chain ++ t.power.reqChain.chain ++ t.power.irqChain, b = false) ∧
    t.sleep.pwrReqTgl = false ∧ t.sleep.slpDeep = false ∧ t.sleep.slpDur = 0#24 ∧
    t.power = { t.power with
      pstate := .idle, pwrAckTgl := false, pDeep := false, pDur := 0#24, wakePend := false, wakeCause := 0#5
      armFail := false, dis1Fail := false, slept := false, wktWait := false
      systickSuspend := false, cpuRunEn := true, clkStopReq := false, clkRestoreReq := false, fatal := false
      wktReq := false, wktOp := false, wktDur := 0#24 } ∧
    t.producer = { t.producer with
      wptr := 0#5, wptrGray := 0#5, pend := 0#6, pendExt := false, pendExtCode := 0#8, kprev := 0#5
      ovf := false, mrg := false, rej := false, extEvReady := true } ∧
    (∀ g ∈ t.producer.rsync.chain ++ t.producer.ksync, g = 0#5) ∧
    emptyC t = true ∧ fullP t = false ∧
    ctrlWord t = 0#32 ∧ statusWord t = 0#32 ∧ resultWord t = 0#32 ∧ evqStatWord t = 0#32 ∧ pwrStatWord t = 0#32 ∧
    t.params = s.params
end

