-- ==== Sys2Proof/Laws/State.lean ====
section
/-! SUPPORT. One lemma per field per update of State, true by rfl, so that no proof unfolds a record update; and that
a second update of the same group replaces the first. -/

namespace Sys2Proof.Machine.State

open Sys2Proof Sys2Proof.Config Sys2Proof.Machine

variable (s : State)

section
variable (x y : Params)
@[simp] theorem withParams_params : (s.withParams x).params = x := rfl
@[simp] theorem withParams_bus : (s.withParams x).bus = s.bus := rfl
@[simp] theorem withParams_regs : (s.withParams x).regs = s.regs := rfl
@[simp] theorem withParams_engine : (s.withParams x).engine = s.engine := rfl
@[simp] theorem withParams_pins : (s.withParams x).pins = s.pins := rfl
@[simp] theorem withParams_fb : (s.withParams x).fb = s.fb := rfl
@[simp] theorem withParams_consumer : (s.withParams x).consumer = s.consumer := rfl
@[simp] theorem withParams_sleep : (s.withParams x).sleep = s.sleep := rfl
@[simp] theorem withParams_power : (s.withParams x).power = s.power := rfl
@[simp] theorem withParams_producer : (s.withParams x).producer = s.producer := rfl
@[simp] theorem withParams_fifo : (s.withParams x).fifo = s.fifo := rfl
@[simp] theorem withParams_rst : (s.withParams x).rst = s.rst := rfl
@[simp] theorem withParams_env : (s.withParams x).env = s.env := rfl
@[simp] theorem withParams_withParams : (s.withParams x).withParams y = s.withParams y := rfl
theorem withParams_self : s.withParams s.params = s := rfl
end

section
variable (x y : HostBus)
@[simp] theorem withBus_params : (s.withBus x).params = s.params := rfl
@[simp] theorem withBus_bus : (s.withBus x).bus = x := rfl
@[simp] theorem withBus_regs : (s.withBus x).regs = s.regs := rfl
@[simp] theorem withBus_engine : (s.withBus x).engine = s.engine := rfl
@[simp] theorem withBus_pins : (s.withBus x).pins = s.pins := rfl
@[simp] theorem withBus_fb : (s.withBus x).fb = s.fb := rfl
@[simp] theorem withBus_consumer : (s.withBus x).consumer = s.consumer := rfl
@[simp] theorem withBus_sleep : (s.withBus x).sleep = s.sleep := rfl
@[simp] theorem withBus_power : (s.withBus x).power = s.power := rfl
@[simp] theorem withBus_producer : (s.withBus x).producer = s.producer := rfl
@[simp] theorem withBus_fifo : (s.withBus x).fifo = s.fifo := rfl
@[simp] theorem withBus_rst : (s.withBus x).rst = s.rst := rfl
@[simp] theorem withBus_env : (s.withBus x).env = s.env := rfl
@[simp] theorem withBus_withBus : (s.withBus x).withBus y = s.withBus y := rfl
theorem withBus_self : s.withBus s.bus = s := rfl
end

section
variable (x y : Regs)
@[simp] theorem withRegs_params : (s.withRegs x).params = s.params := rfl
@[simp] theorem withRegs_bus : (s.withRegs x).bus = s.bus := rfl
@[simp] theorem withRegs_regs : (s.withRegs x).regs = x := rfl
@[simp] theorem withRegs_engine : (s.withRegs x).engine = s.engine := rfl
@[simp] theorem withRegs_pins : (s.withRegs x).pins = s.pins := rfl
@[simp] theorem withRegs_fb : (s.withRegs x).fb = s.fb := rfl
@[simp] theorem withRegs_consumer : (s.withRegs x).consumer = s.consumer := rfl
@[simp] theorem withRegs_sleep : (s.withRegs x).sleep = s.sleep := rfl
@[simp] theorem withRegs_power : (s.withRegs x).power = s.power := rfl
@[simp] theorem withRegs_producer : (s.withRegs x).producer = s.producer := rfl
@[simp] theorem withRegs_fifo : (s.withRegs x).fifo = s.fifo := rfl
@[simp] theorem withRegs_rst : (s.withRegs x).rst = s.rst := rfl
@[simp] theorem withRegs_env : (s.withRegs x).env = s.env := rfl
@[simp] theorem withRegs_withRegs : (s.withRegs x).withRegs y = s.withRegs y := rfl
theorem withRegs_self : s.withRegs s.regs = s := rfl
end

section
variable (x y : Engine)
@[simp] theorem withEngine_params : (s.withEngine x).params = s.params := rfl
@[simp] theorem withEngine_bus : (s.withEngine x).bus = s.bus := rfl
@[simp] theorem withEngine_regs : (s.withEngine x).regs = s.regs := rfl
@[simp] theorem withEngine_engine : (s.withEngine x).engine = x := rfl
@[simp] theorem withEngine_pins : (s.withEngine x).pins = s.pins := rfl
@[simp] theorem withEngine_fb : (s.withEngine x).fb = s.fb := rfl
@[simp] theorem withEngine_consumer : (s.withEngine x).consumer = s.consumer := rfl
@[simp] theorem withEngine_sleep : (s.withEngine x).sleep = s.sleep := rfl
@[simp] theorem withEngine_power : (s.withEngine x).power = s.power := rfl
@[simp] theorem withEngine_producer : (s.withEngine x).producer = s.producer := rfl
@[simp] theorem withEngine_fifo : (s.withEngine x).fifo = s.fifo := rfl
@[simp] theorem withEngine_rst : (s.withEngine x).rst = s.rst := rfl
@[simp] theorem withEngine_env : (s.withEngine x).env = s.env := rfl
@[simp] theorem withEngine_withEngine : (s.withEngine x).withEngine y = s.withEngine y := rfl
theorem withEngine_self : s.withEngine s.engine = s := rfl
end

section
variable (x y : Pins)
@[simp] theorem withPins_params : (s.withPins x).params = s.params := rfl
@[simp] theorem withPins_bus : (s.withPins x).bus = s.bus := rfl
@[simp] theorem withPins_regs : (s.withPins x).regs = s.regs := rfl
@[simp] theorem withPins_engine : (s.withPins x).engine = s.engine := rfl
@[simp] theorem withPins_pins : (s.withPins x).pins = x := rfl
@[simp] theorem withPins_fb : (s.withPins x).fb = s.fb := rfl
@[simp] theorem withPins_consumer : (s.withPins x).consumer = s.consumer := rfl
@[simp] theorem withPins_sleep : (s.withPins x).sleep = s.sleep := rfl
@[simp] theorem withPins_power : (s.withPins x).power = s.power := rfl
@[simp] theorem withPins_producer : (s.withPins x).producer = s.producer := rfl
@[simp] theorem withPins_fifo : (s.withPins x).fifo = s.fifo := rfl
@[simp] theorem withPins_rst : (s.withPins x).rst = s.rst := rfl
@[simp] theorem withPins_env : (s.withPins x).env = s.env := rfl
@[simp] theorem withPins_withPins : (s.withPins x).withPins y = s.withPins y := rfl
theorem withPins_self : s.withPins s.pins = s := rfl
end

section
variable (x y : Memory)
@[simp] theorem withFb_params : (s.withFb x).params = s.params := rfl
@[simp] theorem withFb_bus : (s.withFb x).bus = s.bus := rfl
@[simp] theorem withFb_regs : (s.withFb x).regs = s.regs := rfl
@[simp] theorem withFb_engine : (s.withFb x).engine = s.engine := rfl
@[simp] theorem withFb_pins : (s.withFb x).pins = s.pins := rfl
@[simp] theorem withFb_fb : (s.withFb x).fb = x := rfl
@[simp] theorem withFb_consumer : (s.withFb x).consumer = s.consumer := rfl
@[simp] theorem withFb_sleep : (s.withFb x).sleep = s.sleep := rfl
@[simp] theorem withFb_power : (s.withFb x).power = s.power := rfl
@[simp] theorem withFb_producer : (s.withFb x).producer = s.producer := rfl
@[simp] theorem withFb_fifo : (s.withFb x).fifo = s.fifo := rfl
@[simp] theorem withFb_rst : (s.withFb x).rst = s.rst := rfl
@[simp] theorem withFb_env : (s.withFb x).env = s.env := rfl
@[simp] theorem withFb_withFb : (s.withFb x).withFb y = s.withFb y := rfl
theorem withFb_self : s.withFb s.fb = s := rfl
end

section
variable (x y : Consumer)
@[simp] theorem withConsumer_params : (s.withConsumer x).params = s.params := rfl
@[simp] theorem withConsumer_bus : (s.withConsumer x).bus = s.bus := rfl
@[simp] theorem withConsumer_regs : (s.withConsumer x).regs = s.regs := rfl
@[simp] theorem withConsumer_engine : (s.withConsumer x).engine = s.engine := rfl
@[simp] theorem withConsumer_pins : (s.withConsumer x).pins = s.pins := rfl
@[simp] theorem withConsumer_fb : (s.withConsumer x).fb = s.fb := rfl
@[simp] theorem withConsumer_consumer : (s.withConsumer x).consumer = x := rfl
@[simp] theorem withConsumer_sleep : (s.withConsumer x).sleep = s.sleep := rfl
@[simp] theorem withConsumer_power : (s.withConsumer x).power = s.power := rfl
@[simp] theorem withConsumer_producer : (s.withConsumer x).producer = s.producer := rfl
@[simp] theorem withConsumer_fifo : (s.withConsumer x).fifo = s.fifo := rfl
@[simp] theorem withConsumer_rst : (s.withConsumer x).rst = s.rst := rfl
@[simp] theorem withConsumer_env : (s.withConsumer x).env = s.env := rfl
@[simp] theorem withConsumer_withConsumer : (s.withConsumer x).withConsumer y = s.withConsumer y := rfl
theorem withConsumer_self : s.withConsumer s.consumer = s := rfl
end

section
variable (x y : SleepClk)
@[simp] theorem withSleep_params : (s.withSleep x).params = s.params := rfl
@[simp] theorem withSleep_bus : (s.withSleep x).bus = s.bus := rfl
@[simp] theorem withSleep_regs : (s.withSleep x).regs = s.regs := rfl
@[simp] theorem withSleep_engine : (s.withSleep x).engine = s.engine := rfl
@[simp] theorem withSleep_pins : (s.withSleep x).pins = s.pins := rfl
@[simp] theorem withSleep_fb : (s.withSleep x).fb = s.fb := rfl
@[simp] theorem withSleep_consumer : (s.withSleep x).consumer = s.consumer := rfl
@[simp] theorem withSleep_sleep : (s.withSleep x).sleep = x := rfl
@[simp] theorem withSleep_power : (s.withSleep x).power = s.power := rfl
@[simp] theorem withSleep_producer : (s.withSleep x).producer = s.producer := rfl
@[simp] theorem withSleep_fifo : (s.withSleep x).fifo = s.fifo := rfl
@[simp] theorem withSleep_rst : (s.withSleep x).rst = s.rst := rfl
@[simp] theorem withSleep_env : (s.withSleep x).env = s.env := rfl
@[simp] theorem withSleep_withSleep : (s.withSleep x).withSleep y = s.withSleep y := rfl
theorem withSleep_self : s.withSleep s.sleep = s := rfl
end

section
variable (x y : Power)
@[simp] theorem withPower_params : (s.withPower x).params = s.params := rfl
@[simp] theorem withPower_bus : (s.withPower x).bus = s.bus := rfl
@[simp] theorem withPower_regs : (s.withPower x).regs = s.regs := rfl
@[simp] theorem withPower_engine : (s.withPower x).engine = s.engine := rfl
@[simp] theorem withPower_pins : (s.withPower x).pins = s.pins := rfl
@[simp] theorem withPower_fb : (s.withPower x).fb = s.fb := rfl
@[simp] theorem withPower_consumer : (s.withPower x).consumer = s.consumer := rfl
@[simp] theorem withPower_sleep : (s.withPower x).sleep = s.sleep := rfl
@[simp] theorem withPower_power : (s.withPower x).power = x := rfl
@[simp] theorem withPower_producer : (s.withPower x).producer = s.producer := rfl
@[simp] theorem withPower_fifo : (s.withPower x).fifo = s.fifo := rfl
@[simp] theorem withPower_rst : (s.withPower x).rst = s.rst := rfl
@[simp] theorem withPower_env : (s.withPower x).env = s.env := rfl
@[simp] theorem withPower_withPower : (s.withPower x).withPower y = s.withPower y := rfl
theorem withPower_self : s.withPower s.power = s := rfl
end

section
variable (x y : Producer)
@[simp] theorem withProducer_params : (s.withProducer x).params = s.params := rfl
@[simp] theorem withProducer_bus : (s.withProducer x).bus = s.bus := rfl
@[simp] theorem withProducer_regs : (s.withProducer x).regs = s.regs := rfl
@[simp] theorem withProducer_engine : (s.withProducer x).engine = s.engine := rfl
@[simp] theorem withProducer_pins : (s.withProducer x).pins = s.pins := rfl
@[simp] theorem withProducer_fb : (s.withProducer x).fb = s.fb := rfl
@[simp] theorem withProducer_consumer : (s.withProducer x).consumer = s.consumer := rfl
@[simp] theorem withProducer_sleep : (s.withProducer x).sleep = s.sleep := rfl
@[simp] theorem withProducer_power : (s.withProducer x).power = s.power := rfl
@[simp] theorem withProducer_producer : (s.withProducer x).producer = x := rfl
@[simp] theorem withProducer_fifo : (s.withProducer x).fifo = s.fifo := rfl
@[simp] theorem withProducer_rst : (s.withProducer x).rst = s.rst := rfl
@[simp] theorem withProducer_env : (s.withProducer x).env = s.env := rfl
@[simp] theorem withProducer_withProducer : (s.withProducer x).withProducer y = s.withProducer y := rfl
theorem withProducer_self : s.withProducer s.producer = s := rfl
end

section
variable (x y : Memory)
@[simp] theorem withFifo_params : (s.withFifo x).params = s.params := rfl
@[simp] theorem withFifo_bus : (s.withFifo x).bus = s.bus := rfl
@[simp] theorem withFifo_regs : (s.withFifo x).regs = s.regs := rfl
@[simp] theorem withFifo_engine : (s.withFifo x).engine = s.engine := rfl
@[simp] theorem withFifo_pins : (s.withFifo x).pins = s.pins := rfl
@[simp] theorem withFifo_fb : (s.withFifo x).fb = s.fb := rfl
@[simp] theorem withFifo_consumer : (s.withFifo x).consumer = s.consumer := rfl
@[simp] theorem withFifo_sleep : (s.withFifo x).sleep = s.sleep := rfl
@[simp] theorem withFifo_power : (s.withFifo x).power = s.power := rfl
@[simp] theorem withFifo_producer : (s.withFifo x).producer = s.producer := rfl
@[simp] theorem withFifo_fifo : (s.withFifo x).fifo = x := rfl
@[simp] theorem withFifo_rst : (s.withFifo x).rst = s.rst := rfl
@[simp] theorem withFifo_env : (s.withFifo x).env = s.env := rfl
@[simp] theorem withFifo_withFifo : (s.withFifo x).withFifo y = s.withFifo y := rfl
theorem withFifo_self : s.withFifo s.fifo = s := rfl
end

section
variable (x y : Reset)
@[simp] theorem withRst_params : (s.withRst x).params = s.params := rfl
@[simp] theorem withRst_bus : (s.withRst x).bus = s.bus := rfl
@[simp] theorem withRst_regs : (s.withRst x).regs = s.regs := rfl
@[simp] theorem withRst_engine : (s.withRst x).engine = s.engine := rfl
@[simp] theorem withRst_pins : (s.withRst x).pins = s.pins := rfl
@[simp] theorem withRst_fb : (s.withRst x).fb = s.fb := rfl
@[simp] theorem withRst_consumer : (s.withRst x).consumer = s.consumer := rfl
@[simp] theorem withRst_sleep : (s.withRst x).sleep = s.sleep := rfl
@[simp] theorem withRst_power : (s.withRst x).power = s.power := rfl
@[simp] theorem withRst_producer : (s.withRst x).producer = s.producer := rfl
@[simp] theorem withRst_fifo : (s.withRst x).fifo = s.fifo := rfl
@[simp] theorem withRst_rst : (s.withRst x).rst = x := rfl
@[simp] theorem withRst_env : (s.withRst x).env = s.env := rfl
@[simp] theorem withRst_withRst : (s.withRst x).withRst y = s.withRst y := rfl
theorem withRst_self : s.withRst s.rst = s := rfl
end

section
variable (x y : Env)
@[simp] theorem withEnv_params : (s.withEnv x).params = s.params := rfl
@[simp] theorem withEnv_bus : (s.withEnv x).bus = s.bus := rfl
@[simp] theorem withEnv_regs : (s.withEnv x).regs = s.regs := rfl
@[simp] theorem withEnv_engine : (s.withEnv x).engine = s.engine := rfl
@[simp] theorem withEnv_pins : (s.withEnv x).pins = s.pins := rfl
@[simp] theorem withEnv_fb : (s.withEnv x).fb = s.fb := rfl
@[simp] theorem withEnv_consumer : (s.withEnv x).consumer = s.consumer := rfl
@[simp] theorem withEnv_sleep : (s.withEnv x).sleep = s.sleep := rfl
@[simp] theorem withEnv_power : (s.withEnv x).power = s.power := rfl
@[simp] theorem withEnv_producer : (s.withEnv x).producer = s.producer := rfl
@[simp] theorem withEnv_fifo : (s.withEnv x).fifo = s.fifo := rfl
@[simp] theorem withEnv_rst : (s.withEnv x).rst = s.rst := rfl
@[simp] theorem withEnv_env : (s.withEnv x).env = x := rfl
@[simp] theorem withEnv_withEnv : (s.withEnv x).withEnv y = s.withEnv y := rfl
theorem withEnv_self : s.withEnv s.env = s := rfl
end

end Sys2Proof.Machine.State
end

