-- ==== Sys2Proof/Laws/Memory.lean ====
section
/-! SUPPORT. The laws of the two RAMs: reading after writing, and that every operation on a RAM keeps its canonical form,
which the state after reset has. -/

namespace Sys2Proof.Machine

open Sys2Proof Sys2Proof.Config

/-- A byte just written reads as written. -/
@[simp] theorem Memory.get?_set_same (m : Memory) (a : Nat) (v : Byte) : (m.set a v).get? a = some v := by
  induction m with
  | nil => simp [Memory.set, Memory.get?]
  | cons c m ih =>
    obtain ⟨k, w⟩ := c
    simp only [Memory.set]
    split
    · simp [Memory.get?]
    · split
      · simp [Memory.get?]
      · have : k ≠ a := by omega
        simp [Memory.get?, this, ih]

/-- A write leaves every other address alone. -/
theorem Memory.get?_set_other (m : Memory) {a b : Nat} (v : Byte) (h : b ≠ a) :
    (m.set a v).get? b = m.get? b := by
  induction m with
  | nil => simp [Memory.set, Memory.get?, Ne.symm h]
  | cons c m ih =>
    obtain ⟨k, w⟩ := c
    simp only [Memory.set]
    split
    · simp [Memory.get?, Ne.symm h]
    · split
      · rename_i _ hk
        subst hk
        simp [Memory.get?, Ne.symm h]
      · simp only [Memory.get?, ih]

/-- The addresses of a memory after a write are those before it and the one written. -/
theorem Memory.mem_set {m : Memory} {a : Nat} {v : Byte} {c : Host.Cell} (h : c ∈ m.set a v) :
    c = (a, v) ∨ c ∈ m := by
  induction m with
  | nil => simpa [Memory.set] using h
  | cons d m ih =>
    obtain ⟨k, w⟩ := d
    simp only [Memory.set] at h
    split at h
    · simpa using h
    · split at h
      · rcases List.mem_cons.1 h with h | h
        · exact .inl h
        · exact .inr (List.mem_cons_of_mem _ h)
      · rcases List.mem_cons.1 h with h | h
        · exact .inr (h ▸ List.mem_cons_self)
        · exact (ih h).imp id (List.mem_cons_of_mem _)

/-- A write inside a RAM keeps its canonical form. -/
theorem Memory.wf_set {n : Nat} {m : Memory} {a : Nat} (v : Byte) (hm : m.wf n) (ha : a < n) :
    (m.set a v).wf n := by
  refine ⟨?_, fun c hc => ?_⟩
  · obtain ⟨hp, -⟩ := hm
    induction m with
    | nil => simp [Memory.set]
    | cons d m ih =>
      obtain ⟨k, w⟩ := d
      obtain ⟨hk, hp'⟩ := List.pairwise_cons.1 hp
      simp only [Memory.set]
      split
      · rename_i hlt
        refine List.pairwise_cons.2 ⟨fun c hc => ?_, hp⟩
        rcases List.mem_cons.1 hc with h | h
        · exact h ▸ hlt
        · exact Nat.lt_trans hlt (hk c h)
      · split
        · rename_i _ he
          subst he
          exact List.pairwise_cons.2 ⟨hk, hp'⟩
        · refine List.pairwise_cons.2 ⟨fun c hc => ?_, ih hp'⟩
          rcases Memory.mem_set hc with h | h
          · rw [h]; show k < a; omega
          · exact hk c h
  · rcases Memory.mem_set hc with h | h
    · exact h ▸ ha
    · exact hm.2 c h

/-- The framebuffer as `FbWrite` leaves it. -/
@[simp] theorem fbWrite_fb (i : Nat) (v : Byte) (s : State) : (fbWrite i v s).fb = s.fb.set i v := rfl

/-- The FIFO RAM as `FifoWrite` leaves it. -/
@[simp] theorem fifoWrite_fifo (i : BitVec 4) (v : Byte) (s : State) :
    (fifoWrite i v s).fifo = s.fifo.set i.toNat v := rfl

/-- `FbRead` of the byte just written. -/
@[simp] theorem fbRead_fbWrite_same (i : Nat) (v : Byte) (s : State) : fbRead (fbWrite i v s) i = v := by
  simp [fbRead]

/-- `FbRead` of any other byte. -/
theorem fbRead_fbWrite_other {i j : Nat} (v : Byte) (s : State) (h : j ≠ i) :
    fbRead (fbWrite i v s) j = fbRead s j := by
  simp [fbRead, fbWrite, Memory.get?_set_other _ _ h]

/-- `FifoRead` of the slot just written. -/
@[simp] theorem fifoRead_fifoWrite_same (i : BitVec 4) (v : Byte) (s : State) :
    fifoRead (fifoWrite i v s) i = v := by
  simp [fifoRead]

/-- `FifoRead` of any other slot. -/
theorem fifoRead_fifoWrite_other {i j : BitVec 4} (v : Byte) (s : State) (h : j ≠ i) :
    fifoRead (fifoWrite i v s) j = fifoRead s j := by
  have : j.toNat ≠ i.toNat := fun e => h (BitVec.eq_of_toNat_eq e)
  simp [fifoRead, fifoWrite, Memory.get?_set_other _ _ this]

/-- `FbRead` depends only on the framebuffer and the reset it belongs to. -/
theorem fbRead_congr {s t : State} (h : t.fb = s.fb) (e : t.env.epoch = s.env.epoch) (i : Nat) :
    fbRead t i = fbRead s i := by
  simp [fbRead, h, e]

/-- `FifoRead` depends only on the FIFO RAM and the reset it belongs to. -/
theorem fifoRead_congr {s t : State} (h : t.fifo = s.fifo) (e : t.env.epoch = s.env.epoch) (i : BitVec 4) :
    fifoRead t i = fifoRead s i := by
  simp [fifoRead, h, e]

/-- `FbWrite` keeps the framebuffer in canonical form. -/
theorem fbWrite_wf {i : Nat} (v : Byte) {s : State} (h : s.fb.wf fbBytes) (hi : i < fbBytes) :
    (fbWrite i v s).fb.wf fbBytes :=
  Memory.wf_set v h hi

/-- `FifoWrite` keeps the FIFO RAM in canonical form. -/
theorem fifoWrite_wf (i : BitVec 4) (v : Byte) {s : State} (h : s.fifo.wf fifoDepth) :
    (fifoWrite i v s).fifo.wf fifoDepth :=
  Memory.wf_set v h i.isLt

/-- Both RAMs have their canonical form after reset. -/
theorem reset_memory_wf : State.reset.fb.wf fbBytes ∧ State.reset.fifo.wf fifoDepth := by decide

end Sys2Proof.Machine
end

