-- ==== Sys2Proof/Laws/Ops.lean ====
section
/-! SUPPORT. One lemma for each shared operation, saying everything it does, to be cited instead of unfolding it. -/

namespace Sys2Proof.Machine

open Sys2Proof Sys2Proof.Config

/-! ## Bus responses -/

/-- A completed read changes only the response ports. -/
theorem respondRead_eq (v : Word) (s : State) :
    respondRead v s = { s with bus := { s.bus with hReady := true, hErr := false, hRdata := v } } := rfl

/-- A completed write changes only the response ports and the draw counter. -/
theorem respondWrite_eq (s : State) :
    respondWrite s =
      { s with
        bus := { s.bus with
          hReady := true, hErr := false, hRdata := rdataUnstated s.bus.drawNo, drawNo := s.bus.drawNo + 1 } } := rfl

/-- A wait state changes only the response ports and the draw counter. -/
theorem holdAccess_eq (s : State) :
    holdAccess s =
      { s with
        bus := { s.bus with
          hReady := false, hErr := false, hRdata := rdataUnstated s.bus.drawNo, drawNo := s.bus.drawNo + 1 } } := rfl

/-- A CMD write other than SLEEP is held, or completes with its acceptance. -/
theorem cmdWrite_cases (accept : State → State) (s : State) :
    (cmdHeld s = true ∧ cmdWrite accept s = .next (holdAccess s)) ∨
      (cmdHeld s = false ∧ cmdWrite accept s = .next (respondWrite (accept s))) := by
  unfold cmdWrite
  cases cmdHeld s <;> simp

/-! ## Errors -/

/-- What `raiseErr` leaves alone, whichever error it records (60_exceptions.md R350, R360). -/
theorem raiseErr_frame (e : ErrorCode) (s : State) :
    (raiseErr e s).params = s.params ∧ (raiseErr e s).engine = s.engine ∧ (raiseErr e s).pins = s.pins ∧
      (raiseErr e s).fb = s.fb ∧ (raiseErr e s).sleep = s.sleep ∧ (raiseErr e s).fifo = s.fifo ∧
      (raiseErr e s).rst = s.rst ∧ (raiseErr e s).env = s.env ∧ (raiseErr e s).bus.hostQ = s.bus.hostQ ∧
      (raiseErr e s).consumer.rptr = s.consumer.rptr ∧ (raiseErr e s).consumer.rptrGray = s.consumer.rptrGray ∧
      (raiseErr e s).consumer.wsync = s.consumer.wsync := by
  cases e <;> exact ⟨rfl, rfl, rfl, rfl, rfl, rfl, rfl, rfl, rfl, rfl, rfl, rfl⟩

/-- Where each error is recorded (60_exceptions.md R351). -/
theorem raiseErr_records (s : State) :
    (raiseErr .busErr s).bus.hErr = true ∧ (raiseErr .cmdErr s).regs.cmdErr = true ∧
      (raiseErr .evqOvf s).producer.ovf = true ∧ (raiseErr .evqMrg s).producer.mrg = true ∧
      (raiseErr .evqRej s).producer.rej = true ∧ (raiseErr .armFail s).power.armFail = true ∧
      (raiseErr .dis1Fail s).power.dis1Fail = true ∧ (raiseErr .fatal s).power.pstate = .fatal :=
  ⟨rfl, rfl, rfl, rfl, rfl, rfl, rfl, rfl⟩

/-! ## The event FIFO -/

/-- A put on a full producer view. -/
theorem putEvent_full {s : State} (v : Byte) (h : fullP s = true) : putEvent v s = raiseErr .evqOvf s := by
  simp [putEvent, h]

/-- A put with room. -/
theorem putEvent_room {s : State} (v : Byte) (h : fullP s = false) :
    putEvent v s =
      { s with
        fifo := s.fifo.set (slotOf s.producer.wptr).toNat v
        producer := { s.producer with
          wptr := s.producer.wptr + 1#5, wptrGray := bin2gray (s.producer.wptr + 1#5) }
        consumer := { s.consumer with wsync := s.consumer.wsync.push (bin2gray (s.producer.wptr + 1#5)) } } := by
  simp [putEvent, h]
  rfl

/-- Draining a latch does not change the producer view. -/
@[simp] theorem fullP_drain (q : Source) (s : State) : fullP (drain q s) = fullP s := by
  cases q <;> rfl

/-- Draining a latch does not move the write pointer. -/
@[simp] theorem drain_wptr (q : Source) (s : State) : (drain q s).producer.wptr = s.producer.wptr := by
  cases q <;> rfl

/-- A pop of an empty consumer view. -/
theorem popEvent_empty {s : State} (h : emptyC s = true) : popEvent s = respondRead 0#32 s := by
  simp [popEvent, h]

/-- A pop of a consumer view that holds an event. -/
theorem popEvent_some {s : State} (h : emptyC s = false) :
    popEvent s =
      { s with
        bus := { s.bus with
          hReady := true, hErr := false, hRdata := (fifoRead s (slotOf s.consumer.rptr)).setWidth 32 }
        consumer := { s.consumer with
          rptr := s.consumer.rptr + 1#5, rptrGray := bin2gray (s.consumer.rptr + 1#5) }
        producer := { s.producer with rsync := s.producer.rsync.push (bin2gray (s.consumer.rptr + 1#5)) } } := by
  simp [popEvent, h]
  rfl

/-! ## BUSY -/

/-- BUSY is 0 exactly with the engine IDLE and no sleep handshake outstanding (10_state.md R44). -/
theorem busy_eq_false {s : State} : busy s = false ↔ s.engine.estate = .idle ∧ s.sleep.pwrReqTgl = pwrAckSync s := by
  simp [busy]

/-! ## Synchronisers -/

/-- The newest value of the window after the source takes a value. -/
@[simp] theorem Cross.push_held_last {α : Type} (v : α) (x : Cross α) : (x.push v).held.getLast? = some v := by
  simp [Cross.push]

/-- A source that takes a value does not touch the chain. -/
@[simp] theorem Cross.push_chain {α : Type} (v : α) (x : Cross α) : (x.push v).chain = x.chain := rfl

/-- The end of a window keeps the stages. -/
@[simp] theorem Cross.close_chain {α : Type} (d : α) (x : Cross α) : (x.close d).chain = x.chain := rfl

/-- The next window opens with the newest value of the one that ends. -/
theorem Cross.close_held {α : Type} (d : α) {x : Cross α} {v : α} (h : x.held.getLast? = some v) :
    (x.close d).held = [v] := by
  simp [Cross.close, List.getLastD_eq_getLast?, h]

/-- A destination edge keeps the number of stages. -/
@[simp] theorem Cross.clock_chain_length {α : Type} (d : α) (n : Nat) (x : Cross α) :
    (x.clock d n).chain.length = x.chain.length := by
  simp [Cross.clock]

/-- A destination edge opens the next window with the newest value of this one. -/
theorem Cross.clock_held {α : Type} (d : α) (n : Nat) {x : Cross α} {v : α} (h : x.held.getLast? = some v) :
    (x.clock d n).held = [v] := Cross.close_held d h

/-- What the first stage samples is one of the values of the window (20_memory.md R107). -/
theorem Cross.sample_mem {α : Type} (d : α) (n : Nat) {x : Cross α} (h : x.held ≠ []) : x.sample d n ∈ x.held := by
  have hl : 0 < x.held.length := List.length_pos_iff.2 h
  have hn : n % x.held.length < x.held.length := Nat.mod_lt _ hl
  simp [Cross.sample, List.getD_eq_getElem?_getD, List.getElem?_eq_getElem hn]

/-- An edge of an asynchronous input's chain keeps the number of stages. -/
@[simp] theorem chainClock_length {α : Type} (v : α) (c : List α) : (chainClock v c).length = c.length := by
  simp [chainClock]

/-- A crossing that has settled shows its value. -/
@[simp] theorem Cross.out_settled {α : Type} (d v : α) (n : Nat) (h : 0 < n) : (Cross.settled n v).out d = v := by
  obtain ⟨n, rfl⟩ : ∃ k, n = k + 1 := ⟨n - 1, by omega⟩
  simp [Cross.out, chainOut, Cross.settled, List.getLastD_eq_getLast?, List.getLast?_replicate]

/-! ## The engine -/

/-- The start of a byte in the phase the mode flag already has. -/
theorem startByte_same {dc : Bool} {s : State} (b : Byte) (h : s.engine.mode = wantMode dc) :
    startByte dc b s =
      { s with
        engine := { s.engine with ebyte := b, eshift := b, ebit := 8, esetup := false, ecnt := halfT s }
        pins := { s.pins with lcdSdin := b.getLsbD 7 } } := by
  simp [startByte, h]
  rfl

/-- The start of a byte that changes the phase. -/
theorem startByte_other {dc : Bool} {s : State} (b : Byte) (h : s.engine.mode ≠ wantMode dc) :
    startByte dc b s =
      { s with
        engine := { s.engine with
          ebyte := b, mode := wantMode dc, ebit := 8, esetup := true, ecnt := halfT s }
        pins := { s.pins with lcdDc := dc } } := by
  simp [startByte, h]
  rfl

/-- Starting a byte touches the engine and its pins only. -/
theorem startByte_frame (dc : Bool) (b : Byte) (s : State) :
    ∃ e p, startByte dc b s = { s with engine := e, pins := p } := by
  by_cases h : s.engine.mode = wantMode dc
  · exact ⟨_, _, startByte_same b h⟩
  · exact ⟨_, _, startByte_other b h⟩

/-- The phase and the byte of an LCD byte instruction (30_encoding.md R129). -/
def lcdForm : Instr → Option (Bool × Byte)
  | .lcdFuncset _ p v hx => some (false, 0b00100#5 ++ p ++ v ++ hx)
  | .lcdDispctl d e => some (false, 0b00001#5 ++ d ++ 0#1 ++ e)
  | .lcdSety y => some (false, 0b01000#5 ++ y)
  | .lcdSetx x => some (false, 1#1 ++ x)
  | .lcdTempctl tc => some (false, 0b000001#6 ++ tc)
  | .lcdSetbias b => some (false, 0b00010#5 ++ b)
  | .lcdSetvop v => some (false, 1#1 ++ v)
  | .lcdData _ d => some (true, d)
  | _ => none

/-- What an LCD byte decodes to has that byte and that phase, whatever the mode. -/
theorem lcdForm_decodeLcd : ∀ (dc h : Bool) (b : Byte),
    (match decodeLcd (0#6 ++ BitVec.ofBool dc ++ BitVec.ofBool h ++ b) with
      | .ok i => decide (lcdForm i = some (dc, b))
      | .error _ => true) = true := by
  decide +kernel

/-- Running an LCD byte instruction starts its byte in its phase. -/
theorem exec_of_lcdForm {i : Instr} {dc : Bool} {b : Byte} (h : lcdForm i = some (dc, b)) (s : State) :
    exec i s = .next (startByte dc b s) := by
  cases i <;> simp only [lcdForm, Option.some.injEq, Prod.mk.injEq, reduceCtorEq] at h <;>
    (obtain ⟨rfl, rfl⟩ := h; rfl)

/-- Whatever LCD byte instruction a pattern decodes to, running it starts that pattern's byte in its phase. -/
theorem exec_lcd_eq_startByte {dc h : Bool} {b : Byte} {i : Instr}
    (hi : decodeLcd (0#6 ++ BitVec.ofBool dc ++ BitVec.ofBool h ++ b) = .ok i) (s : State) :
    exec i s = .next (startByte dc b s) := by
  have hk := lcdForm_decodeLcd dc h b
  rw [hi] at hk
  exact exec_of_lcdForm (of_decide_eq_true hk) s

end Sys2Proof.Machine
end

