-- ==== Sys2Proof/Laws/Edge.lean ====
section
/-! SUPPORT. What the stages of a clock edge touch, and the equations of the power FSM, one for each state. -/

namespace Sys2Proof.Machine

open Sys2Proof Sys2Proof.Config

/-- `t` differs from `s` at most in what the LCD engine owns: its own state, its pins, the framebuffer and the register
fields (10_state.md R33, R49, R50). -/
def EngineOnly (s t : State) : Prop :=
  ∃ e p f r, t = { s with engine := e, pins := p, fb := f, regs := r }

theorem EngineOnly.refl (s : State) : EngineOnly s s := ⟨_, _, _, _, rfl⟩

theorem EngineOnly.trans {s t u : State} (h : EngineOnly s t) (k : EngineOnly t u) : EngineOnly s u := by
  obtain ⟨e, p, f, r, rfl⟩ := h
  obtain ⟨e', p', f', r', rfl⟩ := k
  exact ⟨e', p', f', r', rfl⟩

/-- The start of an action stays within the engine. -/
theorem startAction_only (a : Action) (s : State) : EngineOnly s (startAction a s).1 := by
  cases a <;> exact ⟨_, _, _, _, rfl⟩

/-- The start of the rest of a list stays within the engine. -/
theorem startFrom_only (as : List Action) (s : State) : EngineOnly s (startFrom as s).1 := by
  induction as generalizing s with
  | nil => exact ⟨_, _, _, _, rfl⟩
  | cons a as ih =>
    unfold startFrom
    split
    · contradiction
    · rename_i heq
      obtain ⟨-, rfl⟩ := List.cons.inj heq
      exact EngineOnly.trans ⟨_, _, _, _, rfl⟩ (ih _)
    · exact startAction_only _ _

/-- The end of an action stays within the engine. -/
theorem nextAction_only (s : State) : EngineOnly s (nextAction s).1 :=
  EngineOnly.trans ⟨_, _, _, _, rfl⟩ (startFrom_only _ _)

/-- The end of a byte stays within the engine. -/
theorem finishByte_only (dc : Bool) (s : State) : EngineOnly s (finishByte dc s) := by
  unfold finishByte
  split <;> exact ⟨_, _, _, _, rfl⟩

/-- The waits inside a byte stay within the engine. -/
theorem byteEdge_only (dc : Bool) (s : State) : EngineOnly s (byteEdge dc s).1 := by
  unfold byteEdge
  split
  · exact ⟨_, _, _, _, rfl⟩
  · split
    · exact ⟨_, _, _, _, rfl⟩
    · split
      · exact EngineOnly.trans (EngineOnly.trans ⟨_, _, _, _, rfl⟩ (finishByte_only _ _)) (nextAction_only _)
      · exact ⟨_, _, _, _, rfl⟩

/-- One clk cycle of the engine stays within the engine. -/
theorem engineEdge_only (s : State) : EngineOnly s (engineEdge s).1 := by
  unfold engineEdge
  split
  · exact ⟨_, _, _, _, rfl⟩
  · split
    · exact ⟨_, _, _, _, rfl⟩
    · unfold actionEdge
      split
      all_goals
        first
        | exact EngineOnly.trans ⟨_, _, _, _, rfl⟩ (nextAction_only _)
        | exact EngineOnly.trans ⟨_, _, _, _, rfl⟩ (byteEdge_only _ _)

/-- A byte the serializer starts is started, whatever form its pattern has. -/
theorem sendByte_eq (dc : Bool) (b : Byte) (s : State) : sendByte exec dc b s = .next (startByte dc b s) := by
  unfold sendByte lcdWord
  split
  · exact exec_lcd_eq_startByte (by assumption) s
  · rfl

/-- A pixel address is a byte of the framebuffer (20_memory.md R96). -/
theorem pixelAt_lt {r : BitVec 2} {x y : BitVec 12} {i k : Nat} (h : pixelAt r x y = some (i, k)) : i < fbBytes := by
  unfold pixelAt at h
  dsimp only at h
  split at h
  · rename_i hr
    simp [inRange] at hr
    simp [fbIndex] at h
    show i < 504
    omega
  · cases h

/-- Every framebuffer byte an op's actions name exists. -/
theorem actions_fbByte {p : Params} {op : BitVec 4} {args : BitVec 28} {r : BitVec 2} {a : Action} {i : Nat}
    (ha : a ∈ actions p op args r) (hi : a.fbByte = some i) : i < fbBytes := by
  have hf : fbBytes = 504 := rfl
  unfold actions at ha
  split at ha
  · unfold setpixActions at ha
    split at ha
    · rename_i h
      simp at ha
      subst ha
      simp [Action.fbByte] at hi
      exact hi ▸ pixelAt_lt h
    · cases ha
  split at ha
  · simp [getpixActions] at ha
    subst ha
    simp [Action.fbByte] at hi
    obtain ⟨k, hk⟩ := hi
    exact pixelAt_lt hk
  split at ha
  · simp [clearActions] at ha
    obtain ⟨n, hn, rfl⟩ := ha
    simp [Action.fbByte] at hi
    omega
  split at ha
  · simp [flushActions] at ha
    rcases ha with rfl | rfl | rfl | ⟨n, hn, rfl⟩ | rfl <;> simp [Action.fbByte] at hi
    omega
  repeat' split at ha
  · simp [initActions] at ha
    rcases ha with rfl | rfl | rfl | rfl | rfl | rfl | rfl | rfl | rfl | rfl | rfl <;> simp [Action.fbByte] at hi
  · simp [setcontrastActions] at ha
    rcases ha with rfl | rfl | rfl | rfl | rfl <;> simp [Action.fbByte] at hi
  · simp [dispctlActions] at ha
    rcases ha with rfl | rfl | rfl <;> simp [Action.fbByte] at hi
  · simp [settempcoActions] at ha
    rcases ha with rfl | rfl | rfl | rfl | rfl <;> simp [Action.fbByte] at hi
  · cases ha

/-- The guard of the engine stage never fires (log 23). -/
theorem outsideByte_none (s : State) (n : Nat) : outsideByte s n = none := by
  unfold outsideByte
  rw [Option.filter_eq_none_iff]
  intro i hi
  obtain ⟨a, ha, hb⟩ := Option.bind_eq_some_iff.1 hi
  simpa using actions_fbByte (List.mem_of_getElem? ha) hb

/-- What the engine stage does: one clk cycle of the engine, and the start of the byte that begins there. -/
theorem engineStage_eq (s : State) : engineStage exec s = .next (startDue (engineEdge s)) := by
  unfold engineStage startDue
  simp only [outsideByte_none]
  split <;> simp_all [sendByte_eq]

/-- Where the engine stage goes on, it stays within the engine. -/
theorem engineStage_only {s t : State} (h : engineStage exec s = .next t) : EngineOnly s t := by
  unfold engineStage at h
  split at h
  · exact absurd h (by simp)
  · exact absurd h (by simp)
  · have he := engineEdge_only s
    split at h
    · rename_i hr
      rw [hr] at he
      cases h
      exact he
    · rename_i dc b hr
      rw [hr] at he
      rw [sendByte_eq] at h
      cases h
      obtain ⟨e, p, hs⟩ := startByte_frame dc b _
      exact he.trans (hs ▸ ⟨e, p, _, _, rfl⟩)

/-! ## The power FSM, one equation a state (43_power.md R284 to R294) -/

section
variable (a : AonIn) (src : BitVec 5) {s : State}

theorem powerEdge_idle (h : s.power.pstate = .idle) :
    powerEdge a src s =
      if pwrReqSync s = s.power.pwrAckTgl then s.withPower (s.power.tick a src)
      else startSleepOp (s.withPower (s.power.tick a src)) := by
  simp only [powerEdge, h]

theorem powerEdge_disarm1 (h : s.power.pstate = .disarm1) :
    powerEdge a src s =
      if s.power.wktWait && a.wktAck then disarm1Response a.wktOk (s.withPower (s.power.tick a src))
      else s.withPower (s.power.tick a src) := by
  simp only [powerEdge, h]

theorem powerEdge_arm (h : s.power.pstate = .arm) :
    powerEdge a src s =
      if s.power.wktWait && a.wktAck then
        armResponse a.wktOk (s.power.wakePend || src != 0#5) (s.withPower (s.power.tick a src))
      else s.withPower (s.power.tick a src) := by
  simp only [powerEdge, h]

theorem powerEdge_sleep (h : s.power.pstate = .sleep) :
    powerEdge a src s =
      if s.power.wakePend || src != 0#5 then
        issueAndEnter false .disarm2 (s.withPower (s.power.tick a src))
      else s.withPower (s.power.tick a src) := by
  simp only [powerEdge, h]

theorem powerEdge_disarm2 (h : s.power.pstate = .disarm2) :
    powerEdge a src s =
      if s.power.wktWait && a.wktAck then disarm2Response a.wktOk (s.withPower (s.power.tick a src))
      else s.withPower (s.power.tick a src) := by
  simp only [powerEdge, h]

theorem powerEdge_restore (h : s.power.pstate = .restore) :
    powerEdge a src s =
      if a.restoreAck then completePower (s.withPower (s.power.tick a src))
      else s.withPower (s.power.tick a src) := by
  simp only [powerEdge, h]

theorem powerEdge_fatal (h : s.power.pstate = .fatal) :
    powerEdge a src s = s.withPower (s.power.tick a src) := by
  simp only [powerEdge, h]

end

/-! ## The aon_clk edge -/

/-- The word a source puts: its event code, or the one held in the external latch (42_event_fifo.md R240, R249). -/
def Source.word (q : Source) (s : State) : Byte :=
  match q with
  | .timer => 0x02#8
  | .keyLeft => 0x03#8
  | .keyUp => 0x04#8
  | .keyDown => 0x05#8
  | .keyRight => 0x06#8
  | .keyEnter => 0x07#8
  | .ext => s.producer.pendExtCode

/-- Running the put of a source is the put stage with its word. -/
theorem exec_sourceInstr (q : Source) (s : State) : exec (q.instr s) s = .next (putFrom q (q.word s) s) := by
  cases q <;> rfl

/-- What the put stage touches: the FIFO RAM, the producer and the windows into clk; among the producer's registers the
write pointer, `ovf` and the selected latch. -/
theorem putFrom_only (q : Source) (v : Byte) (s : State) :
    ∃ f p c, putFrom q v s = { s with fifo := f, producer := p, consumer := c } ∧
      p.pend = (drain q s).producer.pend ∧ p.pendExt = (drain q s).producer.pendExt ∧
      p.extEvReady = (drain q s).producer.extEvReady ∧ p.pendExtCode = s.producer.pendExtCode ∧
      p.mrg = s.producer.mrg ∧ p.rej = s.producer.rej ∧ p.rsync = s.producer.rsync ∧
      p.ksync = s.producer.ksync ∧ p.kprev = s.producer.kprev ∧ c.rptr = s.consumer.rptr ∧
      c.rptrGray = s.consumer.rptrGray ∧ c.wsync.chain = s.consumer.wsync.chain ∧
      c.ovfSync.chain = s.consumer.ovfSync.chain ∧ c.mrgSync = s.consumer.mrgSync ∧
      c.rejSync = s.consumer.rejSync ∧ c.fatalSync = s.consumer.fatalSync := by
  unfold putFrom putEvent
  split <;> cases q <;>
    exact ⟨_, _, _, rfl, rfl, rfl, rfl, rfl, rfl, rfl, rfl, rfl, rfl, rfl, rfl, rfl, rfl, rfl, rfl, rfl⟩

/-- The capture touches the producer's latches and the window of `mrg`. -/
theorem capture_only (a : AonIn) (pre s : State) : ∃ p c, capture a pre s = { s with producer := p, consumer := c } := by
  unfold capture
  dsimp only
  split <;> exact ⟨_, _, rfl⟩

/-- The put and reject stages of an aon_clk edge always go on, and touch the FIFO RAM, the producer and the windows into
clk only. -/
theorem aonEdge_stages {s : State} (a : AonIn) (h : s.rst.aonInRst = false) :
    ∃ f p c, aonEdge exec a s = .next (aonRest a s { s with fifo := f, producer := p, consumer := c }) := by
  unfold aonEdge putStage rejectStage
  simp only [h, Bool.false_eq_true, if_false]
  cases select s with
  | none =>
    simp only [andThen]
    by_cases hr : extRejected a = true
    · simp only [hr, if_true]
      exact ⟨_, _, _, rfl⟩
    · simp only [hr]
      exact ⟨_, _, _, rfl⟩
  | some q =>
    obtain ⟨f, p, c, he, -⟩ := putFrom_only q (q.word s) s
    simp only [exec_sourceInstr, andThen, he]
    by_cases hr : extRejected a = true
    · simp only [hr, if_true]
      exact ⟨_, _, _, rfl⟩
    · simp only [hr]
      exact ⟨_, _, _, rfl⟩

/-- The power state after an aon_clk edge is that of the power FSM at that edge, but for the two chains, which take one
edge. -/
theorem aonEdge_power {s : State} (a : AonIn) (h : s.rst.aonInRst = false) :
    ∃ f p c u, aonEdge exec a s = .next u ∧
      u.power =
        { (powerEdge a (wakeSources a s) { s with fifo := f, producer := p, consumer := c }).power with
          reqChain :=
            (powerEdge a (wakeSources a s) { s with fifo := f, producer := p, consumer := c }).power.reqChain.clock
              false a.reqPick
          irqChain :=
            chainClock a.irqAny
              (powerEdge a (wakeSources a s) { s with fifo := f, producer := p, consumer := c }).power.irqChain } := by
  obtain ⟨f, p, c, hu⟩ := aonEdge_stages a h
  obtain ⟨p', c', hc⟩ := capture_only a s { s with fifo := f, producer := p, consumer := c }
  exact ⟨f, p', c', _, hu, by rw [← hc]; rfl⟩

end Sys2Proof.Machine
end

