-- ==== Sys2Proof/Laws/PerInstr.lean ====
section
/-! SUPPORT. Statements made for each instruction: `EncodedLength`, that an instruction is encoded in the number of bytes
of its kind (30_encoding.md R120, R128, R131, R132). -/

namespace Sys2Proof.Laws

open Sys2Proof

/-- `toBytes` gives as many bytes as it is asked for. -/
theorem toBytes_length (n w : Nat) : (toBytes n w).length = n := by
  induction n generalizing w with
  | zero => rfl
  | succ n ih => simp [toBytes, ih]

/-- An instruction is encoded in the number of bytes of its kind. -/
def EncodedLength.Statement (i : Instr) : Prop := (encode i).length = kindBytes i.kind

/-- Every encoding has its kind's length. -/
theorem encode_length (i : Instr) : EncodedLength.Statement i := toBytes_length _ _

theorem EncodedLength.nop (rsv : BitVec 28) : EncodedLength.Statement (.nop rsv) := encode_length _
theorem EncodedLength.setpix (x y : BitVec 12) (c : BitVec 1) (rsv : BitVec 3) : EncodedLength.Statement (.setpix x y c rsv) := encode_length _
theorem EncodedLength.getpix (x y : BitVec 12) (rsv : BitVec 4) : EncodedLength.Statement (.getpix x y rsv) := encode_length _
theorem EncodedLength.clear (rsv : BitVec 28) : EncodedLength.Statement (.clear rsv) := encode_length _
theorem EncodedLength.flush (rsv : BitVec 28) : EncodedLength.Statement (.flush rsv) := encode_length _
theorem EncodedLength.init (contrast bias : BitVec 8) (rsv : BitVec 12) : EncodedLength.Statement (.init contrast bias rsv) := encode_length _
theorem EncodedLength.setcontrast (value : BitVec 8) (rsv : BitVec 20) : EncodedLength.Statement (.setcontrast value rsv) := encode_length _
theorem EncodedLength.dispctl (mode : BitVec 2) (rsv : BitVec 26) : EncodedLength.Statement (.dispctl mode rsv) := encode_length _
theorem EncodedLength.settempco (tc : BitVec 2) (rsv : BitVec 26) : EncodedLength.Statement (.settempco tc rsv) := encode_length _
theorem EncodedLength.sleep (dur : BitVec 24) (deep : BitVec 1) (rsv : BitVec 3) : EncodedLength.Statement (.sleep dur deep rsv) := encode_length _
theorem EncodedLength.rsvdA (arg : BitVec 28) : EncodedLength.Statement (.rsvdA arg) := encode_length _
theorem EncodedLength.rsvdB (arg : BitVec 28) : EncodedLength.Statement (.rsvdB arg) := encode_length _
theorem EncodedLength.rsvdC (arg : BitVec 28) : EncodedLength.Statement (.rsvdC arg) := encode_length _
theorem EncodedLength.rsvdD (arg : BitVec 28) : EncodedLength.Statement (.rsvdD arg) := encode_length _
theorem EncodedLength.rsvdE (arg : BitVec 28) : EncodedLength.Statement (.rsvdE arg) := encode_length _
theorem EncodedLength.rsvdF (arg : BitVec 28) : EncodedLength.Statement (.rsvdF arg) := encode_length _
theorem EncodedLength.lcdFuncset (h p v hx : BitVec 1) : EncodedLength.Statement (.lcdFuncset h p v hx) := encode_length _
theorem EncodedLength.lcdDispctl (d e : BitVec 1) : EncodedLength.Statement (.lcdDispctl d e) := encode_length _
theorem EncodedLength.lcdSety (y : BitVec 3) : EncodedLength.Statement (.lcdSety y) := encode_length _
theorem EncodedLength.lcdSetx (x : BitVec 7) : EncodedLength.Statement (.lcdSetx x) := encode_length _
theorem EncodedLength.lcdTempctl (tc : BitVec 2) : EncodedLength.Statement (.lcdTempctl tc) := encode_length _
theorem EncodedLength.lcdSetbias (bias : BitVec 3) : EncodedLength.Statement (.lcdSetbias bias) := encode_length _
theorem EncodedLength.lcdSetvop (vop : BitVec 7) : EncodedLength.Statement (.lcdSetvop vop) := encode_length _
theorem EncodedLength.lcdData (h : BitVec 1) (d : Byte) : EncodedLength.Statement (.lcdData h d) := encode_length _
theorem EncodedLength.rdId : EncodedLength.Statement .rdId := encode_length _
theorem EncodedLength.wrId (v : Word) : EncodedLength.Statement (.wrId v) := encode_length _
theorem EncodedLength.rdCtrl : EncodedLength.Statement .rdCtrl := encode_length _
theorem EncodedLength.wrCtrl (v : Word) : EncodedLength.Statement (.wrCtrl v) := encode_length _
theorem EncodedLength.rdStatus : EncodedLength.Statement .rdStatus := encode_length _
theorem EncodedLength.wrStatus (v : Word) : EncodedLength.Statement (.wrStatus v) := encode_length _
theorem EncodedLength.rdCmd : EncodedLength.Statement .rdCmd := encode_length _
theorem EncodedLength.wrCmd (w : Word) : EncodedLength.Statement (.wrCmd w) := encode_length _
theorem EncodedLength.rdResult : EncodedLength.Statement .rdResult := encode_length _
theorem EncodedLength.wrResult (v : Word) : EncodedLength.Statement (.wrResult v) := encode_length _
theorem EncodedLength.rdEvqPop : EncodedLength.Statement .rdEvqPop := encode_length _
theorem EncodedLength.wrEvqPop (v : Word) : EncodedLength.Statement (.wrEvqPop v) := encode_length _
theorem EncodedLength.rdEvqStat : EncodedLength.Statement .rdEvqStat := encode_length _
theorem EncodedLength.wrEvqStat (v : Word) : EncodedLength.Statement (.wrEvqStat v) := encode_length _
theorem EncodedLength.rdPwrStat : EncodedLength.Statement .rdPwrStat := encode_length _
theorem EncodedLength.wrPwrStat (v : Word) : EncodedLength.Statement (.wrPwrStat v) := encode_length _
theorem EncodedLength.rdRsvd20 (n : BitVec 3) : EncodedLength.Statement (.rdRsvd20 n) := encode_length _
theorem EncodedLength.rdRsvd40 (n : BitVec 4) : EncodedLength.Statement (.rdRsvd40 n) := encode_length _
theorem EncodedLength.rdRsvd80 (n : BitVec 5) : EncodedLength.Statement (.rdRsvd80 n) := encode_length _
theorem EncodedLength.wrRsvd20 (n : BitVec 3) (v : Word) : EncodedLength.Statement (.wrRsvd20 n v) := encode_length _
theorem EncodedLength.wrRsvd40 (n : BitVec 4) (v : Word) : EncodedLength.Statement (.wrRsvd40 n v) := encode_length _
theorem EncodedLength.wrRsvd80 (n : BitVec 5) (v : Word) : EncodedLength.Statement (.wrRsvd80 n v) := encode_length _
theorem EncodedLength.busErr (write : BitVec 1) (off : BitVec 8) (size : BitVec 2) : EncodedLength.Statement (.busErr write off size) := encode_length _
theorem EncodedLength.putTimer : EncodedLength.Statement .putTimer := encode_length _
theorem EncodedLength.putKeyleft : EncodedLength.Statement .putKeyleft := encode_length _
theorem EncodedLength.putKeyup : EncodedLength.Statement .putKeyup := encode_length _
theorem EncodedLength.putKeydown : EncodedLength.Statement .putKeydown := encode_length _
theorem EncodedLength.putKeyright : EncodedLength.Statement .putKeyright := encode_length _
theorem EncodedLength.putKeyenter : EncodedLength.Statement .putKeyenter := encode_length _
theorem EncodedLength.putExt (e : Byte) : EncodedLength.Statement (.putExt e) := encode_length _
theorem EncodedLength.extReject (e : Byte) : EncodedLength.Statement (.extReject e) := encode_length _

end Sys2Proof.Laws
end

