-- ==== Sys2Proof/Tests/Slice0.lean ====
section
/-! SUPPORT. Tests of the model's own: ill-formed terms, words written out from the spec's encodings, one step of each
instruction with values from 95_test_vectors.md or the rules, and for each statement with hypotheses a state and
operands that meet them. -/

namespace Sys2Proof.Tests

open Sys2Proof Sys2Proof.Config Sys2Proof.Machine Sys2Proof.Safety

/-! ## Ill-formed terms are refused -/

/-- Each check of `Instr.wf` refuses a term: bank 6, column 84, a legal access as a bus error, a code that is not
storable put, a storable one rejected (30_encoding.md R127, R129; 20_memory.md R91). -/
theorem test_wf_refuses :
    [Instr.lcdSety 6#3, .lcdSetx 84#7, .busErr 0#1 0x04#8 2#2, .putExt 0x00#8, .putExt 0x08#8, .putExt 0x7F#8,
      .extReject 0x01#8, .extReject 0x07#8, .extReject 0x80#8].map Instr.wf = List.replicate 9 false := by decide

/-- The boundary values are accepted. -/
theorem test_wf_accepts :
    [Instr.lcdSety 5#3, .lcdSetx 83#7, .busErr 1#1 0x16#8 2#2, .busErr 0#1 0x08#8 0#2, .putExt 0x01#8, .putExt 0x07#8,
      .putExt 0x80#8, .putExt 0xFF#8, .extReject 0x00#8, .extReject 0x7F#8].map Instr.wf =
      List.replicate 10 true := by decide

/-! ## Words written out from the encodings -/

/-- CMD words (95_test_vectors.md 2.1; 30_encoding.md R122 to R124): opcode in [31:28]. -/
theorem test_decode_cmd :
    [0b0000_0000000000000000000000000000#32, 0b0001_000_1_000000000101_000000001010#32,
      0b0010_0000_111111111111_111111111111#32, 0b0011_0000000000000000000000000000#32,
      0b0100_0000000000000000000000000000#32, 0b0101_000000000000_00001001_11001000#32,
      0b0110_00000000000000000000_11001000#32, 0b0111_00000000000000000000000000_11#32,
      0b1000_00000000000000000000000000_10#32, 0b1001_000_1_000000000000001111101000#32].map decodeCmd =
    [.nop 0#28, .setpix 10#12 5#12 1#1 0#3, .getpix 0xFFF#12 0xFFF#12 0#4, .clear 0#28, .flush 0#28,
      .init 200#8 9#8 0#12, .setcontrast 200#8 0#20, .dispctl 3#2 0#26, .settempco 2#2 0#26,
      .sleep 1000#24 1#1 0#3] := by decide

/-- Reserved opcodes (30_encoding.md R124). -/
theorem test_decode_reserved :
    [0xA0000001#32, 0xB0000002#32, 0xC0000003#32, 0xD0000004#32, 0xE0000005#32, 0xFFFFFFFF#32].map decodeCmd =
    [.rsvdA 1#28, .rsvdB 2#28, .rsvdC 3#28, .rsvdD 4#28, .rsvdE 5#28, .rsvdF 0xFFFFFFF#28] := by decide

/-- 0x1E001001 is `setpix 1, 1, 0` with reserved bits set (95_test_vectors.md 2.1). -/
theorem test_decode_reserved_bits : decodeCmd 0x1E001001#32 = .setpix 1#12 1#12 0#1 7#3 := by decide

/-- LCD bytes as `dc`, `h` and the byte (30_encoding.md R129). -/
theorem test_decode_lcd :
    [0b00_0010_0001#10, 0b01_0010_0110#10, 0b00_0000_1101#10, 0b00_0100_0101#10, 0b00_1101_0011#10,
      0b01_0000_0110#10, 0b01_0001_0100#10, 0b01_1011_1111#10, 0b11_1010_0101#10].map
        (fun w => (decodeLcd (w.setWidth 16)).toOption) =
    [some (.lcdFuncset 0#1 0#1 0#1 1#1), some (.lcdFuncset 1#1 1#1 1#1 0#1), some (.lcdDispctl 1#1 1#1),
      some (.lcdSety 5#3), some (.lcdSetx 83#7), some (.lcdTempctl 2#2), some (.lcdSetbias 4#3),
      some (.lcdSetvop 63#7), some (.lcdData 1#1 0xA5#8)] := by decide

/-- Patterns of no form are rejected by name: the PCD8544's NOP byte, and bits above the ten (30_encoding.md R130). -/
theorem test_decode_lcd_rejects :
    (decodeLcd 0x0000#16).toOption = none ∧ (decodeLcd 0x0100#16).toOption = none ∧
      (decodeLcd 0x0410#16).toOption = none := by decide

/-- Word accesses of the eight registers and of the reserved ranges (10_state.md R39, 20_memory.md R92). -/
theorem test_decode_access :
    [readReq 0b000_000_00#8, writeReq 0b000_000_00#8 7#32, readReq 0b000_001_00#8, writeReq 0b000_001_00#8 7#32,
      readReq 0b000_010_00#8, writeReq 0b000_010_00#8 7#32, readReq 0b000_011_00#8, writeReq 0b000_011_00#8 7#32,
      readReq 0b000_100_00#8, writeReq 0b000_100_00#8 7#32, readReq 0b000_101_00#8, writeReq 0b000_101_00#8 7#32,
      readReq 0b000_110_00#8, writeReq 0b000_110_00#8 7#32, readReq 0b000_111_00#8, writeReq 0b000_111_00#8 7#32,
      readReq 0b001_010_00#8, writeReq 0b001_111_00#8 7#32, readReq 0b01_1010_00#8, writeReq 0b01_1111_00#8 7#32,
      readReq 0b1_11010_00#8, writeReq 0b1_11111_00#8 7#32].map decodeReq =
    [.rdId, .wrId 7#32, .rdCtrl, .wrCtrl 7#32, .rdStatus, .wrStatus 7#32, .rdCmd, .wrCmd 7#32, .rdResult,
      .wrResult 7#32, .rdEvqPop, .wrEvqPop 7#32, .rdEvqStat, .wrEvqStat 7#32, .rdPwrStat, .wrPwrStat 7#32,
      .rdRsvd20 2#3, .wrRsvd20 7#3 7#32, .rdRsvd40 0b1010#4, .wrRsvd40 15#4 7#32, .rdRsvd80 0b11010#5,
      .wrRsvd80 31#5 7#32] := by decide

/-- Illegal accesses: a byte read of STATUS (H7), a misaligned word read of EVQ_POP (H8), the reserved size. -/
theorem test_decode_bus_err :
    [{ write := false, off := 0x08#8, size := 0#2, wdata := 0#32 : HostReq },
      { write := false, off := 0x16#8, size := 2#2, wdata := 0#32 },
      { write := true, off := 0x0C#8, size := 3#2, wdata := 5#32 }].map decodeReq =
    [.busErr 0#1 0x08#8 0#2, .busErr 0#1 0x16#8 2#2, .busErr 1#1 0x0C#8 3#2] := by decide

/-- Event words with their sources (30_encoding.md R126, R127, R132). -/
theorem test_decode_event :
    [0x0002#16, 0x0003#16, 0x0004#16, 0x0005#16, 0x0006#16, 0x0007#16, 0x0081#16, 0x0102#16, 0x0108#16, 0x0202#16].map
        (fun w => (decodeEvent w).toOption) =
    [some .putTimer, some .putKeyleft, some .putKeyup, some .putKeydown, some .putKeyright, some .putKeyenter,
      some (.putExt 0x81#8), some (.putExt 0x02#8), some (.extReject 0x08#8), none] := by decide

/-! ## One step of each instruction -/

/-- A field of the state after an outcome, if it is a next state. -/
def after {α : Type} (o : Out) (f : State → α) : Option α :=
  match o with
  | .next t => some (f t)
  | _ => none

/-- The state after reset with framebuffer byte 10 holding `b`. -/
def withByte10 (b : Byte) : State := State.reset.withFb [(10, b)]

/-- The state after reset with the FIFO producer's latches all pending and `n` events already put. -/
def pending (n : Ptr) : State :=
  State.reset.withProducer
    { State.reset.producer with
      pend := 0x3F#6, pendExt := true, pendExtCode := 0x81#8, extEvReady := false, wptr := n, wptrGray := bin2gray n }

/-- The state after reset with an op in progress. -/
def running : State := State.reset.withEngine { State.reset.engine with estate := .run, eop := 3#4 }

/-- NOP (R152). -/
theorem test_nop :
    after (exec (.nop 0#28) State.reset) (fun t => (t.regs.done, t.engine.estate, t.bus.hReady)) =
      some (true, .idle, true) := by decide

/-- Vectors X3 and X6: `setpix 10, 5, 1` and `setpix 10, 3, 0`. -/
theorem test_setpix :
    after (andThen (exec (.setpix 10#12 5#12 1#1 0#3) (withByte10 0#8)) (engineRun 1)) (fun t => t.fb) =
        some [(10, 0x20#8)] ∧
      after (andThen (exec (.setpix 10#12 3#12 0#1 0#3) (withByte10 0xFF#8)) (engineRun 1)) (fun t => t.fb) =
        some [(10, 0xF7#8)] := by decide

/-- Vector X7: out of range. -/
theorem test_setpix_out_of_range :
    after (exec (.setpix 84#12 0#12 1#1 0#3) (withByte10 0#8))
      (fun t => (t.fb, t.regs.done, t.regs.cmdErr, t.engine.estate)) =
      some ([(10, 0#8)], true, false, .idle) := by decide

/-- Vectors X3 and X8: `getpix 10, 5`, and out of range. -/
theorem test_getpix :
    after (andThen (exec (.getpix 10#12 5#12 0#4) (withByte10 0x20#8)) (engineRun 1)) (fun t => t.regs.resultPix) =
        some true ∧
      after (andThen (exec (.getpix 84#12 0#12 0#4) (withByte10 0x20#8)) (engineRun 1)) (fun t => t.regs.resultPix) =
        some false := by decide

/-- Table R: a pixel of each rotation, and the edges of the range. -/
theorem test_pixelAt :
    [pixelAt 0#2 83#12 47#12, pixelAt 1#2 10#12 5#12, pixelAt 1#2 47#12 83#12, pixelAt 2#2 10#12 5#12,
      pixelAt 3#2 10#12 5#12, pixelAt 3#2 47#12 83#12, pixelAt 0#2 84#12 0#12, pixelAt 0#2 0xFFF#12 0#12,
      pixelAt 1#2 48#12 0#12, pixelAt 1#2 0#12 84#12, pixelAt 3#2 48#12 0#12] =
    [some (503, 7), some (162, 2), some (420, 7), some (493, 2), some (341, 5), some (83, 0), none, none, none, none,
      none] := by decide

/-- CLEAR (R157): the first byte is zeroed at the first edge, and the op goes on with the second. -/
theorem test_clear :
    after (andThen (exec (.clear 0#28) State.reset) (engineRun 1))
      (fun t => (t.fb, t.engine.eidx, t.engine.estate)) = some ([(0, 0#8)], 1, .run) := by decide +kernel

/-- FLUSH (R184): bus-select falls at acceptance. -/
theorem test_flush :
    after (exec (.flush 0#28) State.reset) (fun t => (t.pins.lcdSceN, t.engine.estate, t.regs.done)) =
      some (false, .run, false) := by decide +kernel

/-- INIT (R185): INIT_DONE falls at acceptance; vector C2, `init 200, 9`. -/
theorem test_init :
    after (exec (.init 200#8 9#8 0#12) State.reset) (fun t => (t.pins.lcdRstN, t.regs.initDone, t.engine.estate)) =
        some (false, false, .run) ∧
      (initActions resetParams 200#8 9#8).filter (fun a => match a with | .byte _ _ => true | _ => false) =
        [.byte false 0x21#8, .byte false 0x17#8, .byte false 0xFF#8, .byte false 0x20#8, .byte false 0x0C#8] := by
  decide

/-- Vectors C4, C5 and S1: `setcontrast 64` and `setcontrast 200`. -/
theorem test_setcontrast :
    setcontrastActions 64#8 =
        [.sce false, .byte false 0x21#8, .byte false 0xC0#8, .byte false 0x20#8, .sce true] ∧
      (setcontrastActions 200#8)[2]? = some (.byte false 0xFF#8) ∧
      after (exec (.setcontrast 64#8 0#20) State.reset) (fun t => t.engine.estate) = some .run := by decide

/-- Vector C7. -/
theorem test_dispctl :
    [0#2, 1#2, 2#2, 3#2].map (fun m => (dispctlActions m)[1]?) =
        [some (.byte false 0x08#8), some (.byte false 0x09#8), some (.byte false 0x0C#8),
          some (.byte false 0x0D#8)] ∧
      after (exec (.dispctl 3#2 0#26) State.reset) (fun t => t.engine.estate) = some .run := by decide

/-- Vector C8. -/
theorem test_settempco :
    [0#2, 1#2, 2#2, 3#2].map (fun m => (settempcoActions m)[2]?) =
        [some (.byte false 0x04#8), some (.byte false 0x05#8), some (.byte false 0x06#8),
          some (.byte false 0x07#8)] ∧
      after (exec (.settempco 3#2 0#26) State.reset) (fun t => t.engine.estate) = some .run := by decide

/-- Trace W1, step 1: `sleep.light 1000`. -/
theorem test_sleep :
    after (exec (.sleep 1000#24 0#1 0#3) State.reset)
      (fun t => (t.sleep.pwrReqTgl, t.sleep.slpDur, t.sleep.slpDeep, busy t, t.bus.hReady, t.regs.done)) =
      some (true, 1000#24, false, true, false, false) := by decide

/-- Vector H4: each reserved opcode sets CMD_ERR and DONE. -/
theorem test_reserved_opcodes :
    [Instr.rsvdA 0#28, .rsvdB 0#28, .rsvdC 0#28, .rsvdD 0#28, .rsvdE 0#28, .rsvdF 0#28].map
        (fun i => after (exec i State.reset) statusWord) = List.replicate 6 (some 0x30#32) := by decide

/-- The eight LCD bytes take their pattern, in their phase; the first byte after reset waits for its D/C setup, so the
shifter is still 0 (R182, R190 to R197). -/
theorem test_lcd_bytes :
    [Instr.lcdFuncset 0#1 0#1 0#1 1#1, .lcdDispctl 1#1 0#1, .lcdSety 0#3, .lcdSetx 0#7, .lcdTempctl 2#2,
      .lcdSetbias 4#3, .lcdSetvop 63#7, .lcdData 0#1 0xA5#8].map
        (fun i => after (exec i State.reset) (fun t => (t.engine.ebyte, t.engine.eshift, t.pins.lcdDc))) =
    [some (0x21#8, 0#8, false), some (0x0C#8, 0#8, false), some (0x40#8, 0#8, false), some (0x80#8, 0#8, false),
      some (0x06#8, 0#8, false), some (0x14#8, 0#8, false), some (0xBF#8, 0#8, false), some (0xA5#8, 0#8, true)] := by
  decide

/-- The end of the D/C setup loads the byte and puts its first bit out (R182): 0xA5 starts with a 1. -/
theorem test_byte_setup_ends :
    after (andThen (exec (.lcdDispctl 1#1 0#1) State.reset) fun t =>
        .next (byteEdge false (t.withEngine { t.engine with ebyte := 0xA5#8 })).1)
      (fun t => (t.engine.eshift, t.engine.mode, t.pins.lcdSdin)) = some (0xA5#8, .cmdp, true) := by decide

/-- The byte 0xA5 of the waveform in 95_test_vectors.md 2.4: the bits 1 0 1 0 0 1 0 1. -/
theorem test_byte_waveform :
    (byteBits false 0xA5#8).map Prod.snd = [true, false, true, false, false, true, false, true] := by decide

/-- Vectors H1, H3, H9, H11, and RESULT, EVQ_POP (F3), EVQ_STAT and PWR_STAT after reset. -/
theorem test_reads_after_reset :
    [Instr.rdId, .rdCtrl, .rdStatus, .rdCmd, .rdResult, .rdEvqPop, .rdEvqStat, .rdPwrStat, .rdRsvd20 0#3,
      .rdRsvd40 0#4, .rdRsvd80 0#5, .wrRsvd20 0#3 7#32, .wrRsvd40 0#4 7#32, .wrRsvd80 0#5 7#32].map
        (fun i => after (exec i State.reset) (fun t => (t.bus.hReady, t.bus.hErr, t.bus.hRdata))) =
    some (true, false, 0x56474C01#32) :: List.replicate 13 (some (true, false, 0#32)) := by decide

/-- Vector H2: `wr CTRL, 0xFFFFFFFF`, `rd CTRL`. -/
theorem test_ctrl :
    after (andThen (exec (.wrCtrl 0xFFFFFFFF#32) State.reset) (exec .rdCtrl)) (fun t => t.bus.hRdata) =
      some 0x33#32 := by decide

/-- Vectors H4 to H6: `wr STATUS` clears the bits written 1. -/
theorem test_status_w1c :
    after (andThen (exec (.rsvdA 0#28) State.reset) (exec (.wrStatus 0x10#32))) statusWord = some 0x20#32 ∧
      after (andThen (exec (.rsvdA 0#28) State.reset) (exec (.wrStatus 0x20#32))) statusWord = some 0x10#32 := by
  decide

/-- A CMD write and a RESULT read hold while an op runs; other reads do not (R93). -/
theorem test_holds :
    [Instr.wrCmd 0#32, .rdResult, .rdStatus, .rdCmd].map (fun i => after (exec i running) (fun t => t.bus.hReady)) =
      [some false, some false, some true, some true] := by decide

/-- A CMD write runs its word: 0xA0000000 is a reserved opcode (H4). -/
theorem test_wrCmd : after (exec (.wrCmd 0xA0000000#32) State.reset) statusWord = some 0x30#32 := by decide

/-- Vector H10 and R326, R332: ignored writes complete and change no register view. -/
theorem test_ignored_writes :
    [Instr.wrId 7#32, .wrResult 7#32, .wrEvqPop 7#32, .wrEvqStat 7#32, .wrPwrStat 7#32].map
        (fun i => after (exec i (pending 3#5)) (fun t => (t.bus.hReady, t.bus.hErr, t.regs, t.consumer.rptr))) =
      List.replicate 5 (some (true, false, State.reset.regs, 0#5)) := by decide

/-- Vector H7: the error response. -/
theorem test_bus_err :
    after (exec (.busErr 0#1 0x08#8 0#2) State.reset) (fun t => (t.bus.hReady, t.bus.hErr, t.bus.hRdata)) =
      some (true, true, 0#32) := by decide

/-- Each put stores its word and clears its latch (R240, R248, R249). -/
theorem test_puts :
    [Instr.putTimer, .putKeyleft, .putKeyup, .putKeydown, .putKeyright, .putKeyenter, .putExt 0x81#8].map
        (fun i => after (exec i (pending 3#5)) (fun t => (t.fifo, t.producer.pend, t.producer.pendExt))) =
    [some ([(3, 0x02#8)], 0b111110#6, true), some ([(3, 0x03#8)], 0b111101#6, true),
      some ([(3, 0x04#8)], 0b111011#6, true), some ([(3, 0x05#8)], 0b110111#6, true),
      some ([(3, 0x06#8)], 0b101111#6, true), some ([(3, 0x07#8)], 0b011111#6, true),
      some ([(3, 0x81#8)], 0b111111#6, false)] := by decide

/-- A put on 16 events is dropped with `ovf` (F1). -/
theorem test_put_full :
    [Instr.putTimer, .putKeyleft, .putKeyup, .putKeydown, .putKeyright, .putKeyenter, .putExt 0x81#8].map
        (fun i => after (exec i (pending 16#5)) (fun t => (t.fifo, t.producer.wptr, t.producer.ovf))) =
      List.replicate 7 (some ([], 16#5, true)) := by decide

/-- Vector F4: a code that is not storable. -/
theorem test_ext_reject :
    after (exec (.extReject 0x7F#8) State.reset) (fun t => (t.producer.rej, t.producer.pendExt, t.fifo)) =
      some (true, false, []) := by decide

/-- Vector F6: the order of the pending latches is Timer, KeyEnter, EXT (R247). -/
theorem test_select :
    select (pending 0#5) = some .timer ∧
      select ((pending 0#5).withProducer { (pending 0#5).producer with pend := 0b100000#6 }) = some .keyEnter ∧
      select ((pending 0#5).withProducer { (pending 0#5).producer with pend := 0#6 }) = some .ext := by decide

/-- The gray table and the full table of 95_test_vectors.md 2.5. -/
theorem test_gray :
    [8#5, 12#5, 16#5, 21#5, 31#5].map bin2gray = [0b01100#5, 0b01010#5, 0b11000#5, 0b11111#5, 0b10000#5] ∧
      fullP (pending 16#5) = true ∧ fullP (pending 15#5) = false := by decide

/-! ## Witnesses: states and operands that meet the hypotheses of the statements -/

/-- The state after reset, whose next tick is `t`. -/
def ticking (t : Tick) : State := State.reset.withEnv { State.reset.env with sched := [t] }

/-- The state after reset with the FSM in `st`, waiting for a timer response. -/
def powered (st : PowerState) : State :=
  State.reset.withPower { (State.reset.power.enter st) with wktWait := true }

/-- The state after reset with a sleep request that has crossed. -/
def requested : State :=
  State.reset.withPower { State.reset.power with reqChain := .settled 2 true }

/-- An op in progress that has just come to its first byte: FLUSH, its bus-select low. -/
def inByte : State :=
  (State.reset.withEngine { State.reset.engine with estate := .run, eop := 4#4, eidx := 1, ecnt := 1 }).withPins
    { State.reset.pins with lcdSceN := false }

theorem witness_DecodeInvertsEncode :
    (Instr.lcdSetx 83#7).wf = true ∧ (Instr.busErr 1#1 0x16#8 2#2).wf = true ∧ (Instr.putExt 0x80#8).wf = true := by
  decide

theorem witness_StepRunsThePresentedAccess :
    let s := (ticking (.clk quietClk)).withBus { State.reset.bus with hostQ := [readReq 0#8] }
    s.env.sched = [.clk quietClk] ∧ s.rst.clkInRst = false ∧ s.engine.estate = .idle ∧
      s.bus.hostQ ++ quietClk.req.toList = [readReq 0#8] ∧
      after (exec (decodeReq (readReq 0#8)) (s.withEnv { s.env with sched := [] })) (fun t => t.bus.hRdata) =
        some 0x56474C01#32 := by decide

/-- While an op runs: a STATUS poll, which answers BUSY as CLEAR goes on, and no access. -/
theorem witness_StepRunsThePresentedAccess_running :
    [[readReq 0x08#8], []].map (fun q =>
        let s := (running.withBus { running.bus with hostQ := q }).withEnv
          { running.env with sched := [.clk quietClk] }
        after (step s) (fun t => (t.bus.hRdata, t.bus.hostQ.length, t.engine.eidx, t.engine.estate))) =
      [some (1#32, 0, 1, .run), some (0#32, 0, 1, .run)] := by decide +kernel

theorem witness_StepRunsTheSelectedPut :
    let s := (pending 0#5).withEnv { State.reset.env with sched := [.aon quietAon] }
    s.env.sched = [.aon quietAon] ∧ s.rst.aonInRst = false ∧ extRejected quietAon = false ∧
      select (s.withEnv { s.env with sched := [] }) = some .timer ∧
      after (exec .putTimer (s.withEnv { s.env with sched := [] })) (fun t => t.producer.wptr) = some 1#5 := by decide

/-- The reject clauses: the codes at the ends of the ranges, a reject beside a put, and alone. -/
theorem witness_StepRunsTheSelectedPut_reject :
    [0x00#8, 0x01#8, 0x07#8, 0x08#8, 0x7F#8, 0x80#8].map
        (fun e => extRejected { quietAon with extValid := true, extCode := e }) =
      [true, false, false, true, true, false] ∧
      select State.reset = none ∧
      [pending 0#5, State.reset].map (fun s =>
          after (step (s.withEnv
              { s.env with sched := [.aon { quietAon with extValid := true, extCode := 0x08#8 }] }))
            (fun t => (t.producer.rej, t.producer.wptr))) =
        [some (true, 1#5), some (true, 0#5)] := by decide

theorem witness_StepRunsTheLcdByte :
    let s := (ticking (.clk quietClk)).withEngine
      { State.reset.engine with estate := .run, eop := 7#4, eidx := 0, ecnt := 1 }
    let s' := s.withEnv { s.env with sched := [] }
    s.rst.clkInRst = false ∧ s.engine.estate = .run ∧ s.bus.hostQ = [] ∧ quietClk.req = none ∧
      (engineEdge s').2 = some (false, 0x08#8) ∧
      (let z := s'.withBus { s'.bus with hostQ := [readReq 0x04#8] };
        after (exec (decodeReq (readReq 0x04#8)) z) (fun y => (y.bus.hReady, (engineEdge y).2)) =
          some (true, some (false, 0x08#8))) ∧
      (decodeLcd (0#6 ++ BitVec.ofBool false ++ BitVec.ofBool (engineEdge s').1.engine.lcdH ++ 0x08#8)).toOption =
        some (.lcdDispctl 0#1 0#1) ∧
      after (exec (.lcdDispctl 0#1 0#1) (engineEdge s').1) (fun t => t.engine.ebyte) = some 0x08#8 := by decide

theorem witness_IllegalAccessIsABusError :
    [0#2, 1#2, 3#2].map (fun z => decide (z ≠ 2#2)) = [true, true, true] ∧
      [0x15#8, 0x16#8, 0xFF#8].map (fun o => decide (o.toNat % 4 ≠ 0)) = [true, true, true] := by decide

theorem witness_OffsetsSelectRegisters :
    [0x20#8, 0xFC#8].map (fun o => decide (o.toNat % 4 = 0 ∧ 0x20 ≤ o.toNat)) = [true, true] ∧
      (writeReq 0x20#8 0#32).size = 2#2 ∧ Instr.wrRsvd80 31#5 0#32 ∈ [Instr.rdRsvd20 0#3, .wrRsvd80 31#5 0#32] := by
  decide

theorem witness_ReadOnlyWritesAreIgnored :
    (0x1C#8, Instr.wrPwrStat 5#32) ∈ [(0x00#8, Instr.wrId 5#32), (0x10#8, .wrResult 5#32), (0x14#8, .wrEvqPop 5#32),
      (0x18#8, .wrEvqStat 5#32), (0x1C#8, .wrPwrStat 5#32)] := by
  decide

theorem witness_CtrlReadsAndWrites :
    [2, 3, 6, 31].map (fun k => decide (k = 2 ∨ k = 3 ∨ 6 ≤ k)) = [true, true, true, true] ∧ Ready State.reset :=
  ⟨by decide, by unfold Ready; decide⟩

theorem witness_StatusReadBits : 8 ≤ 8 ∧ 8 ≤ 31 := by decide

/-- The last edge of a CLEAR at which the host writes STATUS: vector H14. -/
theorem witness_StatusWriteOneToClear :
    let s := ((ticking (.clk quietClk)).withBus { State.reset.bus with hostQ := [writeReq 0x08#8 0x10#32] }).withEngine
      { State.reset.engine with estate := .run, eop := 3#4, eidx := 503, ecnt := 1 }
    s.env.sched = [.clk quietClk] ∧ s.rst.clkInRst = false ∧ s.bus.hostQ = [writeReq 0x08#8 0x10#32] ∧
      s.engine.estate = .run ∧ after (step s) (fun t => (t.engine.estate, t.regs.done)) = some (.idle, true) := by
  decide +kernel

/-- After reset, in an op, in a sleep handshake, and in FATAL with no handshake outstanding, where the read completes. -/
theorem witness_ResultReadHoldsWhileBusy :
    (State.reset.engine.estate = .idle ∧ State.reset.sleep.pwrReqTgl = pwrAckSync State.reset) ∧
      running.engine.estate = .run ∧
      (let s := State.reset.withSleep { State.reset.sleep with pwrReqTgl := true };
        s.sleep.pwrReqTgl ≠ pwrAckSync s) ∧
      (let s := ((ticking (.clk quietClk)).withPower (State.reset.power.enter .fatal)).withConsumer
          { State.reset.consumer with fatalSync := .settled 2 true };
        s.power.pstate = .fatal ∧ s.consumer.fatalSync.held ≠ [] ∧ s.consumer.fatalSync.chain ≠ [] ∧
          (∀ b ∈ s.consumer.fatalSync.held ++ s.consumer.fatalSync.chain, b = true) ∧ s.sleep.ackChain.held ≠ [] ∧
          (∀ b ∈ s.sleep.ackChain.held ++ s.sleep.ackChain.chain, b = s.sleep.pwrReqTgl) ∧ busy s = false ∧
          after (step s) (fun t => (t.env.epoch, busy t)) = some (s.env.epoch, false) ∧
          after (exec .rdResult s) (fun t => t.bus.hReady) = some true) := by decide

theorem witness_EvqStatAndPwrStatReadBits :
    [5, 7, 11, 31].map (fun k => decide ((5 ≤ k ∧ k < 8) ∨ 11 ≤ k)) = [true, true, true, true] ∧
      [6, 7, 13, 31].map (fun k => decide (k = 6 ∨ k = 7 ∨ 13 ≤ k)) = [true, true, true, true] := by decide

/-- The state after reset accepts a CMD write: NopOnlySetsDone, GetpixReadsOneBit, ClearZeroesTheFramebuffer. -/
theorem witness_Ready : Ready State.reset := by unfold Ready; decide

/-- The device lines are idle too: FlushSendsTheFramebuffer, InitProgramsTheDevice, SetcontrastProgramsVop,
DispctlSendsItsByte, SettempcoProgramsTc. -/
theorem witness_LinesIdle : Ready State.reset ∧ LinesIdle State.reset := ⟨witness_Ready, by unfold LinesIdle; decide⟩

theorem witness_CmdWritesHold :
    (Instr.sleep 1#24 0#1 0#3).kind = .cmd ∧ running.sleep.slpHeld = false ∧ running.engine.estate = .run ∧
      (let s := State.reset.withSleep { State.reset.sleep with pwrReqTgl := true };
        s.sleep.slpHeld = false ∧ s.sleep.pwrReqTgl ≠ pwrAckSync s) ∧
      (let s := State.reset.withConsumer { State.reset.consumer with fatalSync := .settled 2 true };
        s.sleep.slpHeld = false ∧ fatalSyncOut s = true) := by decide

theorem witness_AcceptanceLatchesTheWord :
    Ready State.reset ∧ (0x90000000#32).extractLsb' 28 4 = 0x9#4 ∧ (0xF0000000#32).extractLsb' 28 4 ≠ 0x9#4 :=
  ⟨witness_Ready, by decide, by decide⟩

theorem witness_ReservedOpcodesSetCmdErr :
    Ready State.reset ∧ (Instr.rsvdA 1#28, 0xA#4) ∈ [(Instr.rsvdA 1#28, 0xA#4), (.rsvdF 1#28, 0xF#4)] :=
  ⟨witness_Ready, by decide⟩

theorem witness_SetpixWritesOneBit :
    Ready State.reset ∧ pixelAt State.reset.regs.ctrlRot 83#12 47#12 = some (503, 7) ∧
      pixelAt State.reset.regs.ctrlRot 84#12 47#12 = none :=
  ⟨witness_Ready, by decide, by decide⟩

/-- A SETPIX and a GETPIX from the state after reset, each one edge long, in range and out of range (which takes no
edge). -/
theorem witness_SetpixThenGetpix :
    Ready (withByte10 0#8) ∧
      after (andThen (exec (.setpix 10#12 5#12 1#1 0#3) (withByte10 0#8)) fun t =>
        andThen (engineRun 1 t) fun u => andThen (exec (.getpix 10#12 5#12 0#4) u) (engineRun 1))
        (fun w => (w.engine.estate, w.regs.resultPix)) = some (.idle, true) ∧
      after (andThen (exec (.setpix 84#12 5#12 1#1 0#3) (withByte10 0#8)) fun t =>
        andThen (engineRun 0 t) fun u => andThen (exec (.getpix 84#12 5#12 0#4) u) (engineRun 1))
        (fun w => (w.engine.estate, w.regs.resultPix)) = some (.idle, false) :=
  ⟨by unfold Ready; decide, by decide, by decide⟩

theorem witness_SleepWaitsForItsAcknowledge :
    Ready State.reset ∧
      (let s := State.reset.withSleep { State.reset.sleep with slpHeld := true };
        s.sleep.slpHeld = true ∧ pwrAckSync s = s.sleep.pwrReqTgl) ∧
      (let s := State.reset.withSleep { State.reset.sleep with slpHeld := true, pwrReqTgl := true };
        s.sleep.slpHeld = true ∧ pwrAckSync s ≠ s.sleep.pwrReqTgl) :=
  ⟨witness_Ready, by decide, by decide⟩

theorem witness_RotationExtentsAndInverses :
    [0#2, 2#2].map (fun r => decide (r = 0#2 ∨ r = 2#2)) = [true, true] ∧
      [1#2, 3#2].map (fun r => decide (r = 1#2 ∨ r = 3#2)) = [true, true] := by decide

theorem witness_PixelAddressesAreDistinct :
    pixelAt 0#2 0#12 0#12 = some (0, 0) ∧ pixelAt 3#2 0#12 83#12 = some (503, 7) ∧
      [0#12, 2047#12, 2048#12, 4095#12].map sint12 = [0, 2047, -2048, -1] := by decide

theorem witness_LcdBytesStart :
    (Instr.lcdSetvop 127#7, false, 0x80 + (127#7).toNat) ∈
        [(Instr.lcdSetvop 127#7, false, 0x80 + (127#7).toNat), (.lcdData 0#1 0xFF#8, true, (0xFF#8).toNat)] ∧
      State.reset.engine.mode ≠ .cmdp ∧ (opActions inByte)[inByte.engine.eidx]? = some (.byte false 0x40#8) ∧
      (opActions inByte)[3]? = some (.byteFb 0) ∧
      (let s := inByte.withEngine { inByte.engine with mode := .datap };
        s.engine.mode = .datap ∧
          after (exec (.lcdData 0#1 0xFF#8) s) (fun t => (t.engine.eshift, t.engine.ebit, t.engine.esetup)) =
            some (0xFF#8, 8, false)) ∧
      after (exec (.lcdSety 0#3) inByte) (fun t => (t.engine.eshift, t.engine.ebit, t.engine.esetup)) =
        some (0#8, 8, true) ∧
      after (andThen (exec (.lcdSety 0#3) inByte) (engineRun 1)) (fun t => (t.engine.eshift, t.engine.esetup)) =
        some (0x40#8, false) := by decide +kernel

theorem witness_ByteShiftsOutMsbFirst :
    inByte.engine.estate = .run ∧ (opActions inByte)[inByte.engine.eidx]? = some (.byte false 0x40#8) ∧
      inByte.pins.lcdSclk = false ∧ inByte.pins.lcdSceN = false ∧
      inByte.pins.lcdDc = decide (inByte.engine.mode = .datap) := by decide +kernel

theorem witness_EmittedBytesAreListed :
    (actions resetParams 6#4 0xFF#28 0#2)[2]? = some (.byte false 0xFF#8) := by decide

theorem witness_PutStoresTheEvent :
    fullP (pending 15#5) = false ∧
      (Instr.putExt 0x81#8, (none : Option Nat), 0x81#8) ∈
        [(Instr.putTimer, some 0, 0x02#8), (.putExt 0x81#8, none, 0x81#8)] := by decide

theorem witness_PutOnFullDropsTheEvent :
    fullP (pending 16#5) = true ∧ (Instr.putTimer, 0) ∈ [(Instr.putTimer, 0), (.putKeyenter, 5)] := by decide

theorem witness_PopTakesTheOldest :
    State.reset.consumer.rptrGray = wsyncOut State.reset ∧
      (let s := State.reset.withConsumer { State.reset.consumer with wsync := .settled 2 (bin2gray 1#5) };
        s.consumer.rptrGray ≠ wsyncOut s) := by decide

theorem witness_GrayCodeFacts : (pending 16#5).producer.wptrGray = bin2gray (pending 16#5).producer.wptr := by decide

/-- The state after reset with an aon edge to come meets the invariants the FIFO statements assume (FifoViewsAreSafe,
StepKeepsFifoOrder), and its step goes on. -/
theorem witness_fifo :
    let s := ticking (.aon quietAon)
    (GrayOk s ∧ CrossingsOk s ∧ FifoOrdered s) ∧ after (step s) (fun t => t.producer.wptr) = some 0#5 :=
  ⟨⟨by unfold GrayOk; decide, by unfold CrossingsOk CrossOk; decide, by unfold FifoOrdered; decide⟩, by decide⟩

/-- A put into a FIFO that holds 15 events, none of which is overwritten. -/
theorem witness_UnreadSlotsAreNeverOverwritten :
    let s := ((pending 15#5).withConsumer { State.reset.consumer with wsync := .settled 2 (bin2gray 15#5) }).withEnv
      { State.reset.env with sched := [.aon quietAon] }
    (GrayOk s ∧ CrossingsOk s ∧ FifoOrdered s) ∧ (14#5 - s.consumer.rptr).toNat < occupancy s ∧
      after (step s) (fun t => (decide ((14#5 - t.consumer.rptr).toNat < occupancy t), t.env.epoch)) =
        some (true, s.env.epoch) :=
  ⟨⟨by unfold GrayOk; decide, by unfold CrossingsOk CrossOk; decide, by unfold FifoOrdered; decide⟩, by decide,
    by decide⟩

theorem witness_PutsStoreTheFirstSixteen :
    GrayOk State.reset ∧ State.reset.producer.wptr = State.reset.consumer.rptr ∧
      rsyncOut State.reset = State.reset.consumer.rptrGray ∧ [0x80#8][0]? = some 0x80#8 :=
  ⟨by unfold GrayOk; decide, by decide, by decide, by decide⟩

theorem witness_PopsReturnTheEventsInOrder :
    let s := (pending 16#5).withConsumer { State.reset.consumer with wsync := .settled 2 (bin2gray 16#5) }
    GrayOk s ∧ wsyncOut s = s.producer.wptrGray ∧ occupancy s = 16 :=
  ⟨by unfold GrayOk; decide, by decide, by decide⟩

theorem witness_SynchroniserSettles :
    let x : Cross Ptr := { held := [0#5, 1#5], chain := [0#5, 0#5] }
    x.held.getLast? = some 1#5 ∧ x.chain ≠ [] ∧ x.chain.length + 1 ≤ [0, 0, 0].length ∧
      (let y : Cross Bool := { held := [false, true], chain := [false, false] };
        y.held.getLast? = some true ∧ y.chain ≠ [] ∧ y.chain.length + 1 ≤ [0, 0, 0].length) := by decide

/-- A clk and an aon edge out of reset that find a window of two values. -/
theorem witness_SynchroniserSettles_edges :
    let x : Cross Ptr := { held := [0#5, 1#5], chain := [0#5, 0#5] }
    let s := (State.reset.withConsumer { State.reset.consumer with wsync := x }).withProducer
      { State.reset.producer with rsync := x }
    let at' := fun (k : Tick) => s.withEnv { s.env with sched := [k] }
    (s.rst.clkInRst = false ∧ s.rst.aonInRst = false ∧ x.held.getLast? = some 1#5) ∧
      after (step (at' (.clk { quietClk with wPick := 1 }))) (fun t => t.consumer.wsync) =
        some { held := [1#5], chain := [1#5, 0#5] } ∧
      after (step (at' (.aon { quietAon with rPick := 1 }))) (fun t => t.producer.rsync) =
        some { held := [1#5], chain := [1#5, 0#5] } := by decide

/-- Vector F7, edge a1: an external event at a full latch while the timer is selected. -/
theorem witness_CaptureDrainAndMerge :
    (pending 0#5).rst.aonInRst = false ∧ Source.latch .timer = some 0 ∧ Source.latch .keyEnter = some 5 ∧
      after (aonEdge exec { quietAon with extValid := true, extCode := 0x82#8 } (pending 0#5))
        (fun t => (t.producer.mrg, t.producer.pendExtCode)) = some (true, 0x81#8) ∧
      [0b111111#6, 0b111110#6, 0b111100#6, 0b111000#6, 0b110000#6, 0b100000#6, 0#6].map (fun p =>
          select (State.reset.withProducer { State.reset.producer with pend := p, pendExt := true })) =
        [some .timer, some .keyLeft, some .keyUp, some .keyDown, some .keyRight, some .keyEnter, some .ext] := by
  decide

theorem witness_SleepOpStarts :
    requested.rst.aonInRst = false ∧ requested.power.pstate = .idle ∧
      pwrReqSync requested ≠ requested.power.pwrAckTgl := by decide

theorem witness_ArmAndSleep :
    [PowerState.disarm1, .arm].map (fun st =>
        ((powered st).rst.aonInRst, (powered st).power.wktWait, decide ((powered st).power.pstate = st))) =
      [(false, true, true), (false, true, true)] ∧
      ({ quietAon with wktAck := true } : AonIn).wktAck = true ∧ (powered .sleep).power.pstate = .sleep ∧
      (powered .arm).power.wakePend = false ∧ wakeSources quietAon (powered .arm) = 0#5 ∧
      wakeSources { quietAon with wktExpire := true } (powered .arm) = 1#5 ∧ quietAon.wktAck = false := by decide

theorem witness_SecondDisarmAndRestore :
    (powered .disarm2).power.pstate = .disarm2 ∧ (powered .disarm2).power.wktWait = true ∧
      (powered .restore).power.pstate = .restore ∧ (powered .restore).rst.aonInRst = false ∧
      quietAon.wktAck = false ∧ quietAon.restoreAck = false ∧
      ({ quietAon with restoreAck := true } : AonIn).restoreAck = true := by decide

theorem witness_WakeLatchRecordsSources :
    pwrReqSync State.reset = State.reset.power.pwrAckTgl ∧
    after (aonEdge exec { quietAon with wktExpire := true } (powered .sleep))
        (fun t => (t.power.pstate, t.power.wakeCause)) = some (.disarm2, 1#5) ∧
      after (aonEdge exec { quietAon with wktExpire := true } (powered .disarm2)) (fun t => t.power.wakeCause) =
        some 0#5 := by decide

/-- Trace W1 with clk edges between the aon_clk edges: the requests are DISARM, ARM, DISARM. -/
theorem witness_SleepIssuesDisarmArmDisarm :
    let ok := { quietAon with wktAck := true, wktOk := true }
    let s := requested.withEnv
      { requested.env with
        sched := [.aon quietAon, .clk quietClk, .aon ok, .aon ok, .clk quietClk,
          .aon { quietAon with wktExpire := true }, .aon ok] }
    s.rst.aonInRst = false ∧ s.power.pstate = .idle ∧ pwrReqSync s ≠ s.power.pwrAckTgl ∧ aonNext s = true ∧
      (sleepRequests 7 s).2.env.epoch = s.env.epoch ∧ (sleepRequests 7 s).1 = [false, true, false] := by decide

/-- FATAL just entered, clk not having seen it, and FATAL seen in every stage. -/
theorem witness_FatalIsTerminal :
    let s := ((ticking (.aon quietAon)).withPower (State.reset.power.enter .fatal)).withConsumer
      { State.reset.consumer with fatalSync := { held := [false, true], chain := [false, false] } }
    let u := ((ticking (.clk quietClk)).withPower (State.reset.power.enter .fatal)).withConsumer
      { State.reset.consumer with fatalSync := .settled 2 true }
    s.power.pstate = .fatal ∧ s.consumer.fatalSync.held.getLast? = some true ∧
      after (step s) (fun t => (t.env.epoch, t.power.pstate)) = some (s.env.epoch, .fatal) ∧
      u.power.pstate = .fatal ∧ u.consumer.fatalSync.held ≠ [] ∧ u.consumer.fatalSync.chain ≠ [] ∧
      (∀ b ∈ u.consumer.fatalSync.held ++ u.consumer.fatalSync.chain, b = true) ∧
      after (step u) (fun t => t.env.epoch) = some u.env.epoch := by decide

theorem witness_DomainsHoldWithoutTheirClock :
    (ticking (.aon quietAon)).env.sched = [.aon quietAon] ∧ (ticking (.clk quietClk)).env.sched = [.clk quietClk] ∧
      after (step (ticking (.aon quietAon))) (fun t => t.bus.hReady) = some true ∧
      after (step (ticking (.clk quietClk))) (fun t => t.bus.hReady) = some true := by decide

/-- The state after reset with an aon edge to come meets the invariants of StepKeepsMemoryForm,
StepKeepsCrossingsAndOutputs and StepKeepsSerializer, and its step goes on. -/
theorem witness_invariants :
    let s := ticking (.aon quietAon)
    (MemoryOk s ∧ GrayOk s ∧ CrossingsOk s ∧ OutputsOk s ∧ SerializerOk s) ∧
      after (step s) (fun t => t.power.pstate) = some .idle :=
  ⟨⟨by unfold MemoryOk; decide, by unfold GrayOk; decide, by unfold CrossingsOk CrossOk; decide,
    by unfold OutputsOk; decide, ⟨rfl, by decide, rfl, rfl, rfl⟩⟩, by decide⟩

/-- A step that raises `lcd_sclk` inside a byte: the hypotheses of the rising-edge clause. -/
theorem witness_DcIsStableAroundClockEdges :
    let s := ((inByte.withEngine
          { inByte.engine with mode := .cmdp, ebit := 8, eshift := 0x40#8, ebyte := 0x40#8 }).withEnv
        { State.reset.env with sched := [.clk quietClk] })
    SerializerOk s ∧ s.pins.lcdSclk = false ∧ after (step s) (fun t => t.pins.lcdSclk) = some true :=
  ⟨⟨rfl, by decide, by decide +kernel, rfl, rfl, rfl, rfl, by decide, fun _ => rfl, by decide⟩, rfl, by decide +kernel⟩

theorem witness_ResetValues :
    (ticking .resetAssert).env.sched = [.resetAssert] ∧ 1 ≤ (ticking .resetAssert).params.syncStages ∧
      after (step (ticking .resetAssert)) (fun t => t.rst.rstN) = some false := by decide

/-- A step in reset of each domain and the rise of `rst_n`: clk leaves reset only once `rst_n` is high, and its window on
the write pointer, which the producer has moved meanwhile, is the newest value alone. -/
theorem witness_ResetValues_domains :
    let s := (State.reset.withRst { rstN := false, clkInRst := true, aonInRst := true }).withConsumer
      { State.reset.consumer with wsync := { held := [0#5, 1#5], chain := [0#5, 0#5] } }
    let at' := fun (n : Bool) (k : Tick) =>
      (s.withRst { s.rst with rstN := n }).withEnv { s.env with sched := [k] }
    [at' false (.clk quietClk), at' true (.clk quietClk), at' true (.aon quietAon), at' false .resetRelease].map
        (fun u => after (step u) (fun t => (t.rst.rstN, t.rst.clkInRst, t.rst.aonInRst, t.consumer.wsync.held))) =
      [some (false, true, true, [1#5]), some (true, false, true, [1#5]), some (true, true, false, [0#5, 1#5]),
        some (true, true, true, [0#5, 1#5])] := by decide

end Sys2Proof.Tests
end

