-- ==== Sys2Proof/Proofs/GrayCode.lean ====
section
/-! The gray code of the FIFO pointers, bit by bit (00_scope.md R16), and the full test as a distance of 16
(42_event_fifo.md R250). -/

namespace Sys2Proof.Proofs

open Sys2Proof Sys2Proof.Machine

/-! ## The bits of the two conversions -/

theorem bin2gray_getLsbD (b : Ptr) (i : Nat) :
    (bin2gray b).getLsbD i = (b.getLsbD i ^^ b.getLsbD (i + 1)) := by
  simp [bin2gray, Nat.add_comm]

/-- The recursion of R16 from the top bit down, checked on each of the 32 codes: the top bit. -/
theorem gray2bin_getLsbD_top : ∀ g : Ptr, (gray2bin g).getLsbD 4 = g.getLsbD 4 := by
  decide

/-- The recursion of R16, checked on each of the 32 codes: a lower bit and the one above it. -/
theorem gray2bin_getLsbD_lower : ∀ (g : Ptr), ∀ i < 4,
    (gray2bin g).getLsbD i = (g.getLsbD i ^^ (gray2bin g).getLsbD (i + 1)) := by
  decide

/-! ## They are inverse -/

/-- The XOR of neighbours undoes the running XOR from the top. -/
theorem bin2gray_gray2bin (g : Ptr) : bin2gray (gray2bin g) = g := by
  refine BitVec.eq_of_getLsbD_eq fun i hi => ?_
  rw [bin2gray_getLsbD]
  obtain hlow | rfl : i < 4 ∨ i = 4 := by omega
  · simp [gray2bin_getLsbD_lower g i hlow]
  · simpa using gray2bin_getLsbD_top g

/-- If bit `i + 1` comes back, so does bit `i`: the recursion of `gray2bin` XORs it with the neighbour that
`bin2gray` had put in. -/
theorem gray2bin_bin2gray_getLsbD_of_succ (b : Ptr) {i : Nat} (hi : i < 4)
    (h : (gray2bin (bin2gray b)).getLsbD (i + 1) = b.getLsbD (i + 1)) :
    (gray2bin (bin2gray b)).getLsbD i = b.getLsbD i := by
  simp [gray2bin_getLsbD_lower _ _ hi, h, bin2gray_getLsbD]

/-- The bits come back one by one, from the top down. -/
theorem gray2bin_bin2gray (b : Ptr) : gray2bin (bin2gray b) = b := by
  refine BitVec.eq_of_getLsbD_eq fun i hi => ?_
  have hi4 : i ≤ 4 := by omega
  clear hi
  induction hi4 using Nat.decreasingInduction with
  | self => rw [gray2bin_getLsbD_top, bin2gray_getLsbD]; simp
  | of_succ k hk ih => exact gray2bin_bin2gray_getLsbD_of_succ b hk ih

theorem bin2gray_inj {a b : Ptr} : bin2gray a = bin2gray b ↔ a = b :=
  (Function.LeftInverse.injective gray2bin_bin2gray).eq_iff

/-! ## One increment, and half a turn -/

/-- R16: an increment changes one bit, checked on each of the 32 pointers. -/
theorem bin2gray_succ_one_bit : ∀ b : Ptr, ∃ k < 5, bin2gray b ^^^ bin2gray (b + 1#5) = 1#5 <<< k := by
  decide

/-- R250: complementing the top two gray bits is half a turn of the pointer, checked on each of the 32 pointers. -/
theorem complement_top_bin2gray : ∀ b : Ptr,
    ~~~((bin2gray b).extractLsb' 3 2) ++ (bin2gray b).extractLsb' 0 3 = bin2gray (b + 16#5) := by
  decide

/-- The full test compares the write pointer with the read pointer half a turn on. -/
theorem fullP_iff_sub_eq_16 {s : State} (hw : s.producer.wptrGray = bin2gray s.producer.wptr) :
    fullP s = true ↔ s.producer.wptr - gray2bin (rsyncOut s) = 16#5 := by
  have hturn := complement_top_bin2gray (gray2bin (rsyncOut s))
  rw [bin2gray_gray2bin] at hturn
  calc fullP s = true
    _ ↔ bin2gray s.producer.wptr = bin2gray (gray2bin (rsyncOut s) + 16#5) := by
        simp only [fullP, beq_iff_eq, hw, hturn]
    _ ↔ s.producer.wptr = 16#5 + gray2bin (rsyncOut s) := by rw [bin2gray_inj, BitVec.add_comm]
    _ ↔ s.producer.wptr - gray2bin (rsyncOut s) = 16#5 := sub_eq_iff_eq_add.symm

/-- Settles O40: the conversions bit by bit, their inverse laws, and the full test through half a turn. -/
theorem grayCodeFacts : Obligations.GrayCodeFacts :=
  ⟨fun b => ⟨rfl, gray2bin_getLsbD_top b, gray2bin_getLsbD_lower b⟩,
    fun b => ⟨gray2bin_bin2gray b, bin2gray_gray2bin b, bin2gray_succ_one_bit b⟩,
    fun _ hw => fullP_iff_sub_eq_16 hw⟩

end Sys2Proof.Proofs
end

