-- ==== Sys2Proof/Proofs/StepTotal.lean ====
section
/-! No instruction, stage or step faults or refuses (00_scope.md R10, 60_exceptions.md R350). -/

namespace Sys2Proof.Proofs

open Sys2Proof Sys2Proof.Config Sys2Proof.Machine

/-- The outcome is a next state: neither a fault nor a refusal. -/
def GoesOn (o : Out) : Prop := ∃ t, o = .next t

theorem goesOn_next (t : State) : GoesOn (.next t) := ⟨t, rfl⟩

theorem GoesOn.andThen {o : Out} {f : State → Out} (ho : GoesOn o) (hf : ∀ t, GoesOn (f t)) :
    GoesOn (andThen o f) := by
  obtain ⟨t, rfl⟩ := ho
  exact hf t

/-! ## Instructions -/

theorem cmdWrite_goesOn (accept : State → State) (s : State) : GoesOn (cmdWrite accept s) := by
  rcases cmdWrite_cases accept s with ⟨-, h⟩ | ⟨-, h⟩
  · exact ⟨_, h⟩
  · exact ⟨_, h⟩

theorem execSleep_goesOn (dur : BitVec 24) (deep : BitVec 1) (rsv : BitVec 3) (s : State) :
    GoesOn (execSleep dur deep rsv s) := by
  unfold execSleep
  split_ifs <;> exact goesOn_next _

theorem execRdResult_goesOn (s : State) : GoesOn (execRdResult s) := by
  unfold execRdResult
  split_ifs <;> exact goesOn_next _

/-- A CMD word is an instruction of the command kind. -/
theorem decodeCmd_kind (w : Word) : (decodeCmd w).kind = .cmd := by
  simp only [decodeCmd, apply_ite Instr.kind]
  simp only [Instr.kind, ite_self]

/-- Writing a word to CMD runs the instruction the word decodes to (44_host_registers.md R323). -/
theorem execWrCmd_eq_exec_decodeCmd (w : Word) (s : State) : execWrCmd w s = exec (decodeCmd w) s := by
  simp only [decodeCmd, apply_ite (exec · s)]
  rfl

theorem reservedWrite_goesOn (op : BitVec 4) (arg : BitVec 28) (s : State) : GoesOn (reservedWrite op arg s) :=
  cmdWrite_goesOn _ s

theorem execInit_goesOn (contrast bias : BitVec 8) (rsv : BitVec 12) (s : State) :
    GoesOn (execInit contrast bias rsv s) :=
  cmdWrite_goesOn _ s

/-- A command is held or accepted. -/
theorem exec_cmd_goesOn {i : Instr} (hi : i.kind = .cmd) (s : State) : GoesOn (exec i s) := by
  cases i with
  | sleep dur deep rsv => exact execSleep_goesOn dur deep rsv s
  | init contrast bias rsv => exact execInit_goesOn contrast bias rsv s
  | nop | setpix | getpix | clear | flush | setcontrast | dispctl | settempco => exact cmdWrite_goesOn _ s
  | rsvdA | rsvdB | rsvdC | rsvdD | rsvdE | rsvdF => exact reservedWrite_goesOn _ _ s
  | _ => cases hi

theorem execWrCmd_goesOn (w : Word) (s : State) : GoesOn (execWrCmd w s) := by
  rw [execWrCmd_eq_exec_decodeCmd]
  exact exec_cmd_goesOn (decodeCmd_kind w) s

/-- Every instruction has a next state, in every state. -/
theorem exec_goesOn (i : Instr) (s : State) : GoesOn (exec i s) := by
  cases i with
  | nop | setpix | getpix | clear | flush | init | setcontrast | dispctl | settempco | sleep
  | rsvdA | rsvdB | rsvdC | rsvdD | rsvdE | rsvdF => exact exec_cmd_goesOn rfl s
  | wrCmd w => exact execWrCmd_goesOn w s
  | rdResult => exact execRdResult_goesOn s
  | _ => exact goesOn_next _

/-! ## Edges -/

theorem busStage_goesOn (s : State) : GoesOn (busStage exec s) := by
  unfold busStage
  split
  · exact goesOn_next s
  · exact (exec_goesOn _ s).andThen fun t => goesOn_next (retire t)

/-- The guard of the engine stage never fires (log 23), so the stage answers `startDue`. -/
theorem engineStage_goesOn (s : State) : GoesOn (engineStage exec s) := ⟨_, engineStage_eq s⟩

theorem clkEdge_goesOn (c : ClkIn) (s : State) : GoesOn (clkEdge exec c s) := by
  unfold clkEdge
  split
  · exact goesOn_next _
  · refine (busStage_goesOn _).andThen fun t => GoesOn.andThen ?_ fun u => goesOn_next (clkSync c u)
    split
    · exact engineStage_goesOn t
    · exact goesOn_next t

theorem aonEdge_goesOn (a : AonIn) (s : State) : GoesOn (aonEdge exec a s) := by
  cases hr : s.rst.aonInRst with
  | true => exact ⟨aonResetEdge a s, by simp [aonEdge, hr]⟩
  | false =>
    obtain ⟨f, p, c, h⟩ := aonEdge_stages a hr
    exact ⟨_, h⟩

theorem tickStep_goesOn (t : Tick) (s : State) : GoesOn (tickStep exec t s) := by
  cases t with
  | clk c => exact clkEdge_goesOn c s
  | aon a => exact aonEdge_goesOn a s
  | resetAssert => exact goesOn_next (applyReset s)
  | resetRelease => exact goesOn_next (releaseReset s)

/-- Settles O7: each kind of tick goes on, and a step is the next tick. -/
theorem everyStepGoesOn : Obligations.EveryStepGoesOn :=
  fun s => tickStep_goesOn (nextTick s).1 (nextTick s).2

end Sys2Proof.Proofs
end

