-- ==== Sys2Proof/Proofs/DomainFrames.lean ====
section
/-! What each clock's edge leaves alone of the other domain: on an aon_clk edge everything in clk but the windows of the
crossings into clk, on a clk edge everything in aon_clk but the windows of the crossings into aon_clk, which only grow
(10_state.md R30, R57; 42_event_fifo.md R262). -/

namespace Sys2Proof.Proofs

open Sys2Proof Sys2Proof.Config Sys2Proof.Machine

/-- The outcome is a next state, and it satisfies `P`. -/
def GoesOnTo (P : State → Prop) (o : Out) : Prop := ∃ t, o = .next t ∧ P t

theorem goesOnTo_next {P : State → Prop} {t : State} (h : P t) : GoesOnTo P (.next t) := ⟨t, rfl, h⟩

theorem GoesOnTo.of_eq_next {P : State → Prop} {o : Out} {t : State} (ho : GoesOnTo P o) (h : o = .next t) : P t := by
  obtain ⟨u, rfl, hu⟩ := ho
  cases h
  exact hu

theorem GoesOnTo.andThen {P Q : State → Prop} {o : Out} {f : State → Out} (ho : GoesOnTo P o)
    (hf : ∀ t, P t → GoesOnTo Q (f t)) : GoesOnTo Q (andThen o f) := by
  obtain ⟨t, rfl, ht⟩ := ho
  exact hf t ht

/-- A step whose next tick is listed takes that tick. -/
theorem step_eq_tickStep {s : State} {k : Tick} {ts : List Tick} (h : s.env.sched = k :: ts) :
    step s = tickStep exec k (s.withEnv { s.env with sched := ts }) := by
  simp only [step, stepWith, nextTick, h]

/-! ## The clk domain on an aon_clk edge -/

/-- The stages of a crossing, which the destination clock owns; the window, which the source writes, is dropped. -/
def stagesOf {α : Type} (x : Cross α) : Cross α := { x with held := [] }

/-- What the clk domain holds (10_state.md R49 to R52): of a crossing into clk, the stages only. -/
structure ClkSide where
  bus      : HostBus
  regs     : Regs
  engine   : Engine
  pins     : Pins
  fb       : Memory
  consumer : Consumer
  sleep    : SleepClk

/-- The clk domain of a state. -/
def clkSide (s : State) : ClkSide where
  bus := s.bus
  regs := s.regs
  engine := s.engine
  pins := s.pins
  fb := s.fb
  consumer :=
    { s.consumer with
      wsync := stagesOf s.consumer.wsync
      ovfSync := stagesOf s.consumer.ovfSync
      mrgSync := stagesOf s.consumer.mrgSync
      rejSync := stagesOf s.consumer.rejSync
      fatalSync := stagesOf s.consumer.fatalSync }
  sleep := { s.sleep with ackChain := stagesOf s.sleep.ackChain }

section
variable (s : State)
@[simp] theorem clkSide_withPower (x : Power) : clkSide (s.withPower x) = clkSide s := rfl
@[simp] theorem clkSide_withProducer (x : Producer) : clkSide (s.withProducer x) = clkSide s := rfl
@[simp] theorem clkSide_withEnv (x : Env) : clkSide (s.withEnv x) = clkSide s := rfl
end

/-- The errors that the aon domain records (60_exceptions.md R351): their flags cross into clk. -/
def isAonError : ErrorCode → Bool
  | .busErr | .cmdErr => false
  | .evqOvf | .evqMrg | .evqRej | .armFail | .dis1Fail | .fatal => true

/-- An error of the aon domain reaches clk only by the window of its flag. -/
theorem clkSide_raiseErr {e : ErrorCode} (he : isAonError e = true) (s : State) :
    clkSide (raiseErr e s) = clkSide s := by
  cases e with
  | busErr | cmdErr => cases he
  | evqOvf | evqMrg | evqRej | armFail | dis1Fail | fatal => rfl

theorem clkSide_drain (q : Source) (s : State) : clkSide (drain q s) = clkSide s := by
  cases q <;> rfl

/-- A put reaches clk only by the window of the write pointer or of `ovf`. -/
theorem clkSide_putEvent (v : Byte) (s : State) : clkSide (putEvent v s) = clkSide s := by
  cases hfull : fullP s with
  | true => rw [putEvent_full v hfull, clkSide_raiseErr rfl]
  | false => rw [putEvent_room v hfull]; rfl

theorem clkSide_putFrom (q : Source) (v : Byte) (s : State) : clkSide (putFrom q v s) = clkSide s := by
  rw [putFrom, clkSide_putEvent, clkSide_drain]

theorem clkSide_capture (a : AonIn) (pre s : State) : clkSide (capture a pre s) = clkSide s := by
  cases hm : merges a pre with
  | true =>
    simp only [capture, hm, if_true]
    exact clkSide_raiseErr (e := .evqMrg) rfl _
  | false => simp [capture, hm]

/-! ### The power FSM -/

@[simp] theorem clkSide_issueAndEnter (op : Bool) (st : PowerState) (s : State) :
    clkSide (issueAndEnter op st s) = clkSide s := rfl

/-- The acknowledge reaches clk only by the window of its toggle. -/
@[simp] theorem clkSide_completePower (s : State) : clkSide (completePower s) = clkSide s := rfl

@[simp] theorem clkSide_startSleepOp (s : State) : clkSide (startSleepOp s) = clkSide s := rfl

@[simp] theorem clkSide_disarm1Response (ok : Bool) (s : State) : clkSide (disarm1Response ok s) = clkSide s := by
  cases ok <;> rfl

@[simp] theorem clkSide_armResponse (ok wake : Bool) (s : State) : clkSide (armResponse ok wake s) = clkSide s := by
  unfold armResponse
  split_ifs <;> rfl

@[simp] theorem clkSide_disarm2Response (ok : Bool) (s : State) : clkSide (disarm2Response ok s) = clkSide s := by
  unfold disarm2Response
  split_ifs <;> rfl

/-- Whatever the FSM does at an edge, it does in aon_clk. -/
theorem clkSide_powerEdge (a : AonIn) (src : BitVec 5) (s : State) : clkSide (powerEdge a src s) = clkSide s := by
  cases hst : s.power.pstate with
  | idle => simp [powerEdge_idle a src hst, apply_ite clkSide]
  | disarm1 => simp [powerEdge_disarm1 a src hst, apply_ite clkSide]
  | arm => simp [powerEdge_arm a src hst, apply_ite clkSide]
  | sleep => simp [powerEdge_sleep a src hst, apply_ite clkSide]
  | disarm2 => simp [powerEdge_disarm2 a src hst, apply_ite clkSide]
  | restore => simp [powerEdge_restore a src hst, apply_ite clkSide]
  | fatal => simp [powerEdge_fatal a src hst]

/-! ### The edge -/

/-- The outcome is a next state with the clk domain of `s`. -/
abbrev KeepsClkSide (s : State) : Out → Prop := GoesOnTo fun t => clkSide t = clkSide s

theorem putStage_keepsClkSide (s : State) : KeepsClkSide s (putStage exec s) := by
  unfold putStage
  split
  · exact goesOnTo_next rfl
  · rw [exec_sourceInstr]
    exact goesOnTo_next (clkSide_putFrom _ _ s)

theorem rejectStage_keepsClkSide (a : AonIn) (s : State) : KeepsClkSide s (rejectStage exec a s) := by
  unfold rejectStage
  split
  · exact goesOnTo_next (clkSide_raiseErr (e := .evqRej) rfl s)
  · exact goesOnTo_next rfl

theorem clkSide_aonRest (a : AonIn) (pre s : State) : clkSide (aonRest a pre s) = clkSide s :=
  calc clkSide (aonRest a pre s)
    _ = clkSide (powerEdge a (wakeSources a pre) (capture a pre s)) := rfl
    _ = clkSide (capture a pre s) := clkSide_powerEdge _ _ _
    _ = clkSide s := clkSide_capture _ _ _

/-- An aon_clk edge, in reset or out of it, keeps the clk domain. -/
theorem aonEdge_keepsClkSide (a : AonIn) (s : State) : KeepsClkSide s (aonEdge exec a s) := by
  unfold aonEdge
  split
  · exact goesOnTo_next rfl
  · refine (putStage_keepsClkSide s).andThen fun t ht => (rejectStage_keepsClkSide a t).andThen fun u hu => ?_
    exact goesOnTo_next ((clkSide_aonRest a s u).trans (hu.trans ht))

theorem clkSide_eq_of_aon_step {s t : State} {a : AonIn} {ts : List Tick} (hs : s.env.sched = .aon a :: ts)
    (h : step s = .next t) : clkSide t = clkSide s := by
  rw [step_eq_tickStep hs] at h
  simpa using (aonEdge_keepsClkSide a _).of_eq_next h

/-- `irq` is a function of clk registers (60_exceptions.md R356). -/
theorem irq_eq_of_clkSide_eq {s t : State} (h : clkSide t = clkSide s) : irq t = irq s := by
  have hregs : t.regs = s.regs := congrArg ClkSide.regs h
  have hptr : t.consumer.rptrGray = s.consumer.rptrGray := congrArg (·.consumer.rptrGray) h
  have hchain : t.consumer.wsync.chain = s.consumer.wsync.chain := congrArg (·.consumer.wsync.chain) h
  simp only [irq, evNe, emptyC, wsyncOut, Cross.out, hregs, hptr, hchain]

/-! ## The aon domain on a clk edge -/

/-- `t` has the FIFO RAM, the producer and the power state of `s`, but for the windows of the two crossings into
aon_clk, which may have grown (20_memory.md R107). -/
structure AonHeld (s t : State) : Prop where
  fifo : t.fifo = s.fifo
  producer : t.producer = { s.producer with rsync := { s.producer.rsync with held := t.producer.rsync.held } }
  power : t.power = { s.power with reqChain := { s.power.reqChain with held := t.power.reqChain.held } }
  rsync_grows : s.producer.rsync.held <+: t.producer.rsync.held
  reqChain_grows : s.power.reqChain.held <+: t.power.reqChain.held

/-- Nothing of the aon domain is touched at all. -/
theorem AonHeld.of_eq {s t : State} (hf : t.fifo = s.fifo) (hp : t.producer = s.producer) (hw : t.power = s.power) :
    AonHeld s t where
  fifo := hf
  producer := by rw [hp]
  power := by rw [hw]
  rsync_grows := by rw [hp]
  reqChain_grows := by rw [hw]

theorem AonHeld.trans {s t u : State} (h : AonHeld s t) (k : AonHeld t u) : AonHeld s u where
  fifo := k.fifo.trans h.fifo
  producer := k.producer.trans (by rw [h.producer])
  power := k.power.trans (by rw [h.power])
  rsync_grows := h.rsync_grows.trans k.rsync_grows
  reqChain_grows := h.reqChain_grows.trans k.reqChain_grows

theorem aonHeld_of_engineOnly {s t : State} (h : EngineOnly s t) : AonHeld s t := by
  obtain ⟨e, p, f, r, rfl⟩ := h
  exact .of_eq rfl rfl rfl

/-! ### The operations that write a window into aon_clk -/

/-- A pop moves the read pointer, whose new value joins its window (42_event_fifo.md R257). -/
theorem popEvent_aonHeld (s : State) : AonHeld s (popEvent s) := by
  cases hempty : emptyC s with
  | true =>
    rw [popEvent_empty hempty]
    exact .of_eq rfl rfl rfl
  | false =>
    rw [popEvent_some hempty]
    exact ⟨rfl, rfl, rfl, List.prefix_append _ _, List.prefix_rfl⟩

/-- The request toggle joins its window (43_power.md R282). -/
theorem acceptSleep_aonHeld (dur : BitVec 24) (deep : BitVec 1) (rsv : BitVec 3) (s : State) :
    AonHeld s (acceptSleep dur deep rsv s) :=
  ⟨rfl, rfl, rfl, List.prefix_rfl, List.prefix_append _ _⟩

/-! ### Instructions -/

/-- The outcome is a next state with the aon domain of `s`, its incoming windows perhaps grown. -/
abbrev KeepsAon (s : State) : Out → Prop := GoesOnTo (AonHeld s)

/-- The outcome writes nothing of the aon domain at all. -/
theorem keepsAon_next_of_eq {s t : State} (hf : t.fifo = s.fifo) (hp : t.producer = s.producer)
    (hw : t.power = s.power) : KeepsAon s (.next t) :=
  goesOnTo_next (.of_eq hf hp hw)

theorem startDue_only {s : State} {p : State × Option (Bool × Byte)} (h : EngineOnly s p.1) :
    EngineOnly s (startDue p) := by
  unfold startDue
  split
  · exact h
  · next dc b _ =>
    obtain ⟨e, q, hstart⟩ := startByte_frame dc b p.1
    exact h.trans ⟨e, q, _, _, hstart⟩

/-- The acceptance of an op stays within the engine. -/
theorem acceptOp_only (op : BitVec 4) (args : BitVec 28) (s : State) : EngineOnly s (acceptOp op args s) := by
  unfold acceptOp
  dsimp only
  split
  · exact ⟨_, _, _, _, rfl⟩
  · exact startDue_only (EngineOnly.trans ⟨_, _, _, _, rfl⟩ (startFrom_only _ _))

/-- A CMD write whose acceptance stays within the engine is held or accepted in clk. -/
theorem cmdWrite_keepsAon {accept : State → State} {s : State} (h : EngineOnly s (accept s)) :
    KeepsAon s (cmdWrite accept s) := by
  rcases cmdWrite_cases accept s with ⟨-, hheld⟩ | ⟨-, hdone⟩
  · exact ⟨_, hheld, .of_eq rfl rfl rfl⟩
  · exact ⟨_, hdone, (aonHeld_of_engineOnly h).trans (.of_eq rfl rfl rfl)⟩

theorem execInit_keepsAon (contrast bias : BitVec 8) (rsv : BitVec 12) (s : State) :
    KeepsAon s (execInit contrast bias rsv s) :=
  cmdWrite_keepsAon (EngineOnly.trans ⟨_, _, _, _, rfl⟩ (acceptOp_only _ _ _))

theorem reservedWrite_keepsAon (op : BitVec 4) (arg : BitVec 28) (s : State) : KeepsAon s (reservedWrite op arg s) :=
  cmdWrite_keepsAon ((acceptOp_only op arg s).trans ⟨_, _, _, _, rfl⟩)

theorem execSleep_keepsAon (dur : BitVec 24) (deep : BitVec 1) (rsv : BitVec 3) (s : State) :
    KeepsAon s (execSleep dur deep rsv s) := by
  unfold execSleep
  split_ifs
  · exact keepsAon_next_of_eq rfl rfl rfl
  · exact keepsAon_next_of_eq rfl rfl rfl
  · exact keepsAon_next_of_eq rfl rfl rfl
  · exact goesOnTo_next (acceptSleep_aonHeld dur deep rsv s)

theorem exec_cmd_keepsAon {i : Instr} (hi : i.kind = .cmd) (s : State) : KeepsAon s (exec i s) := by
  cases i with
  | sleep dur deep rsv => exact execSleep_keepsAon dur deep rsv s
  | init contrast bias rsv => exact execInit_keepsAon contrast bias rsv s
  | nop | setpix | getpix | clear | flush | setcontrast | dispctl | settempco =>
    exact cmdWrite_keepsAon (acceptOp_only _ _ s)
  | rsvdA | rsvdB | rsvdC | rsvdD | rsvdE | rsvdF => exact reservedWrite_keepsAon _ _ s
  | _ => cases hi

theorem execRdResult_keepsAon (s : State) : KeepsAon s (execRdResult s) := by
  unfold execRdResult
  split_ifs <;> exact keepsAon_next_of_eq rfl rfl rfl

/-- A host access writes the aon domain only by a pop or an accepted SLEEP word. -/
theorem exec_access_keepsAon {i : Instr} (hi : i.kind = .access) (s : State) : KeepsAon s (exec i s) := by
  cases i with
  | wrCmd w =>
    change KeepsAon s (execWrCmd w s)
    rw [execWrCmd_eq_exec_decodeCmd]
    exact exec_cmd_keepsAon (decodeCmd_kind w) s
  | rdResult => exact execRdResult_keepsAon s
  | rdEvqPop => exact goesOnTo_next (popEvent_aonHeld s)
  | rdId | wrId | rdCtrl | wrCtrl | rdStatus | wrStatus | rdCmd | wrResult | wrEvqPop | rdEvqStat | wrEvqStat
  | rdPwrStat | wrPwrStat | rdRsvd20 | rdRsvd40 | rdRsvd80 | wrRsvd20 | wrRsvd40 | wrRsvd80 | busErr =>
    exact keepsAon_next_of_eq rfl rfl rfl
  | _ => cases hi

/-- What the bus presents is a host access. -/
theorem decodeReq_kind (r : HostReq) : (decodeReq r).kind = .access := by
  simp only [decodeReq, decodeLegal, apply_ite Instr.kind]
  simp only [Instr.kind, ite_self]

/-! ### The edge -/

theorem busStage_keepsAon (s : State) : KeepsAon s (busStage exec s) := by
  unfold busStage
  split
  · exact keepsAon_next_of_eq rfl rfl rfl
  · next i hi =>
    obtain ⟨r, -, rfl⟩ := Option.map_eq_some_iff.1 hi
    refine (exec_access_keepsAon (decodeReq_kind r) s).andThen fun t ht => goesOnTo_next (ht.trans ?_)
    unfold retire
    split_ifs <;> exact .of_eq rfl rfl rfl

theorem engineStage_keepsAon (s : State) : KeepsAon s (engineStage exec s) :=
  ⟨_, engineStage_eq s, aonHeld_of_engineOnly (engineStage_only (engineStage_eq s))⟩

/-- A clk edge, in reset or out of it, keeps the aon domain. -/
theorem clkEdge_keepsAon (c : ClkIn) (s : State) : KeepsAon s (clkEdge exec c s) := by
  unfold clkEdge
  split
  · exact keepsAon_next_of_eq rfl rfl rfl
  · have hissue : AonHeld s (issueAccess c.req s) := .of_eq rfl rfl rfl
    refine (busStage_keepsAon (issueAccess c.req s)).andThen fun t hbus => ?_
    have hengine : KeepsAon t (if s.engine.estate = .run then engineStage exec t else .next t) := by
      split_ifs
      · exact engineStage_keepsAon t
      · exact keepsAon_next_of_eq rfl rfl rfl
    refine hengine.andThen fun u hrun => goesOnTo_next ?_
    have hsync : AonHeld u (clkSync c u) := .of_eq rfl rfl rfl
    exact hissue.trans (hbus.trans (hrun.trans hsync))

theorem aonHeld_of_clk_step {s t : State} {c : ClkIn} {ts : List Tick} (hs : s.env.sched = .clk c :: ts)
    (h : step s = .next t) : AonHeld s t := by
  rw [step_eq_tickStep hs] at h
  have htake : AonHeld s (s.withEnv { s.env with sched := ts }) := .of_eq rfl rfl rfl
  exact htake.trans ((clkEdge_keepsAon c _).of_eq_next h)

/-- Settles O54: each clause reads off what the other clock's edge keeps. -/
theorem domainsHoldWithoutTheirClock : Obligations.DomainsHoldWithoutTheirClock := by
  intro s t ts h
  refine ⟨fun a hs => ?_, fun c hs => ?_⟩
  · have hclk := clkSide_eq_of_aon_step hs h
    exact ⟨congrArg (·.engine) hclk, congrArg (·.pins) hclk, congrArg (·.regs) hclk, congrArg (·.fb) hclk,
      congrArg (·.bus) hclk, congrArg (·.consumer.rptr) hclk, congrArg (·.consumer.rptrGray) hclk,
      congrArg (·.consumer.wsync.chain) hclk, congrArg (·.consumer.ovfSync.chain) hclk,
      congrArg (·.consumer.mrgSync.chain) hclk, congrArg (·.consumer.rejSync.chain) hclk,
      congrArg (·.consumer.fatalSync.chain) hclk, congrArg (·.sleep.ackChain.chain) hclk,
      congrArg (·.sleep.pwrReqTgl) hclk, congrArg (·.sleep.slpDeep) hclk, congrArg (·.sleep.slpDur) hclk,
      congrArg (·.sleep.slpHeld) hclk, irq_eq_of_clkSide_eq hclk⟩
  · obtain ⟨hfifo, hproducer, hpower, hrsync, hreq⟩ := aonHeld_of_clk_step hs h
    exact ⟨hfifo, hproducer, hpower, hrsync, hreq⟩

end Sys2Proof.Proofs
end

