-- ==== Sys2Proof/Proofs/EdgeEffects.lean ====
section
/-! What an edge of each clock can do to the two RAMs, to the FIFO's pointers and to the crossings: at a clk edge the
access presented, then the op in progress, then the synchronisers; at an aon_clk edge the put, then the synchronisers
(20_memory.md R90, R105, R107; 10_state.md R30). -/

namespace Sys2Proof.Proofs

open Sys2Proof Sys2Proof.Config Sys2Proof.Machine

/-! ## The tick -/

/-- Taking the next tick changes only the ticks to come. -/
theorem nextTick_snd_eq (s : State) : ∃ e, (nextTick s).2 = s.withEnv e ∧ e.epoch = s.env.epoch := by
  cases h : s.env.sched with
  | nil => exact ⟨{ s.env with tickNo := s.env.tickNo + 1 }, by simp only [nextTick, h], rfl⟩
  | cons k ts => exact ⟨{ s.env with sched := ts }, by simp only [nextTick, h], rfl⟩

/-! ## A host access -/

/-- `t` has both RAMs of `s`, all of the FIFO's pointers and flags, and every crossing into clk: what a host access
other than a pop leaves alone. -/
structure HostOnly (s t : State) : Prop where
  fb : t.fb = s.fb
  fifo : t.fifo = s.fifo
  consumer : t.consumer = s.consumer
  producer : t.producer = s.producer
  ackChain : t.sleep.ackChain = s.sleep.ackChain

theorem HostOnly.refl (s : State) : HostOnly s s := ⟨rfl, rfl, rfl, rfl, rfl⟩

theorem HostOnly.trans {s t u : State} (h : HostOnly s t) (k : HostOnly t u) : HostOnly s u where
  fb := k.fb.trans h.fb
  fifo := k.fifo.trans h.fifo
  consumer := k.consumer.trans h.consumer
  producer := k.producer.trans h.producer
  ackChain := k.ackChain.trans h.ackChain

theorem hostOnly_of_engineOnly {s t : State} (h : EngineOnly s t) (hfb : t.fb = s.fb) : HostOnly s t := by
  obtain ⟨e, p, f, r, rfl⟩ := h
  exact ⟨hfb, rfl, rfl, rfl, rfl⟩

/-- The start of an action reads the framebuffer at most (41_lcd_protocol.md R180, R184). -/
@[simp] theorem startAction_fb (a : Action) (s : State) : (startAction a s).1.fb = s.fb := by
  cases a <;> rfl

@[simp] theorem startFrom_fb (as : List Action) (s : State) : (startFrom as s).1.fb = s.fb := by
  induction as generalizing s with
  | nil => rfl
  | cons a as ih =>
    unfold startFrom
    split
    · contradiction
    · next heq =>
      obtain ⟨-, rfl⟩ := List.cons.inj heq
      exact ih _
    · exact startAction_fb _ _

@[simp] theorem startByte_fb (dc : Bool) (b : Byte) (s : State) : (startByte dc b s).fb = s.fb := by
  obtain ⟨e, p, h⟩ := startByte_frame dc b s
  rw [h]

@[simp] theorem startDue_fb (p : State × Option (Bool × Byte)) : (startDue p).fb = p.1.fb := by
  unfold startDue
  split
  · rfl
  · exact startByte_fb _ _ _

@[simp] theorem acceptOp_fb (op : BitVec 4) (args : BitVec 28) (s : State) : (acceptOp op args s).fb = s.fb := by
  unfold acceptOp
  dsimp only
  split
  · rfl
  · rw [startDue_fb, startFrom_fb]; rfl

theorem acceptOp_hostOnly (op : BitVec 4) (args : BitVec 28) (s : State) : HostOnly s (acceptOp op args s) :=
  hostOnly_of_engineOnly (acceptOp_only op args s) (acceptOp_fb op args s)

theorem cmdWrite_hostOnly {accept : State → State} {s : State} (h : HostOnly s (accept s)) :
    GoesOnTo (HostOnly s) (cmdWrite accept s) := by
  rcases cmdWrite_cases accept s with ⟨-, hheld⟩ | ⟨-, hdone⟩
  · exact ⟨_, hheld, rfl, rfl, rfl, rfl, rfl⟩
  · exact ⟨_, hdone, h.trans ⟨rfl, rfl, rfl, rfl, rfl⟩⟩

theorem execInit_hostOnly (contrast bias : BitVec 8) (rsv : BitVec 12) (s : State) :
    GoesOnTo (HostOnly s) (execInit contrast bias rsv s) :=
  have hflag (x : Regs) : HostOnly s (s.withRegs x) := ⟨rfl, rfl, rfl, rfl, rfl⟩
  cmdWrite_hostOnly ((hflag _).trans (acceptOp_hostOnly _ _ _))

theorem reservedWrite_hostOnly (op : BitVec 4) (arg : BitVec 28) (s : State) :
    GoesOnTo (HostOnly s) (reservedWrite op arg s) :=
  cmdWrite_hostOnly ((acceptOp_hostOnly op arg s).trans ⟨rfl, rfl, rfl, rfl, rfl⟩)

theorem execSleep_hostOnly (dur : BitVec 24) (deep : BitVec 1) (rsv : BitVec 3) (s : State) :
    GoesOnTo (HostOnly s) (execSleep dur deep rsv s) := by
  unfold execSleep
  split_ifs <;> exact goesOnTo_next ⟨rfl, rfl, rfl, rfl, rfl⟩

theorem exec_cmd_hostOnly {i : Instr} (hi : i.kind = .cmd) (s : State) : GoesOnTo (HostOnly s) (exec i s) := by
  cases i with
  | sleep dur deep rsv => exact execSleep_hostOnly dur deep rsv s
  | init contrast bias rsv => exact execInit_hostOnly contrast bias rsv s
  | nop | setpix | getpix | clear | flush | setcontrast | dispctl | settempco =>
    exact cmdWrite_hostOnly (acceptOp_hostOnly _ _ s)
  | rsvdA | rsvdB | rsvdC | rsvdD | rsvdE | rsvdF => exact reservedWrite_hostOnly _ _ s
  | _ => cases hi

theorem execRdResult_hostOnly (s : State) : GoesOnTo (HostOnly s) (execRdResult s) := by
  unfold execRdResult
  split_ifs <;> exact goesOnTo_next ⟨rfl, rfl, rfl, rfl, rfl⟩

/-- The host's part of a clk edge pops the FIFO, or leaves it alone. -/
def HostEffect (s t : State) : Prop := HostOnly s t ∨ HostOnly (popEvent s) t

/-- A host access other than an EVQ_POP read does not touch the FIFO (42_event_fifo.md R257). -/
theorem exec_access_hostEffect {i : Instr} (hi : i.kind = .access) (s : State) :
    GoesOnTo (HostEffect s) (exec i s) := by
  cases i with
  | wrCmd w =>
    change GoesOnTo (HostEffect s) (execWrCmd w s)
    rw [execWrCmd_eq_exec_decodeCmd]
    exact (exec_cmd_hostOnly (decodeCmd_kind w) s).imp fun _ h => h.imp id .inl
  | rdResult => exact (execRdResult_hostOnly s).imp fun _ h => h.imp id .inl
  | rdEvqPop => exact goesOnTo_next (.inr (HostOnly.refl _))
  | rdId | wrId | rdCtrl | wrCtrl | rdStatus | wrStatus | rdCmd | wrResult | wrEvqPop | rdEvqStat | wrEvqStat
  | rdPwrStat | wrPwrStat | rdRsvd20 | rdRsvd40 | rdRsvd80 | wrRsvd20 | wrRsvd40 | wrRsvd80 | busErr =>
    exact goesOnTo_next (.inl ⟨rfl, rfl, rfl, rfl, rfl⟩)
  | _ => cases hi

theorem retire_hostOnly (s : State) : HostOnly s (retire s) := by
  unfold retire
  split_ifs <;> exact ⟨rfl, rfl, rfl, rfl, rfl⟩

theorem busStage_hostEffect (s : State) : GoesOnTo (HostEffect s) (busStage exec s) := by
  unfold busStage
  split
  · exact goesOnTo_next (.inl (HostOnly.refl s))
  · next i hi =>
    obtain ⟨r, -, rfl⟩ := Option.map_eq_some_iff.1 hi
    refine (exec_access_hostEffect (decodeReq_kind r) s).andThen fun t ht => goesOnTo_next ?_
    exact ht.imp (·.trans (retire_hostOnly t)) (·.trans (retire_hostOnly t))

/-- A pop writes no RAM, and of the consumer only the read pointer. -/
theorem popEvent_frame (s : State) :
    (popEvent s).fb = s.fb ∧ (popEvent s).fifo = s.fifo ∧ (popEvent s).sleep = s.sleep ∧
      ∃ r g, (popEvent s).consumer = { s.consumer with rptr := r, rptrGray := g } := by
  cases hempty : emptyC s with
  | true => rw [popEvent_empty hempty]; exact ⟨rfl, rfl, rfl, _, _, rfl⟩
  | false => rw [popEvent_some hempty]; exact ⟨rfl, rfl, rfl, _, _, rfl⟩

/-- The host's part of a clk edge leaves both RAMs and every crossing into clk alone. -/
theorem HostEffect.frame {s t : State} (h : HostEffect s t) :
    t.fb = s.fb ∧ t.fifo = s.fifo ∧ t.sleep.ackChain = s.sleep.ackChain ∧
      ∃ r g, t.consumer = { s.consumer with rptr := r, rptrGray := g } := by
  rcases h with h | h
  · exact ⟨h.fb, h.fifo, h.ackChain, _, _, h.consumer⟩
  · obtain ⟨hfb, hfifo, hsleep, r, g, hcons⟩ := popEvent_frame s
    exact ⟨h.fb.trans hfb, h.fifo.trans hfifo, h.ackChain.trans (congrArg _ hsleep), r, g, h.consumer.trans hcons⟩

/-! ## The op in progress -/

/-- `t` has the framebuffer of `s`, but for one byte at most, which exists (20_memory.md R96). -/
def FbEffect (s t : State) : Prop := t.fb = s.fb ∨ ∃ i v, i < fbBytes ∧ t.fb = s.fb.set i v

@[simp] theorem nextAction_fb (s : State) : (nextAction s).1.fb = s.fb :=
  startFrom_fb _ _

@[simp] theorem finishByte_fb (dc : Bool) (s : State) : (finishByte dc s).fb = s.fb := by
  unfold finishByte
  split_ifs <;> rfl

@[simp] theorem byteEdge_fb (dc : Bool) (s : State) : (byteEdge dc s).1.fb = s.fb := by
  unfold byteEdge
  split_ifs
  · rfl
  · rfl
  · rw [nextAction_fb, finishByte_fb]; rfl
  · rfl

/-- The end of an action's wait writes at most the byte the action names. -/
theorem actionEdge_fb (a : Action) (s : State) :
    (actionEdge a s).1.fb = s.fb ∨ ∃ i v, a.fbByte = some i ∧ (actionEdge a s).1.fb = s.fb.set i v := by
  cases a with
  | rst | wait | sce => exact .inl (nextAction_fb s)
  | byte | byteFb => exact .inl (byteEdge_fb _ s)
  | fbrmw i m c => exact .inr ⟨i, _, rfl, nextAction_fb _⟩
  | fbz i => exact .inr ⟨i, _, rfl, nextAction_fb _⟩
  | fbrd at? =>
    rcases at? with _ | ⟨i, k⟩
    · exact .inl (nextAction_fb _)
    · exact .inl (nextAction_fb _)

/-- Every byte that an action list names exists, so the engine writes inside the framebuffer. -/
theorem engineEdge_fbEffect (s : State) : FbEffect s (engineEdge s).1 := by
  unfold engineEdge
  split
  · exact .inl rfl
  · next a ha =>
    split_ifs
    · exact .inl rfl
    · refine (actionEdge_fb a _).imp id ?_
      rintro ⟨i, v, hi, hfb⟩
      exact ⟨i, v, actions_fbByte (List.mem_of_getElem? ha) hi, hfb⟩

/-- The op's part of a clk edge. -/
structure EngineEffect (s t : State) : Prop where
  only : EngineOnly s t
  fb : FbEffect s t

theorem EngineEffect.refl (s : State) : EngineEffect s s := ⟨EngineOnly.refl s, .inl rfl⟩

theorem engineStage_engineEffect (s : State) : GoesOnTo (EngineEffect s) (engineStage exec s) := by
  refine ⟨_, engineStage_eq s, engineStage_only (engineStage_eq s), ?_⟩
  unfold FbEffect
  rw [startDue_fb]
  exact engineEdge_fbEffect s

/-! ## A clk edge out of reset -/

/-- A clk edge out of reset: the access, the op in progress before the edge, the synchronisers (log 16). -/
theorem clkEdge_eq {s : State} (c : ClkIn) (h : s.rst.clkInRst = false) :
    clkEdge exec c s =
      andThen (busStage exec (issueAccess c.req s)) fun t =>
      andThen (if s.engine.estate = .run then engineStage exec t else .next t) fun u => .next (clkSync c u) := by
  simp only [clkEdge, h, Bool.false_eq_true, if_false]

theorem clkEdge_effect {s : State} (c : ClkIn) (h : s.rst.clkInRst = false) :
    ∃ t u, HostEffect (issueAccess c.req s) t ∧ EngineEffect t u ∧ clkEdge exec c s = .next (clkSync c u) := by
  obtain ⟨t, ht, hhost⟩ := busStage_hostEffect (issueAccess c.req s)
  have hop : GoesOnTo (EngineEffect t) (if s.engine.estate = .run then engineStage exec t else .next t) := by
    split_ifs
    · exact engineStage_engineEffect t
    · exact goesOnTo_next (EngineEffect.refl t)
  obtain ⟨u, hu, hengine⟩ := hop
  exact ⟨t, u, hhost, hengine, by rw [clkEdge_eq c h, ht, andThen, hu, andThen]⟩

/-! ## The FIFO's part of an aon_clk edge -/

/-- The FIFO RAM, both pointers with their gray codes, and the two crossings that carry them (10_state.md R51, R54,
R55). -/
structure FifoSide where
  fifo : Memory
  wptr : Ptr
  wptrGray : Ptr
  rsync : Cross Ptr
  rptr : Ptr
  rptrGray : Ptr
  wsync : Cross Ptr

/-- The FIFO's part of a state. -/
def fifoSide (s : State) : FifoSide where
  fifo := s.fifo
  wptr := s.producer.wptr
  wptrGray := s.producer.wptrGray
  rsync := s.producer.rsync
  rptr := s.consumer.rptr
  rptrGray := s.consumer.rptrGray
  wsync := s.consumer.wsync

theorem HostOnly.fifoSide_eq {s t : State} (h : HostOnly s t) : fifoSide t = fifoSide s := by
  simp only [fifoSide, h.fifo, h.producer, h.consumer]

theorem EngineEffect.fifoSide_eq {s t : State} (h : EngineEffect s t) : fifoSide t = fifoSide s := by
  obtain ⟨⟨e, p, f, r, rfl⟩, -⟩ := h
  rfl

/-- No error touches the pointers: a dropped put and a rejected event are recorded by their flags alone
(60_exceptions.md R351). -/
theorem fifoSide_raiseErr (e : ErrorCode) (s : State) : fifoSide (raiseErr e s) = fifoSide s := by
  cases e <;> rfl

theorem fifoSide_drain (q : Source) (s : State) : fifoSide (drain q s) = fifoSide s := by
  cases q <;> rfl

/-- To the FIFO, draining the selected latch makes no difference. -/
theorem fifoSide_putFrom (q : Source) (v : Byte) (s : State) : fifoSide (putFrom q v s) = fifoSide (putEvent v s) := by
  have hview := fullP_drain q s
  cases hfull : fullP s with
  | true => rw [putFrom, putEvent_full v (hview.trans hfull), putEvent_full v hfull, fifoSide_raiseErr,
      fifoSide_raiseErr, fifoSide_drain]
  | false =>
    rw [putFrom, putEvent_room v (hview.trans hfull), putEvent_room v hfull]
    cases q <;> rfl

theorem fifoSide_capture (a : AonIn) (pre s : State) : fifoSide (capture a pre s) = fifoSide s := by
  cases hm : merges a pre with
  | true =>
    simp only [capture, hm, if_true]
    exact fifoSide_raiseErr .evqMrg _
  | false => simp [capture, hm, fifoSide]

/-- `t` differs from `s` at most in the power FSM, but for the chain of the request, and in the crossings of FATAL and
of the acknowledge: what the power FSM writes at an edge (10_state.md R53). -/
def PowerOnly (s t : State) : Prop :=
  ∃ p f k, t = { s with
      power := p
      consumer := { s.consumer with fatalSync := f }
      sleep := { s.sleep with ackChain := k } } ∧
    p.reqChain = s.power.reqChain

theorem powerEdge_only (a : AonIn) (src : BitVec 5) (s : State) : PowerOnly s (powerEdge a src s) := by
  cases hst : s.power.pstate with
  | idle => rw [powerEdge_idle a src hst]; split_ifs <;> exact ⟨_, _, _, rfl, rfl⟩
  | disarm1 => rw [powerEdge_disarm1 a src hst, disarm1Response]; split_ifs <;> exact ⟨_, _, _, rfl, rfl⟩
  | arm => rw [powerEdge_arm a src hst, armResponse]; split_ifs <;> exact ⟨_, _, _, rfl, rfl⟩
  | sleep => rw [powerEdge_sleep a src hst]; split_ifs <;> exact ⟨_, _, _, rfl, rfl⟩
  | disarm2 => rw [powerEdge_disarm2 a src hst, disarm2Response]; split_ifs <;> exact ⟨_, _, _, rfl, rfl⟩
  | restore => rw [powerEdge_restore a src hst]; split_ifs <;> exact ⟨_, _, _, rfl, rfl⟩
  | fatal => rw [powerEdge_fatal a src hst]; exact ⟨_, _, _, rfl, rfl⟩

theorem fifoSide_powerEdge (a : AonIn) (src : BitVec 5) (s : State) : fifoSide (powerEdge a src s) = fifoSide s := by
  obtain ⟨p, f, k, h, -⟩ := powerEdge_only a src s
  rw [h]
  rfl

theorem reqChain_powerEdge (a : AonIn) (src : BitVec 5) (s : State) :
    (powerEdge a src s).power.reqChain = s.power.reqChain := by
  obtain ⟨p, f, k, h, hreq⟩ := powerEdge_only a src s
  rw [h]
  exact hreq

/-- The producer's part of an aon_clk edge puts an event, or leaves the FIFO alone. -/
def PutEffect (s t : State) : Prop := fifoSide t = fifoSide s ∨ ∃ v, fifoSide t = fifoSide (putEvent v s)

theorem PutEffect.of_fifoSide_eq {s t u : State} (h : PutEffect s t) (hu : fifoSide u = fifoSide t) : PutEffect s u :=
  h.imp hu.trans fun ⟨v, hv⟩ => ⟨v, hu.trans hv⟩

/-- A put does not touch the producer's copies of the read pointer. -/
theorem putEvent_rsync (v : Byte) (s : State) : (putEvent v s).producer.rsync = s.producer.rsync := by
  cases hfull : fullP s with
  | true => rw [putEvent_full v hfull]; rfl
  | false => rw [putEvent_room v hfull]

theorem PutEffect.rsync_eq {s t : State} (h : PutEffect s t) : t.producer.rsync = s.producer.rsync := by
  rcases h with h | ⟨v, h⟩
  · exact congrArg FifoSide.rsync h
  · exact (congrArg FifoSide.rsync h).trans (putEvent_rsync v s)

theorem putStage_putEffect (s : State) : GoesOnTo (PutEffect s) (putStage exec s) := by
  unfold putStage
  split
  · exact goesOnTo_next (.inl rfl)
  · rw [exec_sourceInstr]
    exact goesOnTo_next (.inr ⟨_, fifoSide_putFrom _ _ s⟩)

theorem rejectStage_fifoSide (a : AonIn) (s : State) :
    GoesOnTo (fun t => fifoSide t = fifoSide s) (rejectStage exec a s) := by
  unfold rejectStage
  split
  · exact goesOnTo_next (fifoSide_raiseErr .evqRej s)
  · exact goesOnTo_next rfl

/-- An aon_clk edge out of reset puts at most one event, and then clocks the crossing of the read pointer. -/
theorem aonEdge_effect {s : State} (a : AonIn) (h : s.rst.aonInRst = false) :
    ∃ t, PutEffect s t ∧ aonEdge exec a s = .next (aonSync a t) := by
  obtain ⟨t, ht, hput⟩ := putStage_putEffect s
  obtain ⟨u, hu, hrej⟩ := rejectStage_fifoSide a t
  have hrest : fifoSide (powerEdge a (wakeSources a s) (capture a s u)) = fifoSide t := by
    rw [fifoSide_powerEdge, fifoSide_capture, hrej]
  refine ⟨_, hput.of_fifoSide_eq hrest, ?_⟩
  simp only [aonEdge, h, Bool.false_eq_true, if_false, ht, hu, andThen, aonRest]

end Sys2Proof.Proofs
end

