-- ==== Sys2Proof/Proofs/HostAccesses.lean ====
section
/-! The access a clk edge runs, where it waits, and what the width check and the reserved offsets answer
(20_memory.md R90 to R93). -/

namespace Sys2Proof.Proofs

open Sys2Proof Sys2Proof.Config Sys2Proof.Machine Sys2Proof.Safety

/-! ## The presented access -/

/-- The op in progress goes on for one cycle, and none goes on by itself; the synchronisers come last. -/
theorem engine_then_clkSync (c : ClkIn) (s u : State) :
    let rest := andThen (if s.engine.estate = .run then engineStage exec u else .next u) fun v => .next (clkSync c v)
    (s.engine.estate = .idle → rest = .next (clkSync c u)) ∧
      (s.engine.estate = .run → ∃ v, engineStage exec u = .next v ∧ rest = .next (clkSync c v)) := by
  refine ⟨fun hidle => by simp [hidle, andThen], fun hrun => ?_⟩
  obtain ⟨v, hv⟩ := engineStage_goesOn u
  exact ⟨v, hv, by simp [hrun, hv, andThen]⟩

theorem busStage_of_queue_cons {s t : State} {r : HostReq} {q : List HostReq} (hq : s.bus.hostQ = r :: q)
    (ht : exec (decodeReq r) s = .next t) : busStage exec s = .next (retire t) := by
  simp [busStage, presented, hq, ht, andThen]

theorem busStage_of_queue_nil {s : State} (hq : s.bus.hostQ = []) : busStage exec s = .next s := by
  simp [busStage, presented, hq]

/-- Settles O4: the three stages of a clk edge, by what stands first in the queue. -/
theorem stepRunsThePresentedAccess : Obligations.StepRunsThePresentedAccess := by
  intro s s' c ts hs hrst hs'
  have hedge : step s = andThen (busStage exec s') fun t =>
      andThen (if s.engine.estate = .run then engineStage exec t else .next t) fun u => .next (clkSync c u) := by
    rw [step_eq_tickStep hs, hs']
    exact clkEdge_eq c hrst
  refine ⟨fun r q t u hq ht hu => ?_, fun hq => ?_⟩
  · obtain rfl : u = retire t := hu
    rw [hedge, busStage_of_queue_cons hq ht]
    exact engine_then_clkSync c s (retire t)
  · rw [hedge, busStage_of_queue_nil hq]
    exact engine_then_clkSync c s s'

/-! ## The width and alignment check -/

/-- The low two bits of an offset are its remainder modulo 4. -/
theorem illegalAccess_iff (off : BitVec 8) (size : BitVec 2) :
    illegalAccess off size = true ↔ size ≠ 2#2 ∨ off.toNat % 4 ≠ 0 := by
  have hlow : off.extractLsb' 0 2 = 0#2 ↔ off.toNat % 4 = 0 := by
    rw [← BitVec.toNat_inj]
    simp
  simp [illegalAccess, hlow]

theorem decodeReq_illegal {r : HostReq} (h : illegalAccess r.off r.size = true) :
    decodeReq r = .busErr (BitVec.ofBool r.write) r.off r.size := by
  simp [decodeReq, h]

theorem decodeReq_legal {r : HostReq} (h : illegalAccess r.off r.size = false) :
    decodeReq r = decodeLegal r.write r.off r.wdata := by
  simp [decodeReq, h]

/-- The instruction is a bus error. -/
def isBusErr : Instr → Bool
  | .busErr _ _ _ => true
  | _ => false

/-- A legal access is one to a register or to a reserved offset. -/
theorem isBusErr_decodeLegal (write : Bool) (off : BitVec 8) (v : Word) :
    isBusErr (decodeLegal write off v) = false := by
  simp only [decodeLegal, apply_ite isBusErr]
  simp only [isBusErr, ite_self]

theorem decodeReq_eq_busErr_iff (r : HostReq) :
    (∃ w o z, decodeReq r = .busErr w o z) ↔ illegalAccess r.off r.size = true := by
  cases hill : illegalAccess r.off r.size with
  | true => exact iff_of_true ⟨_, _, _, decodeReq_illegal hill⟩ rfl
  | false =>
    refine iff_of_false ?_ Bool.false_ne_true
    rintro ⟨w, o, z, hdec⟩
    have hlegal := isBusErr_decodeLegal r.write r.off r.wdata
    rw [← decodeReq_legal hill, hdec] at hlegal
    exact Bool.noConfusion hlegal

/-- Settles O8: the check of R91 decides between the bus error and a register, and the bus error only answers. -/
theorem illegalAccessIsABusError : Obligations.IllegalAccessIsABusError := by
  intro r s
  refine ⟨fun h => ?_, (decodeReq_eq_busErr_iff r).trans (illegalAccess_iff r.off r.size), fun _ _ _ => rfl⟩
  rw [decodeReq_illegal ((illegalAccess_iff r.off r.size).2 h)]
  rfl

/-! ## Reserved offsets -/

/-- The three ranges of the reserved offsets are those with one of the top three bits set, checked on each offset. -/
theorem top_bit_of_reserved : ∀ off : BitVec 8, 0x20 ≤ off.toNat →
    off.extractLsb' 7 1 = 1#1 ∨ off.extractLsb' 6 1 = 1#1 ∨ off.extractLsb' 5 1 = 1#1 := by
  decide

theorem exec_decodeLegal_reserved {off : BitVec 8} (h : 0x20 ≤ off.toNat) (write : Bool) (v : Word) (s : State) :
    exec (decodeLegal write off v) s = reservedAccess s := by
  have htop := top_bit_of_reserved off h
  unfold decodeLegal
  dsimp only
  by_cases h7 : off.extractLsb' 7 1 = 1#1
  · rw [if_pos h7]; cases write <;> rfl
  rw [if_neg h7]
  by_cases h6 : off.extractLsb' 6 1 = 1#1
  · rw [if_pos h6]; cases write <;> rfl
  rw [if_neg h6, if_pos ((htop.resolve_left h7).resolve_left h6)]
  cases write <;> rfl

/-- The offsets 0 to 0x1C, one register each (10_state.md R39). -/
theorem decodeReq_registers (v : Word) :
    ((List.range 8).map fun k => decodeReq (readReq (BitVec.ofNat 8 (4 * k)))) =
        [.rdId, .rdCtrl, .rdStatus, .rdCmd, .rdResult, .rdEvqPop, .rdEvqStat, .rdPwrStat] ∧
      ((List.range 8).map fun k => decodeReq (writeReq (BitVec.ofNat 8 (4 * k)) v)) =
        [.wrId v, .wrCtrl v, .wrStatus v, .wrCmd v, .wrResult v, .wrEvqPop v, .wrEvqStat v, .wrPwrStat v] := by
  constructor
  · simp [List.range_succ, decodeReq, decodeLegal, readReq, illegalAccess]
  · simp [List.range_succ, decodeReq, decodeLegal, writeReq, illegalAccess]

/-- Settles O9: the register accesses one by one; the reserved offsets by their top bits. -/
theorem offsetsSelectRegisters : Obligations.OffsetsSelectRegisters := by
  refine ⟨decodeReq_registers, fun r s hsize halign hoff => ?_, fun n3 n4 n5 v s i hi => ?_⟩
  · have hlegal : illegalAccess r.off r.size = false := by
      rw [← Bool.not_eq_true, illegalAccess_iff]
      simp [hsize, halign]
    rw [decodeReq_legal hlegal]
    exact exec_decodeLegal_reserved hoff r.write r.wdata s
  · simp only [List.mem_cons, List.not_mem_nil, or_false] at hi
    rcases hi with rfl | rfl | rfl | rfl | rfl | rfl <;> rfl

/-! ## Held CMD writes -/

/-- BUSY, or FATAL seen: the hold condition of R93 and R323. -/
theorem cmdHeld_eq_true (s : State) :
    cmdHeld s = true ↔ s.engine.estate = .run ∨ s.sleep.pwrReqTgl ≠ pwrAckSync s ∨ fatalSyncOut s = true := by
  have hrun : s.engine.estate ≠ .idle ↔ s.engine.estate = .run := by cases s.engine.estate <;> decide
  simp [cmdHeld, busy, hrun, or_assoc]

theorem cmdWrite_held {s : State} (h : cmdHeld s = true) (accept : State → State) :
    cmdWrite accept s = .next (holdAccess s) := by
  simp [cmdWrite, h]

theorem execInit_held {s : State} (h : cmdHeld s = true) (contrast bias : BitVec 8) (rsv : BitVec 12) :
    execInit contrast bias rsv s = .next (holdAccess s) :=
  cmdWrite_held h _

theorem reservedWrite_held {s : State} (h : cmdHeld s = true) (op : BitVec 4) (arg : BitVec 28) :
    reservedWrite op arg s = .next (holdAccess s) :=
  cmdWrite_held h _

theorem execSleep_held {s : State} (hslp : s.sleep.slpHeld = false) (h : cmdHeld s = true) (dur : BitVec 24)
    (deep : BitVec 1) (rsv : BitVec 3) : execSleep dur deep rsv s = .next (holdAccess s) := by
  simp [execSleep, hslp, h]

/-- All CMD instructions wait alike, SLEEP before its acceptance too. -/
theorem exec_cmd_held {i : Instr} (hi : i.kind = .cmd) {s : State} (hslp : s.sleep.slpHeld = false)
    (h : cmdHeld s = true) : exec i s = .next (holdAccess s) := by
  cases i with
  | sleep dur deep rsv => exact execSleep_held hslp h dur deep rsv
  | init contrast bias rsv => exact execInit_held h contrast bias rsv
  | nop | setpix | getpix | clear | flush | setcontrast | dispctl | settempco => exact cmdWrite_held h _
  | rsvdA | rsvdB | rsvdC | rsvdD | rsvdE | rsvdF => exact reservedWrite_held h _ _
  | _ => cases hi

/-- Settles O18: the three conditions are the model's hold condition, and a hold writes the response ports only. -/
theorem cmdWritesHold : Obligations.CmdWritesHold := by
  intro i s hi hslp hwait
  rw [← cmdHeld_eq_true] at hwait
  exact ⟨_, exec_cmd_held hi hslp hwait, rfl, rfl, rfl⟩

end Sys2Proof.Proofs
end

