-- ==== Sys2Proof/Proofs/Synchronisers.lean ====
section
/-! One edge of a synchroniser, many edges of one with a steady source, and the synchronisers that each clock's edge
clocks (20_memory.md R107). -/

namespace Sys2Proof.Proofs

open Sys2Proof Sys2Proof.Config Sys2Proof.Machine Sys2Proof.Safety

/-! ## One synchroniser -/

theorem held_ne_nil {α : Type} {x : Cross α} {v : α} (h : x.held.getLast? = some v) : x.held ≠ [] := by
  rintro hnil
  simp [hnil] at h

/-- A destination edge shifts the stages and ends the window. -/
theorem clocked_clock {α : Type} (d : α) (n : Nat) (x : Cross α) : Clocked x (x.clock d n) :=
  fun _ hlast => ⟨Cross.clock_held d n hlast, _, Cross.sample_mem d n (held_ne_nil hlast), rfl⟩

/-- With one value in the window that value is drawn. -/
theorem clock_of_held_singleton {α : Type} (d : α) (n : Nat) {x : Cross α} {v : α} (h : x.held = [v]) :
    x.clock d n = { held := [v], chain := (v :: x.chain).take x.chain.length } := by
  simp [Cross.clock, Cross.close, Cross.sample, h, Nat.mod_one, List.dropLast_eq_take]

/-- Each edge shifts one more copy of a steady value in. -/
theorem foldl_clock_of_held_singleton {α : Type} (d : α) (picks : List Nat) {x : Cross α} {v : α} (h : x.held = [v]) :
    (picks.foldl (fun y n => y.clock d n) x).chain =
      (List.replicate picks.length v ++ x.chain).take x.chain.length := by
  induction picks generalizing x with
  | nil => simp
  | cons n picks ih =>
    rw [List.foldl_cons, clock_of_held_singleton d n h, ih rfl]
    simp [List.take_append, List.replicate_succ', List.take_take]

/-- The first edge after the source became steady clears the window; each later one fills one more stage. -/
theorem foldl_clock_out {α : Type} {x : Cross α} {v : α} (d : α) {picks : List Nat} (hlast : x.held.getLast? = some v)
    (hne : x.chain ≠ []) (hlen : x.chain.length + 1 ≤ picks.length) :
    (picks.foldl (fun y n => y.clock d n) x).out d = v := by
  obtain _ | ⟨n, picks⟩ := picks
  · simp at hlen
  have hstages : (x.clock d n).chain.length ≤ picks.length := by
    rw [Cross.clock_chain_length]
    simpa using hlen
  have hchain : ((n :: picks).foldl (fun y n => y.clock d n) x).chain = List.replicate x.chain.length v := by
    rw [List.foldl_cons, foldl_clock_of_held_singleton d picks (Cross.clock_held d n hlast),
      List.take_append_of_le_length (by simpa using hstages), List.take_replicate, Nat.min_eq_left hstages,
      Cross.clock_chain_length]
  have hpos : 0 < x.chain.length := List.length_pos_iff.2 hne
  calc ((n :: picks).foldl (fun y n => y.clock d n) x).out d
    _ = (Cross.settled x.chain.length v).out d := by simp only [Cross.out, hchain, Cross.settled]
    _ = v := Cross.out_settled d v _ hpos

/-! ## The synchronisers into clk -/

/-- A clk edge out of reset clocks the five crossings of the consumer and that of the acknowledge. -/
theorem clkEdge_clocks {s t : State} (c : ClkIn) (hrst : s.rst.clkInRst = false) (h : clkEdge exec c s = .next t) :
    Clocked s.consumer.wsync t.consumer.wsync ∧ Clocked s.consumer.ovfSync t.consumer.ovfSync ∧
      Clocked s.consumer.mrgSync t.consumer.mrgSync ∧ Clocked s.consumer.rejSync t.consumer.rejSync ∧
      Clocked s.consumer.fatalSync t.consumer.fatalSync ∧ Clocked s.sleep.ackChain t.sleep.ackChain := by
  obtain ⟨v, u, hhost, ⟨honly, -⟩, hu⟩ := clkEdge_effect c hrst
  obtain rfl : clkSync c u = t := by simpa [h] using hu.symm
  obtain ⟨e, p, f, r, rfl⟩ := honly
  obtain ⟨-, -, hack, rp, g, hcons⟩ := hhost.frame
  simp only [clkSync, State.withSleep_consumer, State.withConsumer_consumer, State.withSleep_sleep,
    hcons, hack]
  exact ⟨clocked_clock _ _ _, clocked_clock _ _ _, clocked_clock _ _ _, clocked_clock _ _ _, clocked_clock _ _ _,
    clocked_clock _ _ _⟩

/-! ## The synchronisers into aon_clk -/

/-- An aon_clk edge out of reset clocks the crossings of the read pointer and of the request. -/
theorem aonEdge_clocks {s t : State} (a : AonIn) (hrst : s.rst.aonInRst = false) (h : aonEdge exec a s = .next t) :
    Clocked s.producer.rsync t.producer.rsync ∧ Clocked s.power.reqChain t.power.reqChain := by
  constructor
  · obtain ⟨u, hput, hu⟩ := aonEdge_effect a hrst
    obtain rfl : aonSync a u = t := by simpa [h] using hu.symm
    have hsame : u.producer.rsync = s.producer.rsync := hput.rsync_eq
    change Clocked _ (u.producer.rsync.clock 0#5 a.rPick)
    rw [hsame]
    exact clocked_clock _ _ _
  · obtain ⟨f, p, c, u, hu, hpower⟩ := aonEdge_power a hrst
    obtain rfl : u = t := by simpa [h] using hu.symm
    rw [hpower]
    dsimp only
    rw [reqChain_powerEdge]
    exact clocked_clock _ _ _

/-- Settles O46: the settling of one synchroniser, and the synchronisers that each clock's edge clocks. -/
theorem synchroniserSettles : Obligations.SynchroniserSettles := by
  refine ⟨fun α x v d picks hlast hne hlen => foldl_clock_out d hlast hne hlen, fun s t ts h => ⟨?_, ?_⟩⟩
  · intro c hs hrst
    rw [step_eq_tickStep hs] at h
    exact clkEdge_clocks (s := s.withEnv { s.env with sched := ts }) c hrst h
  · intro a hs hrst
    rw [step_eq_tickStep hs] at h
    exact aonEdge_clocks (s := s.withEnv { s.env with sched := ts }) a hrst h

end Sys2Proof.Proofs
end

