-- ==== Sys2Proof/Proofs/MemoryForm.lean ====
section
/-! The canonical form of both RAMs, kept by every tick (20_memory.md R96, R98). -/

namespace Sys2Proof.Proofs

open Sys2Proof Sys2Proof.Config Sys2Proof.Machine Sys2Proof.Safety

theorem FbEffect.wf {s t : State} (h : FbEffect s t) (hs : s.fb.wf fbBytes) : t.fb.wf fbBytes := by
  rcases h with h | ⟨i, v, hi, h⟩
  · rwa [h]
  · rw [h]
    exact Memory.wf_set v hs hi

theorem putEvent_fifo_wf (v : Byte) {s : State} (hs : s.fifo.wf fifoDepth) : (putEvent v s).fifo.wf fifoDepth := by
  cases hfull : fullP s with
  | true => rwa [putEvent_full v hfull]
  | false =>
    rw [putEvent_room v hfull]
    exact fifoWrite_wf _ v hs

theorem PutEffect.fifo_wf {s t : State} (h : PutEffect s t) (hs : s.fifo.wf fifoDepth) : t.fifo.wf fifoDepth := by
  rcases h with h | ⟨v, h⟩
  · rwa [show t.fifo = s.fifo from congrArg FifoSide.fifo h]
  · rw [show t.fifo = (putEvent v s).fifo from congrArg FifoSide.fifo h]
    exact putEvent_fifo_wf v hs

theorem clkEdge_memoryOk (c : ClkIn) {s : State} (hs : MemoryOk s) : GoesOnTo MemoryOk (clkEdge exec c s) := by
  obtain ⟨hfb, hfifo⟩ := hs
  cases hrst : s.rst.clkInRst with
  | true => exact ⟨issueAccess c.req (clkResetEdge c s), by simp [clkEdge, hrst], hfb, hfifo⟩
  | false =>
    obtain ⟨t, u, hhost, hengine, hu⟩ := clkEdge_effect c hrst
    obtain ⟨hfb', hfifo', -, -⟩ := hhost.frame
    have hsame : u.fifo = t.fifo := congrArg FifoSide.fifo hengine.fifoSide_eq
    refine ⟨_, hu, hengine.fb.wf ?_, ?_⟩
    · rw [hfb']; exact hfb
    · change u.fifo.wf fifoDepth
      rw [hsame, hfifo']
      exact hfifo

theorem aonEdge_memoryOk (a : AonIn) {s : State} (hs : MemoryOk s) : GoesOnTo MemoryOk (aonEdge exec a s) := by
  obtain ⟨hfb, hfifo⟩ := hs
  cases hrst : s.rst.aonInRst with
  | true => exact ⟨aonResetEdge a s, by simp [aonEdge, hrst], hfb, hfifo⟩
  | false =>
    obtain ⟨t, hput, ht⟩ := aonEdge_effect a hrst
    have hsame : (aonSync a t).fb = s.fb := congrArg ClkSide.fb ((aonEdge_keepsClkSide a s).of_eq_next ht)
    exact ⟨_, ht, hsame ▸ hfb, hput.fifo_wf hfifo⟩

theorem tickStep_memoryOk (k : Tick) {s : State} (hs : MemoryOk s) : GoesOnTo MemoryOk (tickStep exec k s) := by
  cases k with
  | clk c => exact clkEdge_memoryOk c hs
  | aon a => exact aonEdge_memoryOk a hs
  | resetAssert =>
    exact goesOnTo_next ⟨⟨List.Pairwise.nil, fun _ h => nomatch h⟩, ⟨List.Pairwise.nil, fun _ h => nomatch h⟩⟩
  | resetRelease => exact goesOnTo_next hs

/-- Settles O55: each kind of tick keeps both forms, and taking it changes neither RAM. -/
theorem stepKeepsMemoryForm : Obligations.StepKeepsMemoryForm := by
  intro s t hs h
  obtain ⟨e, hnext, -⟩ := nextTick_snd_eq s
  have hs' : MemoryOk (nextTick s).2 := by rw [hnext]; exact hs
  exact (tickStep_memoryOk (nextTick s).1 hs').of_eq_next h

end Sys2Proof.Proofs
end

