-- ==== Sys2Proof/Proofs/FifoOrder.lean ====
section
/-! The FIFO's pointers and all their copies, from the producer's oldest copy of the read pointer to the write pointer,
as one list in which no element is ahead of a later one, 16 slots long at most (20_memory.md R105 to R107). A pop
inserts the next read pointer between the two crossings, a put appends the next write pointer, and a destination edge
samples a crossing's list again; so the order is kept, and a put never meets an unread slot. -/

namespace Sys2Proof.Proofs

open Sys2Proof Sys2Proof.Config Sys2Proof.Machine Sys2Proof.Safety

/-! ## Lists in order -/

section
variable {α : Type} {R : α → α → Prop} {l m : List α} {a v : α}

theorem rel_of_getLast? [Std.Refl R] (h : l.Pairwise R) (hv : l.getLast? = some v) (ha : a ∈ l) : R a v := by
  obtain rfl := (List.getLast_eq_iff_getLast?_eq_some (List.ne_nil_of_mem ha)).2 hv
  exact h.rel_getLast ha

theorem rel_of_head? [Std.Refl R] (h : l.Pairwise R) (hv : l.head? = some v) (ha : a ∈ l) : R v a := by
  obtain rfl := (List.head_eq_iff_head?_eq_some (List.ne_nil_of_mem ha)).2 hv
  exact h.rel_head ha

theorem pairwise_concat (h : l.Pairwise R) (hl : ∀ a ∈ l, R a v) : (l ++ [v]).Pairwise R :=
  List.pairwise_append.2 ⟨h, List.pairwise_singleton R v, by simpa using hl⟩

theorem pairwise_insert (h : (l ++ m).Pairwise R) (hl : ∀ a ∈ l, R a v) (hm : ∀ a ∈ m, R v a) :
    (l ++ [v] ++ m).Pairwise R := by
  obtain ⟨hpl, hpm, hcross⟩ := List.pairwise_append.1 h
  rw [List.append_assoc, List.singleton_append]
  refine List.pairwise_append.2 ⟨hpl, List.pairwise_cons.2 ⟨hm, hpm⟩, fun a ha => ?_⟩
  exact List.forall_mem_cons.2 ⟨hl a ha, hcross a ha⟩

end

/-! ## The copies a crossing holds -/

/-- The copies of its source that a crossing holds, oldest first. -/
def crossTrail {α : Type} (x : Cross α) : List α := x.chain.reverse ++ x.held

/-- `l'` holds values of `l`, some perhaps more than once, in an order that `l` allows. -/
structure Resampled {α : Type} (l l' : List α) : Prop where
  subset : l' ⊆ l
  pairwise : ∀ (R : α → α → Prop) [Std.Refl R], l.Pairwise R → l'.Pairwise R

theorem Resampled.of_sublist {α : Type} {l l' : List α} (h : l'.Sublist l) : Resampled l l' :=
  ⟨h.subset, fun _ _ hl => hl.sublist h⟩

theorem Resampled.trans {α : Type} {l l' l'' : List α} (h : Resampled l l') (k : Resampled l' l'') : Resampled l l'' :=
  ⟨List.Subset.trans k.subset h.subset, fun R _ hl => k.pairwise R (h.pairwise R hl)⟩

theorem Resampled.append {α : Type} {l l' m m' : List α} (h : Resampled l l') (k : Resampled m m') :
    Resampled (l ++ m) (l' ++ m') := by
  refine ⟨List.append_subset.2 ⟨List.subset_append_of_subset_left _ h.subset,
    List.subset_append_of_subset_right _ k.subset⟩, fun R _ hlm => ?_⟩
  obtain ⟨hl, hm, hcross⟩ := List.pairwise_append.1 hlm
  exact List.pairwise_append.2
    ⟨h.pairwise R hl, k.pairwise R hm, fun a ha b hb => hcross a (h.subset ha) b (k.subset hb)⟩

/-- Any value of a window, and then the newest one. -/
theorem resampled_sample_last {α : Type} {l : List α} {v last : α} (hv : v ∈ l) (hlast : l.getLast? = some last) :
    Resampled l [v, last] := by
  refine ⟨by simp [hv, List.mem_of_getLast? hlast], fun R _ hl => ?_⟩
  simpa using rel_of_getLast? hl hlast hv

/-- What an edge of the destination clock, in reset or out of it, does to a crossing: the number of stages and the
newest value of the window stay, and the copies are sampled again. -/
structure Retimed {α : Type} (x y : Cross α) : Prop where
  trail : Resampled (crossTrail x) (crossTrail y)
  stages : y.chain.length = x.chain.length
  source : y.held.getLast? = x.held.getLast?

theorem Retimed.refl {α : Type} (x : Cross α) : Retimed x x := ⟨.of_sublist (.refl _), rfl, rfl⟩

theorem retimed_clock {α : Type} (d : α) (n : Nat) {x : Cross α} {v : α} (h : x.held.getLast? = some v) :
    Retimed x (x.clock d n) where
  stages := Cross.clock_chain_length d n x
  source := by rw [Cross.clock_held d n h, h]; rfl
  trail := by
    have hshift : (x.clock d n).chain.reverse.Sublist (x.chain.reverse ++ [x.sample d n]) := by
      simpa [Cross.clock] using (List.dropLast_sublist (x.sample d n :: x.chain)).reverse
    have hsample : Resampled x.held [x.sample d n, v] :=
      resampled_sample_last (Cross.sample_mem d n (held_ne_nil h)) h
    have hwhole : Resampled (crossTrail x) (x.chain.reverse ++ [x.sample d n, v]) :=
      Resampled.append (.of_sublist (.refl _)) hsample
    refine hwhole.trans (.of_sublist ?_)
    rw [crossTrail, Cross.clock_held d n h]
    simpa using hshift.append_right [v]

theorem retimed_close {α : Type} (d : α) {x : Cross α} {v : α} (h : x.held.getLast? = some v) :
    Retimed x (x.close d) where
  stages := rfl
  source := by rw [Cross.close_held d h, h]; rfl
  trail := by
    rw [crossTrail, crossTrail, Cross.close_held d h]
    have hlast : [v].Sublist x.held := List.singleton_sublist.2 (List.mem_of_getLast? h)
    exact .of_sublist (hlast.append_left _)

/-- The copies of a source in time order begin with the output of the crossing. -/
theorem crossTrail_head? {α : Type} (d : α) {x : Cross α} (h : x.chain ≠ []) :
    (crossTrail x).head? = some (x.out d) := by
  have hrev : x.chain.reverse ≠ [] := by simpa using h
  rw [crossTrail, List.head?_append_of_ne_nil _ hrev, List.head?_reverse, Cross.out, chainOut,
    List.getLastD_eq_getLast?, List.getLast?_eq_some_getLast h, Option.getD_some]

theorem crossTrail_getLast? {α : Type} {x : Cross α} {v : α} (h : x.held.getLast? = some v) :
    (crossTrail x).getLast? = some v := by
  simp [crossTrail, List.getLast?_append, h]

@[simp] theorem crossTrail_push {α : Type} (v : α) (x : Cross α) : crossTrail (x.push v) = crossTrail x ++ [v] := by
  simp [crossTrail, Cross.push]

/-! ## Distances from a base -/

/-- How far a gray pointer is ahead of the pointer `b`, modulo 32 (42_event_fifo.md R251). -/
def aheadOf (b g : Ptr) : Nat := (gray2bin g - b).toNat

/-- Seen from `b`, the gray pointer `g` is not ahead of `h`. -/
def Behind (b g h : Ptr) : Prop := aheadOf b g ≤ aheadOf b h

theorem behind_refl (b : Ptr) : Std.Refl (Behind b) := ⟨fun _ => Nat.le_refl _⟩

theorem aheadOf_bin2gray (b p : Ptr) : aheadOf b (bin2gray p) = (p - b).toNat := by
  rw [aheadOf, gray2bin_bin2gray]

theorem aheadOf_inj {b g h : Ptr} (heq : aheadOf b g = aheadOf b h) : g = h := by
  have hbin : gray2bin g = gray2bin h := by simpa [aheadOf] using BitVec.eq_of_toNat_eq heq
  rw [← bin2gray_gray2bin g, hbin, bin2gray_gray2bin]

/-- The next pointer is one slot further, short of a whole turn. -/
theorem aheadOf_succ {b p : Ptr} (h : aheadOf b (bin2gray p) ≤ 16) :
    aheadOf b (bin2gray (p + 1#5)) = aheadOf b (bin2gray p) + 1 := by
  rw [aheadOf_bin2gray] at h
  rw [aheadOf_bin2gray, aheadOf_bin2gray]
  bv_omega

/-- Distances between two pointers of which the first is not ahead. -/
theorem toNat_sub_eq_aheadOf_sub {b g h : Ptr} (hle : Behind b g h) :
    (gray2bin h - gray2bin g).toNat = aheadOf b h - aheadOf b g := by
  unfold Behind aheadOf at *
  bv_omega

/-! ## The pointers in order -/

/-- Every copy of the read pointer, oldest first, and then every copy of the write pointer. -/
def FifoSide.trail (f : FifoSide) : List Ptr := crossTrail f.rsync ++ crossTrail f.wsync

/-- The producer's view of the read pointer: its oldest copy. -/
def FifoSide.base (f : FifoSide) : Ptr := gray2bin (f.rsync.out 0#5)

/-- The crossings carry the gray pointers, and seen from `b` the copies are in order and at most 16 slots ahead. -/
structure OrderedFrom (b : Ptr) (f : FifoSide) : Prop where
  rsync_stages : f.rsync.chain ≠ []
  wsync_stages : f.wsync.chain ≠ []
  rsync_source : f.rsync.held.getLast? = some f.rptrGray
  wsync_source : f.wsync.held.getLast? = some f.wptrGray
  rptr_gray : f.rptrGray = bin2gray f.rptr
  wptr_gray : f.wptrGray = bin2gray f.wptr
  in_order : f.trail.Pairwise (Behind b)
  span : aheadOf b f.wptrGray ≤ 16

section
variable {b : Ptr} {f : FifoSide}

/-- No copy of the read pointer is ahead of the read pointer. -/
theorem OrderedFrom.behind_rptr (h : OrderedFrom b f) {g : Ptr} (hg : g ∈ crossTrail f.rsync) :
    Behind b g f.rptrGray := by
  have hrefl := behind_refl b
  obtain ⟨hr, -, -⟩ := List.pairwise_append.1 h.in_order
  exact rel_of_getLast? hr (crossTrail_getLast? h.rsync_source) hg

/-- The consumer's view of the write pointer is not ahead of any of its copies. -/
theorem OrderedFrom.wsyncOut_behind (h : OrderedFrom b f) {g : Ptr} (hg : g ∈ crossTrail f.wsync) :
    Behind b (f.wsync.out 0#5) g := by
  have hrefl := behind_refl b
  obtain ⟨-, hw, -⟩ := List.pairwise_append.1 h.in_order
  exact rel_of_head? hw (crossTrail_head? 0#5 h.wsync_stages) hg

theorem OrderedFrom.trail_getLast? (h : OrderedFrom b f) : f.trail.getLast? = some f.wptrGray := by
  rw [FifoSide.trail, List.getLast?_append, crossTrail_getLast? h.wsync_source]
  rfl

/-- No copy of either pointer is ahead of the write pointer. -/
theorem OrderedFrom.behind_wptr (h : OrderedFrom b f) {g : Ptr} (hg : g ∈ f.trail) : Behind b g f.wptrGray := by
  have hrefl := behind_refl b
  exact rel_of_getLast? h.in_order h.trail_getLast? hg

theorem OrderedFrom.rptr_mem (h : OrderedFrom b f) : f.rptrGray ∈ crossTrail f.rsync :=
  List.mem_of_getLast? (crossTrail_getLast? h.rsync_source)

theorem OrderedFrom.wsyncOut_mem (h : OrderedFrom b f) : f.wsync.out 0#5 ∈ crossTrail f.wsync :=
  List.mem_of_mem_head? (crossTrail_head? 0#5 h.wsync_stages)

theorem OrderedFrom.rptr_behind_wsyncOut (h : OrderedFrom b f) : Behind b f.rptrGray (f.wsync.out 0#5) := by
  obtain ⟨-, -, hcross⟩ := List.pairwise_append.1 h.in_order
  exact hcross _ h.rptr_mem _ h.wsyncOut_mem

/-- The producer's view of the read pointer is the oldest copy of all. -/
theorem OrderedFrom.base_behind (h : OrderedFrom b f) {g : Ptr} (hg : g ∈ f.trail) :
    Behind b (f.rsync.out 0#5) g := by
  have hrefl := behind_refl b
  have hfirst : f.trail.head? = some (f.rsync.out 0#5) := by
    simp [FifoSide.trail, List.head?_append, crossTrail_head? 0#5 h.rsync_stages]
  exact rel_of_head? h.in_order hfirst hg

/-- The occupancy, measured on the gray pointers. -/
theorem OrderedFrom.occupancy_eq (h : OrderedFrom b f) :
    (f.wptr - f.rptr).toNat = aheadOf b f.wptrGray - aheadOf b f.rptrGray := by
  have hdist := toNat_sub_eq_aheadOf_sub (h.behind_wptr (List.mem_append_left _ h.rptr_mem))
  have hw : gray2bin f.wptrGray = f.wptr := by rw [h.wptr_gray, gray2bin_bin2gray]
  have hr : gray2bin f.rptrGray = f.rptr := by rw [h.rptr_gray, gray2bin_bin2gray]
  rwa [hw, hr] at hdist

/-- The order may be seen from the producer's view of the read pointer. -/
theorem OrderedFrom.rebase (h : OrderedFrom b f) : OrderedFrom f.base f := by
  have hdist {g : Ptr} (hg : g ∈ f.trail) : aheadOf f.base g = aheadOf b g - aheadOf b (f.rsync.out 0#5) :=
    toNat_sub_eq_aheadOf_sub (h.base_behind hg)
  refine { h with in_order := ?_, span := ?_ }
  · refine h.in_order.imp_of_mem fun {g k} hg hk hle => ?_
    rw [Behind, hdist hg, hdist hk]
    exact Nat.sub_le_sub_right hle _
  · rw [hdist (List.mem_of_getLast? h.trail_getLast?)]
    exact (Nat.sub_le _ _).trans h.span

/-- Destination edges of both crossings keep the order. -/
theorem OrderedFrom.retime (h : OrderedFrom b f) {x y : Cross Ptr} (hx : Retimed f.rsync x) (hy : Retimed f.wsync y) :
    OrderedFrom b { f with rsync := x, wsync := y } where
  rsync_stages := by
    have hpos := List.length_pos_iff.2 h.rsync_stages
    exact List.length_pos_iff.1 (hx.stages ▸ hpos)
  wsync_stages := by
    have hpos := List.length_pos_iff.2 h.wsync_stages
    exact List.length_pos_iff.1 (hy.stages ▸ hpos)
  rsync_source := hx.source.trans h.rsync_source
  wsync_source := hy.source.trans h.wsync_source
  rptr_gray := h.rptr_gray
  wptr_gray := h.wptr_gray
  in_order :=
    have := behind_refl b
    (hx.trail.append hy.trail).pairwise _ h.in_order
  span := h.span

end

/-! ## A pop and a put -/

/-- A pop of a view that holds an event stays behind the consumer's view of the write pointer. -/
theorem popEvent_orderedFrom {b : Ptr} {s : State} (h : OrderedFrom b (fifoSide s)) :
    OrderedFrom b (fifoSide (popEvent s)) := by
  cases hempty : emptyC s with
  | true => rw [popEvent_empty hempty]; exact h
  | false =>
    have hne : s.consumer.rptrGray ≠ wsyncOut s := by simpa [emptyC] using hempty
    have hview : Behind b s.consumer.rptrGray (wsyncOut s) := h.rptr_behind_wsyncOut
    have hlt : aheadOf b s.consumer.rptrGray < aheadOf b (wsyncOut s) :=
      lt_of_le_of_ne hview fun heq => hne (aheadOf_inj heq)
    have hspan : aheadOf b (wsyncOut s) ≤ 16 :=
      (h.behind_wptr (List.mem_append_right _ h.wsyncOut_mem)).trans h.span
    have hgray : s.consumer.rptrGray = bin2gray s.consumer.rptr := h.rptr_gray
    have hnext : aheadOf b (bin2gray (s.consumer.rptr + 1#5)) = aheadOf b s.consumer.rptrGray + 1 := by
      rw [hgray] at hlt ⊢
      exact aheadOf_succ (hlt.le.trans hspan)
    rw [popEvent_some hempty]
    refine { h with rsync_source := Cross.push_held_last _ _, rptr_gray := rfl, in_order := ?_ }
    change (crossTrail (s.producer.rsync.push _) ++ crossTrail s.consumer.wsync).Pairwise _
    rw [crossTrail_push]
    refine pairwise_insert h.in_order (fun g hg => ?_) fun g hg => ?_
    · have hold : Behind b g s.consumer.rptrGray := h.behind_rptr hg
      unfold Behind at *
      omega
    · have hnew : Behind b (wsyncOut s) g := h.wsyncOut_behind hg
      unfold Behind at *
      omega

/-- A view that is not full has room for one more event (42_event_fifo.md R250, R251). -/
theorem room_of_not_fullP {s : State} (h : OrderedFrom (fifoSide s).base (fifoSide s)) (hfull : fullP s = false) :
    aheadOf (fifoSide s).base s.producer.wptrGray < 16 := by
  have hgray : s.producer.wptrGray = bin2gray s.producer.wptr := h.wptr_gray
  refine lt_of_le_of_ne h.span fun heq => ?_
  have hdist : s.producer.wptr - gray2bin (rsyncOut s) = 16#5 := by
    rw [hgray, aheadOf_bin2gray] at heq
    exact BitVec.eq_of_toNat_eq heq
  rw [(fullP_iff_sub_eq_16 hgray).2 hdist] at hfull
  cases hfull

/-- A put stays within 16 slots of the producer's view of the read pointer. -/
theorem putEvent_orderedFrom (v : Byte) {s : State} (h : OrderedFrom (fifoSide s).base (fifoSide s)) :
    OrderedFrom (fifoSide s).base (fifoSide (putEvent v s)) := by
  cases hfull : fullP s with
  | true => rw [putEvent_full v hfull, fifoSide_raiseErr]; exact h
  | false =>
    have hroom := room_of_not_fullP h hfull
    have hgray : s.producer.wptrGray = bin2gray s.producer.wptr := h.wptr_gray
    have hnext : aheadOf (fifoSide s).base (bin2gray (s.producer.wptr + 1#5)) =
        aheadOf (fifoSide s).base s.producer.wptrGray + 1 := by
      rw [hgray] at hroom ⊢
      exact aheadOf_succ hroom.le
    rw [putEvent_room v hfull]
    refine { h with wsync_source := Cross.push_held_last _ _, wptr_gray := rfl, in_order := ?_, span := ?_ }
    · change (crossTrail s.producer.rsync ++ crossTrail (s.consumer.wsync.push _)).Pairwise _
      rw [crossTrail_push, ← List.append_assoc]
      refine pairwise_concat h.in_order fun g hg => ?_
      have hold : Behind _ g s.producer.wptrGray := h.behind_wptr hg
      unfold Behind at *
      omega
    · change aheadOf _ (bin2gray _) ≤ 16
      omega

/-! ## Each kind of tick -/

/-- The pointers and their copies are in order, seen from some pointer. -/
def InOrder (s : State) : Prop := ∃ b, OrderedFrom b (fifoSide s)

theorem InOrder.of_fifoSide_eq {s t : State} (h : InOrder s) (heq : fifoSide t = fifoSide s) : InOrder t := by
  rw [InOrder, heq]
  exact h

/-- The order is seen from the producer's view of the read pointer as well. -/
theorem InOrder.from_base {s : State} (h : InOrder s) : OrderedFrom (fifoSide s).base (fifoSide s) := by
  obtain ⟨b, hb⟩ := h
  exact hb.rebase

theorem inOrder_of_fifoOrdered {s : State} (hgray : GrayOk s) (hcross : CrossingsOk s) (h : FifoOrdered s) :
    InOrder s := by
  obtain ⟨hw, hr⟩ := hgray
  obtain ⟨-, ⟨-, hwsync⟩, -, -, -, -, -, ⟨-, hrsync⟩, -⟩ := hcross
  obtain ⟨hrstages, hwstages, hpair, hspan⟩ := h
  have hbehind : (pointerTrail s).Pairwise (Behind (gray2bin (rsyncOut s))) :=
    (List.pairwise_map (f := ahead s)).1 hpair
  exact ⟨_, hrstages, hwstages, hrsync, hwsync, hr, hw, hbehind, hspan⟩

theorem InOrder.fifoOrdered {s : State} (h : InOrder s) : FifoOrdered s := by
  have hfrom := h.from_base
  exact ⟨hfrom.rsync_stages, hfrom.wsync_stages, List.pairwise_map.2 hfrom.in_order, hfrom.span⟩

theorem InOrder.popEvent {s : State} (h : InOrder s) : InOrder (popEvent s) := by
  obtain ⟨b, hb⟩ := h
  exact ⟨b, popEvent_orderedFrom hb⟩

theorem InOrder.putEvent (v : Byte) {s : State} (h : InOrder s) : InOrder (putEvent v s) :=
  ⟨_, putEvent_orderedFrom v h.from_base⟩

theorem InOrder.hostEffect {s t : State} (h : InOrder s) (k : HostEffect s t) : InOrder t := by
  rcases k with k | k
  · exact h.of_fifoSide_eq k.fifoSide_eq
  · exact h.popEvent.of_fifoSide_eq k.fifoSide_eq

theorem InOrder.putEffect {s t : State} (h : InOrder s) (k : PutEffect s t) : InOrder t := by
  rcases k with k | ⟨v, k⟩
  · exact h.of_fifoSide_eq k
  · exact (h.putEvent v).of_fifoSide_eq k

theorem InOrder.clkSync (c : ClkIn) {s : State} (h : InOrder s) : InOrder (clkSync c s) := by
  obtain ⟨b, hb⟩ := h
  exact ⟨b, hb.retime (.refl _) (retimed_clock 0#5 c.wPick hb.wsync_source)⟩

theorem InOrder.clkResetSync {s : State} (h : InOrder s) : InOrder (clkResetSync s) := by
  obtain ⟨b, hb⟩ := h
  exact ⟨b, hb.retime (.refl _) (retimed_close 0#5 hb.wsync_source)⟩

theorem InOrder.aonSync (a : AonIn) {s : State} (h : InOrder s) : InOrder (aonSync a s) := by
  obtain ⟨b, hb⟩ := h
  exact ⟨b, hb.retime (retimed_clock 0#5 a.rPick hb.rsync_source) (.refl _)⟩

theorem InOrder.aonResetSync {s : State} (h : InOrder s) : InOrder (aonResetSync s) := by
  obtain ⟨b, hb⟩ := h
  exact ⟨b, hb.retime (retimed_close 0#5 hb.rsync_source) (.refl _)⟩

theorem clkEdge_inOrder (c : ClkIn) {s : State} (h : InOrder s) : GoesOnTo InOrder (clkEdge exec c s) := by
  cases hrst : s.rst.clkInRst with
  | true => exact ⟨issueAccess c.req (clkResetEdge c s), by simp [clkEdge, hrst], h.clkResetSync⟩
  | false =>
    obtain ⟨t, u, hhost, hengine, hu⟩ := clkEdge_effect c hrst
    have hissue : InOrder (issueAccess c.req s) := h
    have ht : InOrder t := hissue.hostEffect hhost
    exact ⟨_, hu, (ht.of_fifoSide_eq hengine.fifoSide_eq).clkSync c⟩

theorem aonEdge_inOrder (a : AonIn) {s : State} (h : InOrder s) : GoesOnTo InOrder (aonEdge exec a s) := by
  cases hrst : s.rst.aonInRst with
  | true => exact ⟨aonResetEdge a s, by simp [aonEdge, hrst], h.aonResetSync⟩
  | false =>
    obtain ⟨t, hput, ht⟩ := aonEdge_effect a hrst
    exact ⟨_, ht, (h.putEffect hput).aonSync a⟩

/-- After a reset every pointer and every copy is 0 (70_reset_and_hazards.md R391). -/
theorem applyReset_inOrder {s : State} (hstages : s.params.syncStages ≠ 0) : InOrder (applyReset s) := by
  have hchain : List.replicate s.params.syncStages 0#5 ≠ [] := by simpa using hstages
  have hzero : ∀ g ∈ (fifoSide (applyReset s)).trail, g = 0#5 := by
    simp only [FifoSide.trail, fifoSide, crossTrail, applyReset, State.resetWith, Cross.settled, List.mem_append,
      List.mem_reverse, List.mem_replicate, List.mem_singleton]
    tauto
  have hgray : 0#5 = bin2gray 0#5 := by decide
  have hspan : aheadOf 0#5 0#5 ≤ 16 := by decide
  refine ⟨0#5, hchain, hchain, rfl, rfl, hgray, hgray, ?_, hspan⟩
  refine List.pairwise_of_forall_mem_list fun g hg k hk => ?_
  rw [hzero g hg, hzero k hk]
  exact Nat.le_refl _

theorem tickStep_inOrder (k : Tick) {s : State} (hstages : s.params.syncStages ≠ 0) (h : InOrder s) :
    GoesOnTo InOrder (tickStep exec k s) := by
  cases k with
  | clk c => exact clkEdge_inOrder c h
  | aon a => exact aonEdge_inOrder a h
  | resetAssert => exact goesOnTo_next (applyReset_inOrder hstages)
  | resetRelease => exact goesOnTo_next h

/-- Settles O42: every kind of tick keeps the copies in order, wherever they are counted from. -/
theorem stepKeepsFifoOrder : Obligations.StepKeepsFifoOrder := by
  intro s t hgray hcross hord h
  obtain ⟨e, hnext, -⟩ := nextTick_snd_eq s
  have hs : InOrder (nextTick s).2 := by
    rw [hnext]
    exact inOrder_of_fifoOrdered hgray hcross hord
  have hstages : (nextTick s).2.params.syncStages ≠ 0 := by
    rw [hnext]
    exact Nat.ne_of_gt (lt_of_lt_of_le Nat.two_pos hcross.1)
  exact ((tickStep_inOrder (nextTick s).1 hstages hs).of_eq_next h).fifoOrdered

/-! ## Unread slots -/

/-- Pointers at most 15 slots behind the write pointer address another slot (20_memory.md R98). -/
theorem slotOf_ne_of_unread {p r w : Ptr} (hunread : (p - r).toNat < (w - r).toNat) (hroom : (w - r).toNat < 16) :
    slotOf p ≠ slotOf w := by
  intro heq
  have hslot : p.toNat % 16 = w.toNat % 16 := by simpa [slotOf] using congrArg BitVec.toNat heq
  bv_omega

/-- A put with room leaves at least one slot free, so it writes no unread one (42_event_fifo.md R262). -/
theorem fifoRead_putEvent_of_unread (v : Byte) {s : State} {p : Ptr} (h : InOrder s)
    (hunread : (p - s.consumer.rptr).toNat < occupancy s) :
    fifoRead (putEvent v s) (slotOf p) = fifoRead s (slotOf p) := by
  cases hfull : fullP s with
  | true => rw [putEvent_full v hfull]; rfl
  | false =>
    have hfrom := h.from_base
    have hroom : aheadOf (fifoSide s).base (fifoSide s).wptrGray < 16 := room_of_not_fullP hfrom hfull
    have hocc : (s.producer.wptr - s.consumer.rptr).toNat < 16 :=
      lt_of_le_of_lt (hfrom.occupancy_eq.trans_le (Nat.sub_le _ _)) hroom
    rw [putEvent_room v hfull]
    exact fifoRead_fifoWrite_other v s (slotOf_ne_of_unread hunread hocc)

/-- A put begins no new epoch of the RAM's contents. -/
theorem putEvent_epoch (v : Byte) (s : State) : (putEvent v s).env.epoch = s.env.epoch := by
  cases hfull : fullP s with
  | true => rw [putEvent_full v hfull]; rfl
  | false => rw [putEvent_room v hfull]

/-- No tick but a reset, which begins another epoch of the RAM's contents, changes an unread slot. -/
theorem tickStep_keeps_unread (k : Tick) {s t : State} {p : Ptr} (h : InOrder s) (ht : tickStep exec k s = .next t)
    (hunread : (p - s.consumer.rptr).toNat < occupancy s) (hepoch : t.env.epoch = s.env.epoch) :
    fifoRead t (slotOf p) = fifoRead s (slotOf p) := by
  cases k with
  | clk c => exact fifoRead_congr ((clkEdge_keepsAon c s).of_eq_next ht).fifo hepoch _
  | aon a =>
    cases hrst : s.rst.aonInRst with
    | true =>
      obtain rfl : aonResetEdge a s = t := by simpa [tickStep, aonEdge, hrst] using ht
      rfl
    | false =>
      obtain ⟨u, hput, hu⟩ := aonEdge_effect a hrst
      obtain rfl : aonSync a u = t := by simpa [tickStep, hu] using ht
      rcases hput with hsame | ⟨v, hput⟩
      · exact fifoRead_congr (congrArg FifoSide.fifo hsame) hepoch _
      · rw [← fifoRead_putEvent_of_unread v h hunread]
        exact fifoRead_congr (congrArg FifoSide.fifo hput) (hepoch.trans (putEvent_epoch v s).symm) _
  | resetAssert =>
    obtain rfl : applyReset s = t := by simpa [tickStep] using ht
    exact absurd hepoch (Nat.succ_ne_self _)
  | resetRelease =>
    obtain rfl : releaseReset s = t := by simpa [tickStep] using ht
    rfl

/-- Settles O43: only a put writes the FIFO RAM, and it does so where no unread event is. -/
theorem unreadSlotsAreNeverOverwritten : Obligations.UnreadSlotsAreNeverOverwritten := by
  intro s t p hgray hcross hord h hunread _ hepoch
  obtain ⟨e, hnext, he⟩ := nextTick_snd_eq s
  have hs : InOrder s := inOrder_of_fifoOrdered hgray hcross hord
  have hs' : InOrder (s.withEnv e) := hs
  rw [step, stepWith, hnext] at h
  calc fifoRead t (slotOf p)
    _ = fifoRead (s.withEnv e) (slotOf p) := tickStep_keeps_unread _ hs' h hunread (hepoch.trans he.symm)
    _ = fifoRead s (slotOf p) := fifoRead_congr (State.withEnv_fifo s e) he _

end Sys2Proof.Proofs
end

