-- ==== Sys2Proof/Proofs/Fields.lean ====
section
/-! The fields of a word that is written as fields side by side, and a word put together again from its fields
(30_encoding.md R120, R122). The widths of the words are literals where the fields' widths add up to them, so the
lemmas' patterns leave the width open (`no_index`). -/

namespace Sys2Proof.Proofs

variable {n m s k l : Nat}

/-- A field within the low part of a word. -/
theorem field_of_low (x : BitVec n) (y : BitVec m) (h : s + l ≤ m) :
    BitVec.extractLsb' (n := no_index (n + m)) s l (HAppend.hAppend (γ := no_index (BitVec (n + m))) x y) =
      y.extractLsb' s l :=
  BitVec.extractLsb'_append_eq_of_add_le h

/-- A field within the high part of a word. -/
theorem field_of_high (x : BitVec n) (y : BitVec m) (h : m ≤ s) :
    BitVec.extractLsb' (n := no_index (n + m)) s l (HAppend.hAppend (γ := no_index (BitVec (n + m))) x y) =
      x.extractLsb' (s - m) l :=
  BitVec.extractLsb'_append_eq_of_le h

/-- Above a word stand zeros. -/
theorem field_above (x : BitVec n) (h : n ≤ s) : x.extractLsb' s l = 0#l := by
  ext i hi
  simpa using x.getLsbD_of_ge (s + i) (by omega)

/-- A field is not a pattern from which it differs in bit `b` of the word. -/
theorem field_ne_of_bit (b : Nat) {x : BitVec n} {c : BitVec l} (hs : s ≤ b) (hl : b < s + l)
    (h : x.extractLsb' b 1 ≠ c.extractLsb' (b - s) 1) : x.extractLsb' s l ≠ c := by
  rintro rfl
  refine h (BitVec.eq_of_getLsbD_eq fun i hi => ?_)
  obtain rfl : i = 0 := by omega
  simp [hs, show b - s < l by omega]

/-- Two fields that stand side by side are one. -/
theorem field_append_field (x : BitVec n) (h : k = s + l) :
    HAppend.hAppend (γ := no_index (BitVec (m + l))) (x.extractLsb' k m) (x.extractLsb' s l) =
      x.extractLsb' s (m + l) := by
  simpa using BitVec.extractLsb'_append_extractLsb'_eq_extractLsb' (x := x) (len₂ := m) h

end Sys2Proof.Proofs
end

