-- ==== Sys2Proof/Proofs/RoundTrip.lean ====
section
/-! Decoding undoes encoding, one kind of instruction after the other (30_encoding.md R121, R122, R126, R129, R131),
and encoding undoes the decoding of a CMD word (R135). -/

namespace Sys2Proof.Proofs

open Sys2Proof Sys2Proof.Laws

/-! ## Bytes -/

/-- The `n` low bytes of a number hold it modulo `256 ^ n`. -/
theorem ofBytes_toBytes (n w : Nat) : ofBytes (toBytes n w) = w % 256 ^ n := by
  induction n generalizing w with
  | zero => simp [toBytes, ofBytes, Nat.mod_one]
  | succ n ih => rw [toBytes, ofBytes, ih, BitVec.toNat_ofNat, pow_succ' 256, Nat.mod_mul]

/-- The image that the bytes of an instruction of kind `k` give back is the one it was encoded from. -/
theorem ofNat_ofBytes_encode {i : Instr} {k : Kind} (hk : i.kind = k) :
    BitVec.ofNat (8 * kindBytes k) (ofBytes (encode i)) = BitVec.ofNat (8 * kindBytes k) (encodeNat i) := by
  subst hk
  apply BitVec.eq_of_toNat_eq
  simp [encode, ofBytes_toBytes, Nat.pow_mul]

/-! ## CMD words -/

/-- The opcode of a CMD word selects the fields it was put together from. -/
theorem decodeCmd_cmdWordOf {i : Instr} (hk : i.kind = .cmd) : decodeCmd (cmdWordOf i) = i := by
  cases i with
  | nop | setpix | getpix | clear | flush | init | setcontrast | dispctl | settempco | sleep
  | rsvdA | rsvdB | rsvdC | rsvdD | rsvdE | rsvdF =>
    simp [cmdWordOf, encodeNat, decodeCmd, field_of_low, field_of_high]
  | _ => cases hk

theorem opcode_cases : ∀ op : BitVec 4,
    op = 0x0#4 ∨ op = 0x1#4 ∨ op = 0x2#4 ∨ op = 0x3#4 ∨ op = 0x4#4 ∨ op = 0x5#4 ∨ op = 0x6#4 ∨ op = 0x7#4 ∨
      op = 0x8#4 ∨ op = 0x9#4 ∨ op = 0xA#4 ∨ op = 0xB#4 ∨ op = 0xC#4 ∨ op = 0xD#4 ∨ op = 0xE#4 ∨ op = 0xF#4 := by
  decide

/-- Under each opcode the fields, the reserved bits among them, lie side by side from bit 0 to the opcode. -/
theorem cmdWordOf_decodeCmd (w : Word) : cmdWordOf (decodeCmd w) = w := by
  have hall : w.extractLsb' 0 32 = w := BitVec.extractLsb'_eq_self
  rcases opcode_cases (w.extractLsb' 28 4) with
    h | h | h | h | h | h | h | h | h | h | h | h | h | h | h | h
  all_goals
    simp only [decodeCmd, h, BitVec.reduceEq, if_true, if_false]
    simp only [cmdWordOf, encodeNat, BitVec.ofNat_toNat, BitVec.setWidth_eq, ← h, field_append_field]
    exact hall

/-- Every operand value of a CMD word is well formed. -/
theorem wf_of_kind_cmd {i : Instr} (hk : i.kind = .cmd) : i.wf = true := by
  cases i with
  | nop | setpix | getpix | clear | flush | init | setcontrast | dispctl | settempco | sleep
  | rsvdA | rsvdB | rsvdC | rsvdD | rsvdE | rsvdF => rfl
  | _ => cases hk

/-- Settles O2: the kind and the well-formedness of what a word decodes to, and the word joined again. -/
theorem cmdDecodingLosesNoBit : Obligations.CmdDecodingLosesNoBit := fun w =>
  ⟨decodeCmd_kind w, wf_of_kind_cmd (decodeCmd_kind w), cmdWordOf_decodeCmd w⟩

/-! ## LCD bytes -/

/-- SETX and SETVOP have bit 7 set, and SETBIAS bit 4, where the forms that are tested before them have a 0. -/
theorem decodeLcd_encodeNat {i : Instr} (hk : i.kind = .lcd) : decodeLcd (BitVec.ofNat 16 (encodeNat i)) = .ok i := by
  cases i with
  | lcdFuncset | lcdDispctl | lcdSety | lcdTempctl | lcdData =>
    simp [encodeNat, decodeLcd, BitVec.extractLsb'_setWidth_of_le, field_above, field_of_low, field_of_high]
  | lcdSetx | lcdSetvop =>
    simp [encodeNat, decodeLcd, BitVec.extractLsb'_setWidth_of_le, field_above, field_of_low, field_of_high,
      field_ne_of_bit 7]
  | lcdSetbias =>
    simp [encodeNat, decodeLcd, BitVec.extractLsb'_setWidth_of_le, field_above, field_of_low, field_of_high,
      field_ne_of_bit 4]
  | _ => cases hk

/-! ## Host accesses -/

theorem ofBool_eq_one_iff (b : Bool) : BitVec.ofBool b = 1#1 ↔ b = true := by
  cases b <;> decide

theorem ofBool_decide_eq_one (b : BitVec 1) : BitVec.ofBool (decide (b = 1#1)) = b := by
  revert b; decide

theorem reqOfImage_imageOfReq (a : HostReq) : reqOfImage (imageOfReq a) = a := by
  simp [reqOfImage, imageOfReq, field_of_low, field_of_high, ofBool_eq_one_iff]

/-- An access image decodes as the bus decodes the access. -/
theorem decodeAccess_imageOfReq (a : HostReq) : decodeAccess (imageOfReq a) = .ok (decodeReq a) := by
  have hzero : (imageOfReq a).extractLsb' 11 5 = 0#5 := by simp [imageOfReq, field_of_low, field_of_high]
  simp [decodeAccess, hzero, reqOfImage_imageOfReq]

/-- A legal access selects its register or reserved offset; an illegal one is the bus error (20_memory.md R91, R92). -/
theorem decodeAccess_encodeNat {i : Instr} (hk : i.kind = .access) (hwf : i.wf = true) :
    decodeAccess (BitVec.ofNat 48 (encodeNat i)) = .ok i := by
  cases i with
  | rdId | wrId | rdCtrl | wrCtrl | rdStatus | wrStatus | rdCmd | wrCmd | rdResult | wrResult | rdEvqPop | wrEvqPop
  | rdEvqStat | wrEvqStat | rdPwrStat | wrPwrStat | rdRsvd20 | rdRsvd40 | rdRsvd80 | wrRsvd20 | wrRsvd40 | wrRsvd80 =>
    simp only [encodeNat, BitVec.ofNat_toNat, BitVec.setWidth_eq, decodeAccess_imageOfReq]
    simp [decodeReq, illegalAccess, decodeLegal, readReq, writeReq, field_of_low, field_of_high]
  | busErr write off size =>
    have hillegal : illegalAccess off size = true := hwf
    simp [encodeNat, decodeAccess_imageOfReq, decodeReq_illegal, hillegal, ofBool_decide_eq_one]
  | _ => cases hk

/-! ## Events -/

/-- The source byte tells the external port from the code's own source (30_encoding.md R126, R127, R132). -/
theorem decodeEvent_encodeNat {i : Instr} (hk : i.kind = .event) (hwf : i.wf = true) :
    decodeEvent (BitVec.ofNat 16 (encodeNat i)) = .ok i := by
  cases i with
  | putTimer | putKeyleft | putKeyup | putKeydown | putKeyright | putKeyenter => rfl
  | putExt e =>
    have hstore : storable e = true := hwf
    simp [encodeNat, decodeEvent, decodeExternal, field_of_low, field_of_high, hstore]
  | extReject e =>
    have hreject : storable e = false := by simpa [Instr.wf] using hwf
    simp [encodeNat, decodeEvent, decodeExternal, field_of_low, field_of_high, hreject]
  | _ => cases hk

/-! ## All four kinds -/

/-- The bytes have the kind's length, give the image back, and the image decodes to the instruction. -/
theorem decode_encode {i : Instr} {k : Kind} (hk : i.kind = k) (hwf : i.wf = true) : decode k (encode i) = .ok i := by
  have hlen : (encode i).length = kindBytes k := hk ▸ encode_length i
  have himage := ofNat_ofBytes_encode hk
  simp only [decode, hlen, ne_eq, not_true, if_false]
  cases k with
  | cmd => exact congrArg Except.ok ((congrArg decodeCmd himage).trans (decodeCmd_cmdWordOf hk))
  | lcd => exact (congrArg decodeLcd himage).trans (decodeLcd_encodeNat hk)
  | access => exact (congrArg decodeAccess himage).trans (decodeAccess_encodeNat hk hwf)
  | event => exact (congrArg decodeEvent himage).trans (decodeEvent_encodeNat hk hwf)

/-- Settles O1: the round trip of each kind. -/
theorem decodeInvertsEncode : Obligations.DecodeInvertsEncode := fun _ hwf => decode_encode rfl hwf

/-- Settles O3: each list of bytes is what its instruction is encoded as, and decodes back. -/
theorem specWordsDecode : Obligations.SpecWordsDecode :=
  ⟨decode_encode (i := .setpix 1#12 1#12 1#1 0#3) rfl rfl,
    decode_encode (i := .init 63#8 4#8 0#12) rfl rfl,
    decode_encode (i := .sleep 1000#24 1#1 0#3) rfl rfl,
    decode_encode (i := .lcdTempctl 2#2) rfl rfl,
    decode_encode (i := .lcdSetvop 63#7) rfl rfl,
    decode_encode (i := .rdEvqPop) rfl rfl,
    decode_encode (i := .wrCtrl 0x33#32) rfl rfl,
    decode_encode (i := .putKeyup) rfl rfl,
    decode_encode (i := .putExt 4#8) rfl rfl,
    decode_encode (i := .extReject 8#8) rfl rfl⟩

end Sys2Proof.Proofs
end

