-- ==== Sys2Proof/Proofs/EmittedBytes.lean ====
section
/-! The command bytes of each op's action list, walked with the instruction-set mode: every byte is a listed LCD form
under the mode it finds, and the list ends in basic mode with bus-select high (30_encoding.md R130, 41_lcd_protocol.md
R181, R184 to R189, R198). -/

namespace Sys2Proof.Proofs

open Sys2Proof Sys2Proof.Config Sys2Proof.Machine Sys2Proof.Safety

/-! ## Walking a list with the mode -/

/-- The mode after one action: a function-set byte sets it (30_encoding.md R130). -/
def modeNext (h : Bool) (a : Action) : Bool :=
  match a with
  | .byte false b => if b.extractLsb' 3 5 = 0b00100#5 then b.getLsbD 0 else h
  | _ => h

theorem modeAfter_eq_foldl (as : List Action) : modeAfter as = as.foldl modeNext false := rfl

/-- The action is a BYTE with a byte of its own, not one of the framebuffer. -/
def isByte : Action → Bool
  | .byte _ _ => true
  | _ => false

theorem modeNext_of_not_byte {a : Action} (ha : isByte a = false) (h : Bool) : modeNext h a = h := by
  cases a with
  | byte => cases ha
  | _ => rfl

/-- The command bytes that ops emit (30_encoding.md R130). -/
def IsEmitted (i : Instr) : Prop :=
  i = .lcdFuncset 0#1 0#1 0#1 1#1 ∨ i = .lcdFuncset 1#1 0#1 0#1 0#1 ∨ (∃ d e, i = .lcdDispctl d e) ∨
    i = .lcdSety 0#3 ∨ i = .lcdSetx 0#7 ∨ (∃ tc, i = .lcdTempctl tc) ∨ (∃ c, i = .lcdSetbias c) ∨
    ∃ v, i = .lcdSetvop v

/-- The byte `b`, as a command under mode `h`, is one of those that ops emit. -/
def EmittedUnder (h : Bool) (b : Byte) : Prop :=
  ∃ i, decodeLcd (0#7 ++ BitVec.ofBool h ++ b) = .ok i ∧ IsEmitted i

/-- The command byte `b` is emitted under mode `h` and leaves mode `h'`. -/
structure Sends (h : Bool) (b : Byte) (h' : Bool) : Prop where
  emitted : EmittedUnder h b
  mode : modeNext h (.byte false b) = h'

/-- The list of actions, started in mode `h`, emits only the command bytes listed and leaves mode `h'`. -/
inductive Emits : Bool → List Action → Bool → Prop where
  | nil (h : Bool) : Emits h [] h
  | other {h h' : Bool} {a : Action} {as : List Action} (ha : isByte a = false) (rest : Emits h as h') :
      Emits h (a :: as) h'
  | byte {h h₁ h' : Bool} {b : Byte} {as : List Action} (hb : Sends h b h₁) (rest : Emits h₁ as h') :
      Emits h (.byte false b :: as) h'

theorem Emits.of_no_byte (h : Bool) {as : List Action} (has : ∀ a ∈ as, isByte a = false) : Emits h as h := by
  induction as with
  | nil => exact .nil h
  | cons a as ih =>
    obtain ⟨ha, hrest⟩ := List.forall_mem_cons.1 has
    exact .other ha (ih hrest)

theorem Emits.foldl_modeNext {h h' : Bool} {as : List Action} (he : Emits h as h') : as.foldl modeNext h = h' := by
  induction he with
  | nil => rfl
  | other ha _ ih => rw [List.foldl_cons, modeNext_of_not_byte ha, ih]
  | byte hb _ ih => rw [List.foldl_cons, hb.mode, ih]

/-- The byte at any place of the list is a command, emitted under the mode that the actions before it leave. -/
theorem Emits.byte_at {h h' : Bool} {as : List Action} (he : Emits h as h') {n : Nat} {dc : Bool} {b : Byte}
    (hn : as[n]? = some (.byte dc b)) : dc = false ∧ EmittedUnder ((as.take n).foldl modeNext h) b := by
  induction he generalizing n with
  | nil => simp at hn
  | other ha _ ih =>
    cases n with
    | zero =>
      obtain rfl := Option.some.inj hn
      cases ha
    | succ n => simpa [modeNext_of_not_byte ha] using ih hn
  | byte hb _ ih =>
    cases n with
    | zero =>
      cases hn
      exact ⟨rfl, hb.emitted⟩
    | succ n => simpa [hb.mode] using ih hn

/-! ## The bytes -/

/-- 0x21, extended mode (41_lcd_protocol.md R190). -/
theorem sends_extended : Sends false 0x21#8 true := ⟨⟨_, rfl, .inl rfl⟩, rfl⟩

/-- 0x20, basic mode (41_lcd_protocol.md R190). -/
theorem sends_basic : Sends true 0x20#8 false := ⟨⟨_, rfl, .inr (.inl rfl)⟩, rfl⟩

theorem sends_dispctl (mode : BitVec 2) : Sends false (dispctlByte mode) false where
  emitted :=
    have hform : ∀ m, decodeLcd (0#7 ++ BitVec.ofBool false ++ dispctlByte m) =
        .ok (.lcdDispctl (m.extractLsb' 1 1) (m.extractLsb' 0 1)) := by decide
    ⟨_, hform mode, .inr (.inr (.inl ⟨_, _, rfl⟩))⟩
  mode := by revert mode; decide

theorem sends_sety : Sends false 0x40#8 false := ⟨⟨_, rfl, .inr (.inr (.inr (.inl rfl)))⟩, rfl⟩

theorem sends_setx : Sends false 0x80#8 false := ⟨⟨_, rfl, .inr (.inr (.inr (.inr (.inl rfl))))⟩, rfl⟩

theorem sends_tempctl (tc : BitVec 2) : Sends true (0x04#8 ||| tc.setWidth 8) true where
  emitted :=
    have hform : ∀ t : BitVec 2, decodeLcd (0#7 ++ BitVec.ofBool true ++ (0x04#8 ||| t.setWidth 8)) =
        .ok (.lcdTempctl t) := by decide
    ⟨_, hform tc, .inr (.inr (.inr (.inr (.inr (.inl ⟨_, rfl⟩)))))⟩
  mode := by revert tc; decide

/-- The clamped bias fits the form's three bits, checked on each value. -/
theorem sends_setbias (v : Byte) : Sends true (0x10#8 ||| clampv v biasMax) true where
  emitted :=
    have hform : ∀ u : Byte, decodeLcd (0#7 ++ BitVec.ofBool true ++ (0x10#8 ||| clampv u biasMax)) =
        .ok (.lcdSetbias ((clampv u biasMax).setWidth 3)) := by decide
    ⟨_, hform v, .inr (.inr (.inr (.inr (.inr (.inr (.inl ⟨_, rfl⟩))))))⟩
  mode := by revert v; decide

/-- The clamped contrast fits the form's seven bits, checked on each value. -/
theorem sends_setvop (v : Byte) : Sends true (0x80#8 ||| clampv v vopMax) true where
  emitted :=
    have hform : ∀ u : Byte, decodeLcd (0#7 ++ BitVec.ofBool true ++ (0x80#8 ||| clampv u vopMax)) =
        .ok (.lcdSetvop ((clampv u vopMax).setWidth 7)) := by decide
    ⟨_, hform v, .inr (.inr (.inr (.inr (.inr (.inr (.inr ⟨_, rfl⟩))))))⟩
  mode := by revert v; decide

/-! ## The lists -/

/-- The list emits only the command bytes listed and leaves basic mode and bus-select high, where it found them. -/
structure LeavesDeviceIdle (as : List Action) : Prop where
  emits : Emits false as false
  sce : sceAfter as = true

/-- The action works on the framebuffer alone. -/
def isPixelAction : Action → Bool
  | .fbrmw _ _ _ | .fbrd _ | .fbz _ => true
  | _ => false

/-- A list that works on the framebuffer alone does not touch the device bus. -/
theorem leavesDeviceIdle_of_pixelActions {as : List Action} (has : ∀ a ∈ as, isPixelAction a = true) :
    LeavesDeviceIdle as where
  emits := .of_no_byte false fun a ha => by
    have hpixel := has a ha
    cases a with
    | byte => cases hpixel
    | _ => rfl
  sce := by
    unfold sceAfter
    induction as with
    | nil => rfl
    | cons a as ih =>
      obtain ⟨hpixel, hrest⟩ := List.forall_mem_cons.1 has
      cases a with
      | sce => cases hpixel
      | _ => exact ih hrest

theorem setpixActions_idle (r : BitVec 2) (x y : BitVec 12) (c : BitVec 1) :
    LeavesDeviceIdle (setpixActions r x y c) := by
  refine leavesDeviceIdle_of_pixelActions fun a ha => ?_
  unfold setpixActions at ha
  split at ha
  · obtain rfl := List.mem_singleton.1 ha
    rfl
  · cases ha

theorem getpixActions_idle (r : BitVec 2) (x y : BitVec 12) : LeavesDeviceIdle (getpixActions r x y) := by
  refine leavesDeviceIdle_of_pixelActions fun a ha => ?_
  obtain rfl := List.mem_singleton.1 ha
  rfl

theorem clearActions_idle : LeavesDeviceIdle clearActions := by
  refine leavesDeviceIdle_of_pixelActions fun a ha => ?_
  obtain ⟨i, -, rfl⟩ := List.mem_map.1 ha
  rfl

theorem sceAfter_append_sce (as : List Action) (l : Bool) : sceAfter (as ++ [.sce l]) = l := by
  simp [sceAfter]

/-- SETY 0 and SETX 0, then data bytes only. -/
theorem flushActions_idle : LeavesDeviceIdle flushActions where
  emits := by
    have hdata : ∀ a ∈ (List.range' 0 fbBytes).map Action.byteFb ++ [.sce true], isByte a = false := by
      intro a ha
      rcases List.mem_append.1 ha with ha | ha
      · obtain ⟨i, -, rfl⟩ := List.mem_map.1 ha
        rfl
      · obtain rfl := List.mem_singleton.1 ha
        rfl
    exact .other rfl (.byte sends_sety (.byte sends_setx (.of_no_byte false hdata)))
  sce := sceAfter_append_sce _ true

theorem initActions_idle (p : Params) (contrast bias : BitVec 8) : LeavesDeviceIdle (initActions p contrast bias) where
  emits :=
    .other rfl (.other rfl (.other rfl (.other rfl (.other rfl (.byte sends_extended (.byte (sends_setbias bias)
      (.byte (sends_setvop contrast) (.byte sends_basic (.byte (sends_dispctl 2#2) (.other rfl (.nil false)))))))))))
  sce := rfl

theorem dispctlActions_idle (mode : BitVec 2) : LeavesDeviceIdle (dispctlActions mode) where
  emits := .other rfl (.byte (sends_dispctl mode) (.other rfl (.nil false)))
  sce := rfl

/-- One command in extended mode, and back: the shape of SETCONTRAST and SETTEMPCO (41_lcd_protocol.md R187, R189). -/
theorem extendedCommand_idle {b : Byte} (hb : Sends true b true) :
    LeavesDeviceIdle [.sce false, .byte false 0x21#8, .byte false b, .byte false 0x20#8, .sce true] where
  emits := .other rfl (.byte sends_extended (.byte hb (.byte sends_basic (.other rfl (.nil false)))))
  sce := rfl

/-- What holds of every op's list and of the empty one holds of every action list. -/
theorem actions_forall {P : List Action → Prop} (hsetpix : ∀ r x y c, P (setpixActions r x y c))
    (hgetpix : ∀ r x y, P (getpixActions r x y)) (hclear : P clearActions) (hflush : P flushActions)
    (hinit : ∀ p contrast bias, P (initActions p contrast bias)) (hcontrast : ∀ v, P (setcontrastActions v))
    (hdispctl : ∀ mode, P (dispctlActions mode)) (htempco : ∀ tc, P (settempcoActions tc)) (hnil : P [])
    (p : Params) (op : BitVec 4) (args : BitVec 28) (r : BitVec 2) : P (actions p op args r) := by
  unfold actions
  split_ifs
  · exact hsetpix _ _ _ _
  · exact hgetpix _ _ _
  · exact hclear
  · exact hflush
  · exact hinit _ _ _
  · exact hcontrast _
  · exact hdispctl _
  · exact htempco _
  · exact hnil

theorem actions_idle (p : Params) (op : BitVec 4) (args : BitVec 28) (r : BitVec 2) :
    LeavesDeviceIdle (actions p op args r) :=
  actions_forall setpixActions_idle getpixActions_idle clearActions_idle flushActions_idle initActions_idle
    (fun v => extendedCommand_idle (sends_setvop v)) dispctlActions_idle
    (fun tc => extendedCommand_idle (sends_tempctl tc)) ⟨.nil false, rfl⟩ p op args r

/-- Settles O35: the walk over each op's list. -/
theorem emittedBytesAreListed : Obligations.EmittedBytesAreListed := by
  intro p op args r n dc b
  obtain ⟨hemits, hsce⟩ := actions_idle p op args r
  simp only [modeAfter_eq_foldl]
  exact ⟨hemits.byte_at, hemits.foldl_modeNext, hsce⟩

end Sys2Proof.Proofs
end

