-- ==== Sys2Proof/Proofs/LcdByteStep.lean ====
section
/-! The LCD byte that a clk edge starts, after the access presented there (30_encoding.md R128, 41_lcd_protocol.md
R182). -/

namespace Sys2Proof.Proofs

open Sys2Proof Sys2Proof.Config Sys2Proof.Machine

/-- Where a BYTE action starts, the engine stage is the LCD byte instruction that the pattern is. -/
theorem engineStage_eq_exec_lcd {s t : State} {dc : Bool} {b : Byte} {i : Instr}
    (hedge : engineEdge s = (t, some (dc, b)))
    (hi : decodeLcd (0#6 ++ BitVec.ofBool dc ++ BitVec.ofBool t.engine.lcdH ++ b) = .ok i) :
    engineStage exec s = exec i t := by
  rw [engineStage_eq, hedge, exec_lcd_eq_startByte hi]
  rfl

/-- With the engine in RUN, a clk edge out of reset is the bus stage, the engine stage and the synchronisers. -/
theorem clkEdge_run {s w u : State} (c : ClkIn) (hrst : s.rst.clkInRst = false) (hrun : s.engine.estate = .run)
    (hbus : busStage exec (issueAccess c.req s) = .next w) (hengine : engineStage exec w = .next u) :
    clkEdge exec c s = .next (clkSync c u) := by
  simp [clkEdge_eq c hrst, hbus, hrun, hengine, andThen]

/-- Settles O6: the bus stage leaves `w`, with or without an access, and the engine stage runs the byte from there. -/
theorem stepRunsTheLcdByte : Obligations.StepRunsTheLcdByte := by
  intro s s' w t u c ts dc b i hs hrst hrun hs' hw hedge hi hu
  have hbus : busStage exec s' = .next w := by
    rcases hw with ⟨hq, rfl⟩ | ⟨r, q, z, hq, hz, hretire⟩
    · exact busStage_of_queue_nil hq
    · obtain rfl : w = retire z := hretire
      exact busStage_of_queue_cons hq hz
  have hengine : engineStage exec w = .next u := (engineStage_eq_exec_lcd hedge hi).trans hu
  rw [step_eq_tickStep hs]
  subst hs'
  exact clkEdge_run c hrst hrun hbus hengine

end Sys2Proof.Proofs
end

