-- ==== Sys2Proof/Proofs/EmptyOps.lean ====
section
/-! The acceptance of an op with no actions, and the reserved opcodes (30_encoding.md R124, 40_pixel_ops.md R150,
60_exceptions.md R352). -/

namespace Sys2Proof.Proofs

open Sys2Proof Sys2Proof.Config Sys2Proof.Machine Sys2Proof.Safety

theorem cmdHeld_of_ready {s : State} (h : Ready s) : cmdHeld s = false := by
  obtain ⟨hidle, htgl, hfatal, -⟩ := h
  simp [cmdHeld, busy_eq_false.2 ⟨hidle, htgl⟩, hfatal]

/-- A CMD write in a ready state completes with its acceptance. -/
theorem cmdWrite_ready {s : State} (h : Ready s) (accept : State → State) :
    cmdWrite accept s = .next (respondWrite (accept s)) := by
  simp [cmdWrite, cmdHeld_of_ready h]

/-- An op with an empty list completes at its acceptance. -/
theorem acceptOp_of_no_actions {op : BitVec 4} {args : BitVec 28} {s : State}
    (h : actions s.params op args s.regs.ctrlRot = []) :
    acceptOp op args s =
      { s with
        engine := { s.engine with eop := op, eargs := args, erot := s.regs.ctrlRot, eidx := 0 }
        regs := { s.regs with done := true } } := by
  have hlist : opActions (latchOp op args s) = [] := h
  simp only [acceptOp, hlist]
  rfl

/-- The opcodes 0xA to 0xF have no actions. -/
theorem actions_reserved {op : BitVec 4} (hop : 0xA#4 ≤ op) (p : Params) (args : BitVec 28) (r : BitVec 2) :
    actions p op args r = [] := by
  have hne (k : BitVec 4) (hk : k < 0xA#4) : op ≠ k := by bv_omega
  simp [actions, hne]

/-- A reserved opcode, accepted: the latches, DONE and CMD_ERR. -/
theorem reservedWrite_ready {op : BitVec 4} (hop : 0xA#4 ≤ op) (arg : BitVec 28) {s : State} (h : Ready s) :
    ∃ b,
      reservedWrite op arg s =
        .next { s with
          engine := { s.engine with eop := op, eargs := arg, erot := s.regs.ctrlRot, eidx := 0 }
          regs := { s.regs with done := true, cmdErr := true }
          bus := b } ∧
      Completed s.bus b := by
  rw [reservedWrite, cmdWrite_ready h, acceptOp_of_no_actions (actions_reserved hop _ _ _)]
  exact ⟨_, rfl, rfl, rfl, rfl⟩

/-- Settles O20: the six opcodes are one write. -/
theorem reservedOpcodesSetCmdErr : Obligations.ReservedOpcodesSetCmdErr := by
  intro arg s hready q hq
  simp only [List.mem_cons, List.not_mem_nil, or_false] at hq
  rcases hq with rfl | rfl | rfl | rfl | rfl | rfl <;> exact reservedWrite_ready (by decide) arg hready

end Sys2Proof.Proofs
end

