-- ==== Sys2Proof/Proofs/PixelAddressing.lean ====
section
/-! The rotation transform, its extents and its inverse maps, and pixel addressing through it (40_pixel_ops.md R151,
R153, R158, R159; 20_memory.md R96). -/

namespace Sys2Proof.Proofs

open Sys2Proof Sys2Proof.Config Sys2Proof.Machine

/-! ## The rotation transform -/

theorem rotation_cases : ∀ r : BitVec 2, r = 0#2 ∨ r = 1#2 ∨ r = 2#2 ∨ r = 3#2 := by decide

@[simp] theorem rotate_zero (x y : Int) : rotate 0#2 x y = (x, y) := rfl

@[simp] theorem rotate_one (x y : Int) : rotate 1#2 x y = (83 - y, x) := rfl

@[simp] theorem rotate_two (x y : Int) : rotate 2#2 x y = (83 - x, 47 - y) := rfl

@[simp] theorem rotate_three (x y : Int) : rotate 3#2 x y = (y, 47 - x) := rfl

theorem inRange_iff (px py : Int) : inRange px py = true ↔ 0 ≤ px ∧ px < 84 ∧ 0 ≤ py ∧ py < 48 := by
  simp [inRange, and_assoc]

/-- Each rotation has an inverse (R159). -/
theorem rotate_inj {r : BitVec 2} {x y x' y' : Int} (h : rotate r x y = rotate r x' y') : x = x' ∧ y = y' := by
  rcases rotation_cases r with rfl | rfl | rfl | rfl
  all_goals
    simp only [rotate_zero, rotate_one, rotate_two, rotate_three, Prod.mk.injEq] at h
    omega

/-- Settles O31: the panel's bounds and the equations of R159, read off the transform of each rotation. -/
theorem rotationExtentsAndInverses : Obligations.RotationExtentsAndInverses := by
  intro x y px py
  refine ⟨?_, ?_, ?_, ?_, ?_⟩
  · rintro r (rfl | rfl)
    · exact inRange_iff x y
    · rw [rotate_two, inRange_iff]; omega
  · rintro r (rfl | rfl)
    · rw [rotate_one, inRange_iff]; omega
    · rw [rotate_three, inRange_iff]; omega
  · simp only [rotate_one, Prod.mk.injEq]; omega
  · simp only [rotate_two, Prod.mk.injEq]; omega
  · simp only [rotate_three, Prod.mk.injEq]; omega

/-! ## Pixel addressing -/

/-- The physical pixel `(px, py)` that logical `(lx, ly)` is rotated to, one equation a rotation (R151). -/
theorem rotate_eq_iff (r : BitVec 2) (lx ly px py : Int) :
    rotate r lx ly = (px, py) ↔
      (r = 0#2 ∧ px = lx ∧ py = ly) ∨ (r = 1#2 ∧ px = 84 - 1 - ly ∧ py = lx) ∨
        (r = 2#2 ∧ px = 84 - 1 - lx ∧ py = 48 - 1 - ly) ∨ (r = 3#2 ∧ px = ly ∧ py = 48 - 1 - lx) := by
  rcases rotation_cases r with rfl | rfl | rfl | rfl <;> simp [eq_comm]

/-- A coordinate that is addressed is rotated to a pixel of the panel, whose byte and bit are addressed. -/
theorem pixelAt_eq_some_iff (r : BitVec 2) (x y : BitVec 12) (i k : Nat) :
    pixelAt r x y = some (i, k) ↔ ∃ px py : Nat, px < 84 ∧ py < 48 ∧
      rotate r (sint12 x) (sint12 y) = ((px : Int), (py : Int)) ∧ i = py / 8 * 84 + px ∧ k = py % 8 := by
  unfold pixelAt
  generalize rotate r (sint12 x) (sint12 y) = p
  obtain ⟨a, b⟩ := p
  dsimp only
  constructor
  · intro h
    split_ifs at h with hin
    obtain ⟨ha, ha', hb, hb'⟩ := (inRange_iff a b).1 hin
    simp only [Option.some.injEq, Prod.mk.injEq] at h
    obtain ⟨rfl, rfl⟩ := h
    exact ⟨a.toNat, b.toNat, by omega, by omega, by simp [ha, hb], rfl, rfl⟩
  · rintro ⟨px, py, hpx, hpy, hp, rfl, rfl⟩
    obtain ⟨rfl, rfl⟩ := Prod.mk.inj hp
    have hin : inRange px py = true := (inRange_iff _ _).2 (by omega)
    simp [hin, fbIndex]

/-- The two's-complement value of a 12-bit field (00_scope.md R11). -/
theorem sint12_eq (x : BitVec 12) :
    sint12 x = if x.toNat < 2048 then (x.toNat : Int) else (x.toNat : Int) - 4096 := by
  rw [sint12, BitVec.toInt_eq_toNat_cond]
  congr 1
  exact propext (by omega)

/-- The byte index and the bit of a pixel of the panel tell which pixel it is (20_memory.md R96). -/
theorem panelPixel_inj {px py px' py' : Nat} (hx : px < 84) (hx' : px' < 84)
    (hi : py / 8 * 84 + px = py' / 8 * 84 + px') (hk : py % 8 = py' % 8) : px = px' ∧ py = py' := by
  omega

/-- Distinct in-range coordinates address distinct bits (40_pixel_ops.md R158). -/
theorem pixelAt_inj {r : BitVec 2} {x y x' y' : BitVec 12} {i k : Nat} (h : pixelAt r x y = some (i, k))
    (h' : pixelAt r x' y' = some (i, k)) : x' = x ∧ y' = y := by
  obtain ⟨px, py, hx, -, hrot, hi, hk⟩ := (pixelAt_eq_some_iff ..).1 h
  obtain ⟨px', py', hx', -, hrot', hi', hk'⟩ := (pixelAt_eq_some_iff ..).1 h'
  obtain ⟨rfl, rfl⟩ := panelPixel_inj hx hx' (hi.symm.trans hi') (hk.symm.trans hk')
  obtain ⟨hxx, hyy⟩ := rotate_inj (hrot'.trans hrot.symm)
  exact ⟨BitVec.toInt_inj.1 hxx, BitVec.toInt_inj.1 hyy⟩

/-- A bit address lies within a byte. -/
theorem pixelAt_bit_lt {r : BitVec 2} {x y : BitVec 12} {i k : Nat} (h : pixelAt r x y = some (i, k)) : k < 8 := by
  obtain ⟨px, py, -, -, -, -, rfl⟩ := (pixelAt_eq_some_iff ..).1 h
  exact Nat.mod_lt _ (by decide)

/-- Settles O32: the formula through the rotation's equations, injectivity from the pixel back to the coordinate. -/
theorem pixelAddressesAreDistinct : Obligations.PixelAddressesAreDistinct := by
  refine ⟨fun r x y lx ly i k hlx hly => ?_, fun r x y x' y' i k h => ⟨pixelAt_lt h, pixelAt_bit_lt h, pixelAt_inj h⟩⟩
  rw [← sint12_eq] at hlx hly
  subst hlx hly
  simp only [pixelAt_eq_some_iff, rotate_eq_iff]

end Sys2Proof.Proofs
end

