-- ==== Sys2Proof/Proofs/Acceptance.lean ====
section
/-! The acceptance of a CMD word, whatever its op: the latches, the start of the first action, and the response
(40_pixel_ops.md R150, 44_host_registers.md R323, 41_lcd_protocol.md R180, R185). -/

namespace Sys2Proof.Proofs

open Sys2Proof Sys2Proof.Config Sys2Proof.Machine Sys2Proof.Safety

theorem idle_of_ready {s : State} (h : Ready s) : s.engine.estate = .idle := h.1

/-! ## The first action -/

/-- The actions that an op's list can open with: none asks for a byte, and none is passed over (41_lcd_protocol.md
R184 to R189). -/
def isOpener : Action → Bool
  | .rst _ | .sce _ | .fbrmw _ _ _ | .fbrd _ | .fbz _ => true
  | .wait _ | .byte _ _ | .byteFb _ => false

/-- The list is empty or opens with one of those. -/
def OpensOrEmpty (as : List Action) : Prop := as = [] ∨ ∃ a rest, as = a :: rest ∧ isOpener a = true

theorem opensOrEmpty_cons {a : Action} (as : List Action) (ha : isOpener a = true) : OpensOrEmpty (a :: as) :=
  .inr ⟨a, as, rfl, ha⟩

theorem setpixActions_opens (r : BitVec 2) (x y : BitVec 12) (c : BitVec 1) : OpensOrEmpty (setpixActions r x y c) := by
  unfold setpixActions
  split
  · exact opensOrEmpty_cons [] rfl
  · exact .inl rfl

theorem actions_opens (p : Params) (op : BitVec 4) (args : BitVec 28) (r : BitVec 2) :
    OpensOrEmpty (actions p op args r) :=
  actions_forall setpixActions_opens (fun _ _ _ => opensOrEmpty_cons _ rfl) (opensOrEmpty_cons _ rfl)
    (opensOrEmpty_cons _ rfl) (fun _ _ _ => opensOrEmpty_cons _ rfl) (fun _ => opensOrEmpty_cons _ rfl)
    (fun _ => opensOrEmpty_cons _ rfl) (fun _ => opensOrEmpty_cons _ rfl) (.inl rfl) p op args r

/-- The start of an action sets its wait and drives the pins. -/
theorem startAction_frame (a : Action) (s : State) :
    ∃ n p, (startAction a s).1 = { s with engine := { s.engine with ecnt := n }, pins := p } := by
  cases a <;> exact ⟨_, _, rfl⟩

/-- An op with actions runs, and its first action starts at the acceptance. -/
theorem acceptOp_of_actions_cons {op : BitVec 4} {args : BitVec 28} {s : State} {a : Action} {as : List Action}
    (h : actions s.params op args s.regs.ctrlRot = a :: as) (ha : isOpener a = true) :
    acceptOp op args s =
      (startAction a { s with
        engine := { s.engine with
          estate := .run, eop := op, eargs := args, erot := s.regs.ctrlRot, eidx := 0 } }).1 := by
  have hlist : opActions (latchOp op args s) = a :: as := h
  simp only [acceptOp, hlist]
  cases a with
  | rst | sce | fbrmw | fbrd | fbz => rfl
  | wait | byte | byteFb => cases ha

/-- The acceptance of any op: the latches, RUN or else DONE by its list, and what its first action sets. -/
theorem acceptOp_latches (op : BitVec 4) (args : BitVec 28) (s : State) :
    ∃ n p, acceptOp op args s =
      { s with
        engine := { s.engine with
          estate := if actions s.params op args s.regs.ctrlRot = [] then s.engine.estate else .run
          eop := op, eargs := args, erot := s.regs.ctrlRot, eidx := 0, ecnt := n }
        pins := p
        regs := { s.regs with done := s.regs.done || decide (actions s.params op args s.regs.ctrlRot = []) } } := by
  rcases actions_opens s.params op args s.regs.ctrlRot with h | ⟨a, as, h, ha⟩
  · rw [acceptOp_of_no_actions h]
    exact ⟨s.engine.ecnt, s.pins, by simp [h]⟩
  · obtain ⟨n, p, hstart⟩ := startAction_frame a { s with
      engine := { s.engine with estate := .run, eop := op, eargs := args, erot := s.regs.ctrlRot, eidx := 0 } }
    rw [acceptOp_of_actions_cons h ha, hstart]
    exact ⟨n, p, by simp [h]⟩

/-! ## The word -/

/-- The acceptance of a CMD word other than SLEEP, by its opcode: INIT also clears INIT_DONE, a reserved opcode also
sets CMD_ERR (41_lcd_protocol.md R185, 30_encoding.md R124). -/
def acceptWord (op : BitVec 4) (args : BitVec 28) (s : State) : State :=
  if op = 0x5#4 then acceptOp op args (s.withRegs { s.regs with initDone := false })
  else if 0xA#4 ≤ op then raiseErr .cmdErr (acceptOp op args s)
  else acceptOp op args s

/-- A CMD write other than SLEEP is the write of its opcode and its operand bits. -/
theorem execWrCmd_eq_cmdWrite {w : Word} (h9 : w.extractLsb' 28 4 ≠ 0x9#4) (s : State) :
    execWrCmd w s = cmdWrite (acceptWord (w.extractLsb' 28 4) (w.extractLsb' 0 28)) s := by
  rcases opcode_cases (w.extractLsb' 28 4) with
    h | h | h | h | h | h | h | h | h | h | h | h | h | h | h | h
  all_goals
    simp only [execWrCmd, h, BitVec.reduceEq, if_true, if_false, execNop, execSetpix, execGetpix, execClear,
      execFlush, execInit, execSetcontrast, execDispctl, execSettempco, execRsvdA, execRsvdB, execRsvdC, execRsvdD,
      execRsvdE, execRsvdF, reservedWrite, field_append_field]
  pick_goal 10
  · exact absurd h h9
  all_goals rfl

/-- What the acceptance of a word leaves: the latches, and each flag by the opcode and the list. -/
theorem acceptWord_latches (op : BitVec 4) (args : BitVec 28) (s : State) :
    ∃ n p, acceptWord op args s =
      { s with
        engine := { s.engine with
          estate := if actions s.params op args s.regs.ctrlRot = [] then s.engine.estate else .run
          eop := op, eargs := args, erot := s.regs.ctrlRot, eidx := 0, ecnt := n }
        pins := p
        regs := { s.regs with
          done := s.regs.done || decide (actions s.params op args s.regs.ctrlRot = [])
          cmdErr := s.regs.cmdErr || decide (0xA#4 ≤ op)
          initDone := s.regs.initDone && decide (op ≠ 0x5#4) } } := by
  by_cases h5 : op = 0x5#4
  · obtain ⟨n, p, h⟩ := acceptOp_latches op args (s.withRegs { s.regs with initDone := false })
    rw [acceptWord, if_pos h5, h]
    exact ⟨n, p, by simp [h5]⟩
  obtain ⟨n, p, h⟩ := acceptOp_latches op args s
  rw [acceptWord, if_neg h5]
  by_cases hrsvd : 0xA#4 ≤ op
  · rw [if_pos hrsvd, h]
    exact ⟨n, p, by simp [raiseErr, State.withRegs, hrsvd, h5]⟩
  · rw [if_neg hrsvd, h]
    exact ⟨n, p, by simp [hrsvd, h5]⟩

/-- SLEEP in a ready state is accepted. -/
theorem execSleep_ready {s : State} (h : Ready s) (dur : BitVec 24) (deep : BitVec 1) (rsv : BitVec 3) :
    execSleep dur deep rsv s = .next (acceptSleep dur deep rsv s) := by
  have hfree := cmdHeld_of_ready h
  obtain ⟨-, -, -, hslp⟩ := h
  simp [execSleep, hslp, hfree]

/-- The acceptance of SLEEP: the latches of every op, the operands, and the request into its synchroniser
(43_power.md R282, R283). -/
theorem acceptSleep_eq (dur : BitVec 24) (deep : BitVec 1) (rsv : BitVec 3) (s : State) :
    acceptSleep dur deep rsv s =
      { s with
        engine := { s.engine with eop := 0x9#4, eargs := rsv ++ deep ++ dur, erot := s.regs.ctrlRot, eidx := 0 }
        sleep := { s.sleep with
          slpDur := dur, slpDeep := deep = 1#1, pwrReqTgl := !s.sleep.pwrReqTgl, slpHeld := true }
        power := { s.power with reqChain := s.power.reqChain.push (!s.sleep.pwrReqTgl) }
        bus := (holdAccess s).bus } := rfl

/-- A word with opcode 0x9 is a SLEEP, whose operands side by side are its operand bits. -/
theorem execWrCmd_sleep {w : Word} (h9 : w.extractLsb' 28 4 = 0x9#4) (s : State) :
    execWrCmd w s = execSleep (w.extractLsb' 0 24) (w.extractLsb' 24 1) (w.extractLsb' 25 3) s := by
  simp [execWrCmd, h9]

theorem actions_sleep (p : Params) (args : BitVec 28) (r : BitVec 2) : actions p 0x9#4 args r = [] := rfl

/-- Settles O17: SLEEP apart, every word is accepted as its opcode and its operand bits. -/
theorem acceptanceLatchesTheWord : Obligations.AcceptanceLatchesTheWord := by
  intro w s
  refine ⟨execWrCmd_eq_exec_decodeCmd w s, fun hready => ?_⟩
  have hidle := idle_of_ready hready
  by_cases h9 : w.extractLsb' 28 4 = 0x9#4
  · have hexec := (execWrCmd_sleep h9 s).trans (execSleep_ready hready _ _ _)
    rw [acceptSleep_eq] at hexec
    refine ⟨_, hexec, h9.symm, ?_, rfl, rfl, rfl, ?_, ?_, ?_, fun _ => rfl, fun _ => rfl, fun h => absurd h9 h,
      rfl, rfl, rfl, rfl, rfl⟩
    · simp [field_append_field]
    · simp [hidle, h9, actions_sleep]
    · rw [if_pos h9]; exact ⟨rfl, rfl, rfl⟩
    · simp [h9]
  · have hexec := (execWrCmd_eq_cmdWrite h9 s).trans (cmdWrite_ready hready _)
    obtain ⟨n, p, hlatch⟩ := acceptWord_latches (w.extractLsb' 28 4) (w.extractLsb' 0 28) s
    rw [hlatch, respondWrite_eq] at hexec
    refine ⟨_, hexec, rfl, rfl, rfl, rfl, rfl, ?_, ?_, ?_, fun _ => rfl, fun _ => rfl, fun _ => ⟨rfl, rfl⟩,
      rfl, rfl, rfl, rfl, rfl⟩
    · simp [hidle]
    · rw [if_neg h9]; exact ⟨rfl, rfl, rfl⟩
    · simp [hidle, h9]

end Sys2Proof.Proofs
end

