-- ==== Sys2Proof/Proofs/EngineRuns.lean ====
section
/-! Runs of the LCD engine to IDLE: edge by edge, and that each ends in one state (40_pixel_ops.md R150). -/

namespace Sys2Proof.Proofs

open Sys2Proof Sys2Proof.Config Sys2Proof.Machine Sys2Proof.Safety

theorem engineRun_succ {s t : State} (hrun : s.engine.estate = .run) (hstage : engineStage exec s = .next t) (n : Nat) :
    engineRun (n + 1) s = engineRun n t := by
  simp [engineRun, hrun, hstage, andThen]

theorem runsToIdle_zero {s : State} (hidle : s.engine.estate = .idle) : RunsToIdle 0 s s :=
  ⟨rfl, hidle, fun _ hm => absurd hm (Nat.not_lt_zero _)⟩

theorem runsToIdle_succ {s t u : State} {n : Nat} (hrun : s.engine.estate = .run)
    (hstage : engineStage exec s = .next t) (h : RunsToIdle n t u) : RunsToIdle (n + 1) s u := by
  obtain ⟨hend, hidle, hbefore⟩ := h
  refine ⟨(engineRun_succ hrun hstage n).trans hend, hidle, fun m hm => ?_⟩
  cases m with
  | zero => exact ⟨s, rfl, hrun⟩
  | succ m =>
    rw [engineRun_succ hrun hstage]
    exact hbefore m (Nat.lt_of_succ_lt_succ hm)

/-- The engine is still in RUN at every edge before the last, so no run ends within another. -/
theorem runsToIdle_not_lt {s u v : State} {m n : Nat} (hm : RunsToIdle m s u) (hn : RunsToIdle n s v) : ¬ m < n := by
  intro hlt
  obtain ⟨hend, hidle, -⟩ := hm
  obtain ⟨-, -, hbefore⟩ := hn
  obtain ⟨t, ht, hrun⟩ := hbefore m hlt
  obtain rfl : t = u := by simpa [hend] using ht.symm
  exact absurd (hidle.symm.trans hrun) (by decide)

/-- An op's run ends in one state only. -/
theorem runsToIdle_unique {s u v : State} {m n : Nat} (hm : RunsToIdle m s u) (hn : RunsToIdle n s v) : u = v := by
  obtain rfl : m = n := Nat.le_antisymm (Nat.le_of_not_lt (runsToIdle_not_lt hn hm))
    (Nat.le_of_not_lt (runsToIdle_not_lt hm hn))
  obtain ⟨hu, -, -⟩ := hm
  obtain ⟨hv, -, -⟩ := hn
  simpa [hu] using hv

end Sys2Proof.Proofs
end

