-- ==== Sys2Proof/Proofs/PixelActions.lean ====
section
/-! The run of a list of framebuffer actions, from acceptance one clk edge an action, to IDLE with DONE set
(40_pixel_ops.md R150, R155 to R157; 41_lcd_protocol.md R180; 70_reset_and_hazards.md R420). -/

namespace Sys2Proof.Proofs

open Sys2Proof Sys2Proof.Config Sys2Proof.Machine Sys2Proof.Safety

/-! ## The framebuffer actions -/

/-- The bit that FBRD puts into RESULT.PIX: the one at a location, 0 without one (R156). -/
def readPixel (s : State) : Option (Nat × Nat) → Bool
  | some (i, k) => (fbRead s i).getLsbD k
  | none => false

/-- What an action on the framebuffer does at the edge that ends its one cycle (R155 to R157). -/
def pixelEffect (a : Action) (s : State) : State :=
  match a with
  | .fbrmw i m c => fbWrite i (applyMask (fbRead s i) m c) s
  | .fbrd at? => s.withRegs { s.regs with resultPix := readPixel s at? }
  | .fbz i => fbWrite i 0#8 s
  | .rst _ | .wait _ | .sce _ | .byte _ _ | .byteFb _ => s

/-- The effects of a list of them, in order. -/
def pixelEffects (as : List Action) (s : State) : State := as.foldl (fun t a => pixelEffect a t) s

@[simp] theorem pixelEffects_nil (s : State) : pixelEffects [] s = s := rfl

@[simp] theorem pixelEffects_cons (a : Action) (as : List Action) (s : State) :
    pixelEffects (a :: as) s = pixelEffects as (pixelEffect a s) := rfl

theorem pixelEffect_frame (a : Action) (s : State) :
    ∃ f b, pixelEffect a s = { s with fb := f, regs := { s.regs with resultPix := b } } := by
  cases a <;> exact ⟨_, _, rfl⟩

/-- They write the framebuffer and RESULT.PIX only. -/
theorem pixelEffects_frame (as : List Action) (s : State) :
    ∃ f b, pixelEffects as s = { s with fb := f, regs := { s.regs with resultPix := b } } := by
  induction as generalizing s with
  | nil => exact ⟨s.fb, s.regs.resultPix, rfl⟩
  | cons a as ih =>
    obtain ⟨f, b, ha⟩ := pixelEffect_frame a s
    obtain ⟨f', b', has⟩ := ih (pixelEffect a s)
    exact ⟨f', b', by rw [pixelEffects_cons, has, ha]⟩

theorem pixelEffect_withEngine (a : Action) (s : State) (e : Engine) :
    pixelEffect a (s.withEngine e) = (pixelEffect a s).withEngine e := by
  cases a <;> rfl

theorem pixelEffect_withBus (a : Action) (s : State) (b : HostBus) :
    pixelEffect a (s.withBus b) = (pixelEffect a s).withBus b := by
  cases a <;> rfl

/-- What is independent of each effect is independent of them all. -/
theorem pixelEffects_comm {g : State → State} (hg : ∀ a s, pixelEffect a (g s) = g (pixelEffect a s))
    (as : List Action) (s : State) : pixelEffects as (g s) = g (pixelEffects as s) := by
  induction as generalizing s with
  | nil => rfl
  | cons a as ih => rw [pixelEffects_cons, hg, ih, pixelEffects_cons]

/-- They do not depend on the engine. -/
theorem pixelEffects_withEngine (as : List Action) (s : State) (e : Engine) :
    pixelEffects as (s.withEngine e) = (pixelEffects as s).withEngine e :=
  pixelEffects_comm (g := (·.withEngine e)) (fun a s => pixelEffect_withEngine a s e) as s

/-- They do not depend on the response ports. -/
theorem pixelEffects_withBus (as : List Action) (s : State) (b : HostBus) :
    pixelEffects as (s.withBus b) = (pixelEffects as s).withBus b :=
  pixelEffects_comm (g := (·.withBus b)) (fun a s => pixelEffect_withBus a s b) as s

theorem isOpener_of_isPixelAction {a : Action} (ha : isPixelAction a = true) : isOpener a = true := by
  cases a with
  | fbrmw | fbrd | fbz => rfl
  | _ => cases ha

/-- A framebuffer action takes one cycle from its start. -/
theorem startAction_pixel {a : Action} (ha : isPixelAction a = true) (s : State) :
    startAction a s = (s.withEngine { s.engine with ecnt := 1 }, none) := by
  cases a with
  | fbrmw | fbrd | fbz => rfl
  | _ => cases ha

theorem startFrom_pixel {a : Action} (ha : isPixelAction a = true) (as : List Action) (s : State) :
    startFrom (a :: as) s = (s.withEngine { s.engine with ecnt := 1 }, none) := by
  rw [← startAction_pixel ha]
  cases a with
  | fbrmw | fbrd | fbz => rfl
  | _ => cases ha

theorem actionEdge_pixel {a : Action} (ha : isPixelAction a = true) (s : State) :
    actionEdge a s = nextAction (pixelEffect a s) := by
  cases a with
  | fbrmw | fbz => rfl
  | fbrd at? => rcases at? with _ | ⟨i, k⟩ <;> rfl
  | _ => cases ha

/-! ## One clk edge an action -/

/-- The engine is in RUN, `as` is what remains of the op's list, and its first action ends at the next clk edge. -/
structure AtActions (as : List Action) (s : State) : Prop where
  run : s.engine.estate = .run
  cnt : s.engine.ecnt = 1
  rest : (opActions s).drop s.engine.eidx = as

theorem AtActions.drop_succ {a : Action} {as : List Action} {s : State} (h : AtActions (a :: as) s) :
    (opActions s).drop (s.engine.eidx + 1) = as := by
  rw [← List.drop_drop, h.rest]
  rfl

/-- At that edge the action has its effect, and the rest of the list starts. -/
theorem engineStage_pixel {a : Action} {as : List Action} {s : State} (ha : isPixelAction a = true)
    (h : AtActions (a :: as) s) :
    engineStage exec s =
      .next (startDue (startFrom as
        ((pixelEffect a s).withEngine { s.engine with eidx := s.engine.eidx + 1, ecnt := 0 }))) := by
  have hat : (opActions s)[s.engine.eidx]? = some a := by
    rw [← List.head?_drop, h.rest]
    rfl
  have hedge : engineEdge s = nextAction ((pixelEffect a s).withEngine { s.engine with ecnt := 0 }) := by
    simp only [engineEdge, hat, h.cnt, lt_irrefl, if_false, actionEdge_pixel ha, pixelEffect_withEngine]
  obtain ⟨f, b, hf⟩ := pixelEffect_frame a s
  rw [engineStage_eq, hedge, hf, nextAction, ← h.drop_succ]
  rfl

/-- The next action then ends one edge later. -/
theorem AtActions.next {a : Action} {as : List Action} {s : State} (h : AtActions (a :: as) s) :
    AtActions as ((pixelEffect a s).withEngine { s.engine with eidx := s.engine.eidx + 1, ecnt := 1 }) where
  run := h.run
  cnt := rfl
  rest := by
    obtain ⟨f, b, hf⟩ := pixelEffect_frame a s
    rw [hf]
    exact h.drop_succ

/-- A list of framebuffer actions runs to IDLE, one clk edge an action. -/
theorem pixelActions_runsToIdle {as : List Action} {s : State} (hne : as ≠ [])
    (hpixel : ∀ a ∈ as, isPixelAction a = true) (hat : AtActions as s) :
    ∃ k, RunsToIdle as.length s
      (finishOp ((pixelEffects as s).withEngine { s.engine with eidx := k, ecnt := 0 })) := by
  induction as generalizing s with
  | nil => exact absurd rfl hne
  | cons a as ih =>
    obtain ⟨ha, hrest⟩ := List.forall_mem_cons.1 hpixel
    have hstage := engineStage_pixel ha hat
    cases as with
    | nil => exact ⟨_, runsToIdle_succ hat.run hstage (runsToIdle_zero rfl)⟩
    | cons b bs =>
      obtain ⟨hb, -⟩ := List.forall_mem_cons.1 hrest
      rw [startFrom_pixel hb] at hstage
      obtain ⟨k, hruns⟩ := ih (List.cons_ne_nil b bs) hrest hat.next
      rw [pixelEffects_withEngine] at hruns
      exact ⟨k, runsToIdle_succ hat.run hstage hruns⟩

/-! ## From acceptance to IDLE -/

/-- `u` is `s` after an op with the framebuffer actions `as`: their effects, and DONE. -/
structure RanPixels (as : List Action) (s u : State) : Prop where
  fb : ∀ i, fbRead u i = fbRead (pixelEffects as s) i
  regs : u.regs = { (pixelEffects as s).regs with done := true }
  pins : u.pins = s.pins
  mode : u.engine.mode = s.engine.mode
  others : OthersUnchanged s u

/-- The engine at the acceptance of an op whose first action is one on the framebuffer. -/
def pixelEngine (op : BitVec 4) (args : BitVec 28) (s : State) : Engine :=
  { s.engine with estate := .run, eop := op, eargs := args, erot := s.regs.ctrlRot, eidx := 0, ecnt := 1 }

/-- An op with a list of framebuffer actions is accepted, and its first action ends at the next clk edge. -/
theorem acceptOp_pixel {op : BitVec 4} {args : BitVec 28} {s : State} {a : Action} {as : List Action}
    (h : actions s.params op args s.regs.ctrlRot = a :: as) (ha : isPixelAction a = true) :
    acceptOp op args s = s.withEngine (pixelEngine op args s) := by
  rw [acceptOp_of_actions_cons h (isOpener_of_isPixelAction ha), startAction_pixel ha]
  rfl

/-- An op with a list of framebuffer actions, from its write to IDLE. INIT, which also sets INIT_DONE at its end, is
none of them. -/
theorem pixelOp_runs {op : BitVec 4} {args : BitVec 28} {s : State} {as : List Action} (hready : Ready s)
    (hop : op ≠ 0x5#4) (hlist : actions s.params op args s.regs.ctrlRot = as) (hne : as ≠ [])
    (hpixel : ∀ a ∈ as, isPixelAction a = true) :
    ∃ t u, cmdWrite (acceptOp op args) s = .next t ∧ Completed s.bus t.bus ∧ SameFramebuffer s t ∧
      RunsToIdle as.length t u ∧ RanPixels as s u := by
  obtain ⟨a, rest, rfl⟩ := List.exists_cons_of_ne_nil hne
  have haccept := cmdWrite_ready hready (acceptOp op args)
  rw [acceptOp_pixel hlist (hpixel a List.mem_cons_self)] at haccept
  obtain ⟨k, hruns⟩ := pixelActions_runsToIdle (s := respondWrite (s.withEngine (pixelEngine op args s))) hne hpixel
    ⟨rfl, rfl, hlist⟩
  refine ⟨_, _, haccept, ⟨rfl, rfl, rfl⟩, fun _ => rfl, hruns, ?_⟩
  rw [respondWrite, respondUnread, pixelEffects_withBus, pixelEffects_withEngine]
  obtain ⟨f, b, hf⟩ := pixelEffects_frame (a :: rest) s
  exact
    { fb := fun _ => rfl
      regs := by simp [hf, finishOp, pixelEngine, hop]
      pins := by rw [hf]; rfl
      mode := rfl
      others := by rw [hf]; exact ⟨rfl, rfl, rfl, rfl, rfl, rfl, rfl, rfl, rfl⟩ }

/-- The block is ready again when such an op has ended. -/
theorem ready_of_idle {s u : State} (hready : Ready s) (hidle : u.engine.estate = .idle) (h : OthersUnchanged s u) :
    Ready u := by
  obtain ⟨-, hcons, hsleep, -⟩ := h
  obtain ⟨-, hreq⟩ := hready
  refine ⟨hidle, ?_⟩
  simpa only [pwrAckSync, fatalSyncOut, hcons, hsleep] using hreq

end Sys2Proof.Proofs
end

