-- ==== Sys2Proof/Proofs/PixelOps.lean ====
section
/-! The ops that touch only the framebuffer: NOP, SETPIX, GETPIX and CLEAR (40_pixel_ops.md R152 to R158,
70_reset_and_hazards.md R420). -/

namespace Sys2Proof.Proofs

open Sys2Proof Sys2Proof.Config Sys2Proof.Machine Sys2Proof.Safety

/-! ## The lists -/

theorem actions_nop (p : Params) (args : BitVec 28) (r : BitVec 2) : actions p 0x0#4 args r = [] := rfl

theorem actions_setpix (p : Params) (x y : BitVec 12) (c : BitVec 1) (rsv : BitVec 3) (r : BitVec 2) :
    actions p 0x1#4 (rsv ++ c ++ y ++ x) r = setpixActions r x y c := by
  simp [actions, field_of_low, field_of_high]

theorem actions_getpix (p : Params) (x y : BitVec 12) (rsv : BitVec 4) (r : BitVec 2) :
    actions p 0x2#4 (rsv ++ y ++ x) r = [.fbrd (pixelAt r x y)] := by
  simp [actions, getpixActions, field_of_low, field_of_high]

theorem actions_clear (p : Params) (args : BitVec 28) (r : BitVec 2) : actions p 0x3#4 args r = clearActions := rfl

/-! ## NOP -/

/-- The write of an op with an empty list completes, with the latches and DONE. -/
theorem emptyOp_completes {op : BitVec 4} {args : BitVec 28} {s : State} (hready : Ready s)
    (h : actions s.params op args s.regs.ctrlRot = []) :
    ∃ b,
      cmdWrite (acceptOp op args) s =
        .next { s with
          engine := { s.engine with eop := op, eargs := args, erot := s.regs.ctrlRot, eidx := 0 }
          regs := { s.regs with done := true }
          bus := b } ∧
      Completed s.bus b := by
  rw [cmdWrite_ready hready, acceptOp_of_no_actions h]
  exact ⟨_, rfl, rfl, rfl, rfl⟩

/-- Settles O19: NOP's list is empty. -/
theorem nopOnlySetsDone : Obligations.NopOnlySetsDone := by
  intro r s hready
  exact emptyOp_completes hready (actions_nop s.params r s.regs.ctrlRot)

/-! ## SETPIX -/

/-- The bit of the mask takes the colour, and the others stay (R153, R155). -/
theorem applyMask_bitMask (b : Byte) {k : Nat} (hk : k < 8) (c : Bool) (j : Nat) :
    (applyMask b (bitMask k) c).getLsbD j = if j = k then c else b.getLsbD j := by
  have hmask : (bitMask k).getLsbD j = decide (j = k) := by
    simp only [bitMask, BitVec.getLsbD_shiftLeft, BitVec.getLsbD_one]
    grind
  by_cases hj : j = k
  · subst hj
    cases c <;> simp [applyMask, hmask, hk]
  · cases c with
    | true => simp [applyMask, hmask, hj]
    | false => simpa [applyMask, hmask, hj] using fun h => b.lt_of_getLsbD h

/-- SETPIX in range is one read-modify-write of the addressed byte. -/
theorem setpix_in_range {s : State} {x y : BitVec 12} (c : BitVec 1) (r : BitVec 3) (hready : Ready s) {i k : Nat}
    (h : pixelAt s.regs.ctrlRot x y = some (i, k)) :
    ∃ t u, exec (.setpix x y c r) s = .next t ∧ Completed s.bus t.bus ∧ SameFramebuffer s t ∧ RunsToIdle 1 t u ∧
      RanPixels [.fbrmw i (bitMask k) (c = 1#1)] s u := by
  refine pixelOp_runs (as := [.fbrmw i (bitMask k) (c = 1#1)]) hready (by decide) ?_ (List.cons_ne_nil _ _) ?_
  · simp only [actions_setpix, setpixActions, h]
  · exact List.forall_mem_singleton.2 rfl

/-- SETPIX out of range has no actions. -/
theorem setpix_out_of_range {s : State} {x y : BitVec 12} (c : BitVec 1) (r : BitVec 3) (hready : Ready s)
    (h : pixelAt s.regs.ctrlRot x y = none) :
    ∃ b,
      exec (.setpix x y c r) s =
        .next { s with
          engine := { s.engine with
            eop := 0x1#4, eargs := r ++ c ++ y ++ x, erot := s.regs.ctrlRot, eidx := 0 }
          regs := { s.regs with done := true }
          bus := b } ∧
      Completed s.bus b := by
  have hlist : actions s.params 0x1#4 (r ++ c ++ y ++ x) s.regs.ctrlRot = [] := by
    simp only [actions_setpix, setpixActions, h]
  exact emptyOp_completes hready hlist

/-- Settles O21: the one action in range writes the addressed bit; out of range there is none. -/
theorem setpixWritesOneBit : Obligations.SetpixWritesOneBit := by
  intro s x y c r hready
  refine ⟨fun i k h => ?_, setpix_out_of_range c r hready⟩
  obtain ⟨t, u, hexec, hdone, hsame, hruns, hran⟩ := setpix_in_range c r hready h
  have hbyte : fbRead u i = applyMask (fbRead s i) (bitMask k) (c = 1#1) :=
    (hran.fb i).trans (fbRead_fbWrite_same i _ s)
  have hbit := applyMask_bitMask (fbRead s i) (pixelAt_bit_lt h) (decide (c = 1#1))
  refine ⟨t, u, hexec, hdone, hsame, hruns, ?_, fun j hj => ?_, fun a ha => ?_, hran.regs, hran.pins, hran.mode,
    hran.others⟩
  · rw [hbyte, hbit, if_pos rfl]
  · rw [hbyte, hbit, if_neg hj]
  · exact (hran.fb a).trans (fbRead_fbWrite_other _ s ha)

/-! ## GETPIX -/

/-- Settles O22: the one action reads the addressed bit and writes no byte. -/
theorem getpixReadsOneBit : Obligations.GetpixReadsOneBit := by
  intro s x y r hready
  obtain ⟨t, u, hexec, hdone, -, hruns, hran⟩ := pixelOp_runs hready (by decide)
    (actions_getpix s.params x y r s.regs.ctrlRot) (List.cons_ne_nil _ _) (List.forall_mem_singleton.2 rfl)
  refine ⟨t, u, hexec, hdone, hruns, hran.regs.trans ?_, hran.fb, hran.pins, hran.mode, hran.others⟩
  cases pixelAt s.regs.ctrlRot x y <;> rfl

/-- RESULT.PIX after a GETPIX. -/
theorem getpix_resultPix {s t u : State} {x y : BitVec 12} {r : BitVec 4} {n : Nat} (hready : Ready s)
    (hexec : exec (.getpix x y r) s = .next t) (hruns : RunsToIdle n t u) :
    u.regs.resultPix = readPixel s (pixelAt s.regs.ctrlRot x y) := by
  obtain ⟨t', u', hexec', -, hruns', hregs, -⟩ := getpixReadsOneBit s x y r hready
  obtain rfl := Host.Outcome.next.inj (hexec.symm.trans hexec')
  rw [runsToIdle_unique hruns hruns', hregs]
  rfl

/-- Settles O23: the GETPIX starts from a ready state with the rotation of the SETPIX, so it reads the bit that the
SETPIX has written. -/
theorem setpixThenGetpix : Obligations.SetpixThenGetpix := by
  intro s t u v w x y c r r' m n hready hset hrunset hget hrunget
  obtain ⟨hin, hout⟩ := setpixWritesOneBit s x y c r hready
  cases hp : pixelAt s.regs.ctrlRot x y with
  | some ik =>
    obtain ⟨i, k⟩ := ik
    obtain ⟨t', u', hset', -, -, hrunset', hbit, -, -, hregs, -, -, hothers⟩ := hin i k hp
    obtain rfl := Host.Outcome.next.inj (hset.symm.trans hset')
    obtain rfl := runsToIdle_unique hrunset hrunset'
    obtain ⟨-, hidle, -⟩ := hrunset
    rw [getpix_resultPix (ready_of_idle hready hidle hothers) hget hrunget]
    simp [hregs, hp, hbit, readPixel]
  | none =>
    obtain ⟨b, hset', -, -, hq⟩ := hout hp
    have ht := Host.Outcome.next.inj (hset.symm.trans hset')
    have hidle : t.engine.estate = .idle := by rw [ht]; exact idle_of_ready hready
    have hothers : OthersUnchanged s t := by rw [ht]; exact ⟨rfl, rfl, rfl, rfl, rfl, rfl, rfl, rfl, hq⟩
    obtain rfl := runsToIdle_unique hrunset (runsToIdle_zero hidle)
    rw [getpix_resultPix (ready_of_idle hready hidle hothers) hget hrunget]
    simp [ht, hp, readPixel]

/-! ## CLEAR -/

/-- Zeroing the listed bytes writes nothing but them. -/
theorem pixelEffects_fbz (is : List Nat) (s : State) :
    (pixelEffects (is.map .fbz) s).regs = s.regs ∧
      ∀ j, fbRead (pixelEffects (is.map .fbz) s) j = if j ∈ is then 0#8 else fbRead s j := by
  induction is generalizing s with
  | nil => exact ⟨rfl, fun _ => rfl⟩
  | cons i is ih =>
    obtain ⟨hregs, hfb⟩ := ih (fbWrite i 0#8 s)
    refine ⟨hregs, fun j => (hfb j).trans ?_⟩
    by_cases hj : j = i
    · subst hj; simp
    · simp [hj, fbRead_fbWrite_other _ s hj]

theorem clearActions_length : clearActions.length = 504 := by
  rw [clearActions, List.length_map, List.length_range']

theorem clearActions_pixel : ∀ a ∈ clearActions, isPixelAction a = true := by
  intro a ha
  obtain ⟨i, -, rfl⟩ := List.mem_map.1 ha
  rfl

/-- Settles O24: 504 actions, one an edge, each zeroing its byte. -/
theorem clearZeroesTheFramebuffer : Obligations.ClearZeroesTheFramebuffer := by
  intro s r hready
  have hne : clearActions ≠ [] := List.ne_nil_of_length_eq_add_one clearActions_length
  obtain ⟨t, u, hexec, hdone, -, hruns, hfb, hregs, hpins, hmode, hothers⟩ :=
    pixelOp_runs hready (by decide) (actions_clear s.params r s.regs.ctrlRot) hne clearActions_pixel
  obtain ⟨hregs', hzero⟩ := pixelEffects_fbz (List.range' 0 fbBytes) s
  have hmem (j : Nat) : j ∈ List.range' 0 fbBytes ↔ j < 504 := by simp [fbBytes]
  have hbyte (j : Nat) : fbRead u j = if j < 504 then 0#8 else fbRead s j :=
    (hfb j).trans ((hzero j).trans (by simp only [hmem]))
  rw [clearActions_length] at hruns
  refine ⟨t, u, hexec, hdone, hruns, fun i hi => ?_, fun i hi => ?_, ?_, hpins, hmode, hothers⟩
  · rw [hbyte, if_pos hi]
  · rw [hbyte, if_neg (Nat.not_lt.2 hi)]
  · rw [hregs, clearActions, hregs']

end Sys2Proof.Proofs
end

