-- ==== Sys2Proof/Proofs/EngineEdges.lean ====
section
/-! One clk edge of the LCD engine, case by case: a wait that goes on, the end of an action's wait, and the waits inside
a byte (41_lcd_protocol.md R180, R182; 10_state.md R38, R49). -/

namespace Sys2Proof.Proofs

open Sys2Proof Sys2Proof.Config Sys2Proof.Machine

/-! ## The start of the rest of a list -/

/-- The rest `as` of the op's list starts: its first action, with the byte that action asks for. -/
def startList (as : List Action) (s : State) : State := startDue (startFrom as s)

/-- A wait of no time is passed over (10_state.md R38). -/
theorem startList_wait_zero (as : List Action) (s : State) :
    startList (.wait 0 :: as) s = startList as (s.withEngine { s.engine with eidx := s.engine.eidx + 1 }) := rfl

/-- Any other first action starts. -/
theorem startList_cons {a : Action} (ha : a ≠ .wait 0) (as : List Action) (s : State) :
    startList (a :: as) s = startDue (startAction a s) := by
  rw [startList, startFrom]
  exact ha

theorem startList_wait_succ (n : Nat) (as : List Action) (s : State) :
    startList (.wait (n + 1) :: as) s = s.withEngine { s.engine with ecnt := n + 1 } := rfl

theorem startList_rst (l : Bool) (as : List Action) (s : State) :
    startList (.rst l :: as) s =
      (s.withEngine { s.engine with ecnt := 1 }).withPins { s.pins with lcdRstN := l } := rfl

theorem startList_sce (l : Bool) (as : List Action) (s : State) :
    startList (.sce l :: as) s =
      (s.withEngine { s.engine with ecnt := halfT s }).withPins { s.pins with lcdSceN := l } := rfl

/-- The phase of a BYTE action; the other actions have none. -/
def phaseOf : Action → Option Bool
  | .byte dc _ => some dc
  | .byteFb _ => some true
  | .rst _ | .wait _ | .sce _ | .fbrmw _ _ _ | .fbrd _ | .fbz _ => none

/-- The end of an action starts the rest of the list. -/
theorem startDue_nextAction (s : State) :
    startDue (nextAction s) =
      startList ((opActions s).drop (s.engine.eidx + 1))
        (s.withEngine { s.engine with eidx := s.engine.eidx + 1 }) := rfl

/-- The state at the acceptance of an op with actions, its first action about to start (40_pixel_ops.md R150). -/
def accepted (op : BitVec 4) (args : BitVec 28) (s : State) : State :=
  { s with
    engine := { s.engine with estate := .run, eop := op, eargs := args, erot := s.regs.ctrlRot, eidx := 0 } }

/-- An op with actions starts its list at the acceptance. -/
theorem acceptOp_eq_startList {op : BitVec 4} {args : BitVec 28} {s : State} {as : List Action}
    (h : actions s.params op args s.regs.ctrlRot = as) (hne : as ≠ []) :
    acceptOp op args s = startList as (accepted op args s) := by
  rcases actions_opens s.params op args s.regs.ctrlRot with hnil | ⟨a, rest, hlist, ha⟩
  · exact absurd (h.symm.trans hnil) hne
  · obtain rfl : as = a :: rest := h.symm.trans hlist
    rw [acceptOp_of_actions_cons hlist ha]
    cases a with
    | rst | sce | fbrmw | fbrd | fbz => rfl
    | wait | byte | byteFb => cases ha

/-! ## A clk edge -/

/-- The wait of a BYTE action ends inside the byte. -/
theorem actionEdge_byte {a : Action} {dc : Bool} (h : phaseOf a = some dc) (s : State) :
    actionEdge a s = byteEdge dc s := by
  cases a with
  | byte | byteFb => cases h; rfl
  | _ => cases h

/-- The wait of any other action ends the action, with an effect on the framebuffer and RESULT.PIX only. -/
theorem actionEdge_not_byte {a : Action} (h : phaseOf a = none) (s : State) :
    ∃ f r, actionEdge a s = nextAction { s with fb := f, regs := r } := by
  cases a with
  | byte | byteFb => cases h
  | fbrd at? => rcases at? with _ | ⟨i, k⟩ <;> exact ⟨_, _, rfl⟩
  | _ => exact ⟨_, _, rfl⟩

/-- The mode that a byte leaves is the one its action leaves (30_encoding.md R130). -/
theorem finishByte_eq (dc : Bool) (s : State) :
    finishByte dc s =
      s.withEngine { s.engine with lcdH := modeNext s.engine.lcdH (.byte dc s.engine.eshift) } := by
  cases dc with
  | true => rfl
  | false =>
    by_cases hfuncset : s.engine.eshift.extractLsb' 3 5 = 0b00100#5
    · simp [finishByte, modeNext, hfuncset]
    · simp only [finishByte, modeNext, Bool.not_false, Bool.true_and, beq_iff_eq, hfuncset, if_false]
      rfl

section
variable {s : State} {a : Action} (hcur : (opActions s)[s.engine.eidx]? = some a)
include hcur

/-- A wait with more than one cycle left goes on. -/
theorem engineStage_waits (hcnt : 1 < s.engine.ecnt) :
    engineStage exec s = .next { s with engine := { s.engine with ecnt := s.engine.ecnt - 1 } } := by
  simp only [engineStage_eq, engineEdge, hcur, hcnt, if_true]
  rfl

/-- A wait with its last cycle left ends. -/
theorem engineStage_ends (hcnt : s.engine.ecnt ≤ 1) :
    engineStage exec s = .next (startDue (actionEdge a (s.withEngine { s.engine with ecnt := 0 }))) := by
  simp only [engineStage_eq, engineEdge, hcur, Nat.not_lt.2 hcnt, if_false]

/-- An action other than a BYTE is complete, and the rest of the list starts. -/
theorem engineStage_completes (hphase : phaseOf a = none) (hcnt : s.engine.ecnt ≤ 1) :
    ∃ f r, engineStage exec s =
      .next (startList ((opActions s).drop (s.engine.eidx + 1))
        { s with engine := { s.engine with ecnt := 0, eidx := s.engine.eidx + 1 }, fb := f, regs := r }) := by
  obtain ⟨f, r, hend⟩ := actionEdge_not_byte hphase (s.withEngine { s.engine with ecnt := 0 })
  exact ⟨f, r, by rw [engineStage_ends hcur hcnt, hend, startDue_nextAction]; rfl⟩

variable {dc : Bool} (hphase : phaseOf a = some dc) (hcnt : s.engine.ecnt ≤ 1)
include hphase hcnt

/-- The D/C setup is over: the byte enters the shifter and its first bit goes out. -/
theorem engineStage_loads (hsetup : s.engine.esetup = true) :
    engineStage exec s =
      .next { s with
        engine := { s.engine with eshift := s.engine.ebyte, esetup := false, ecnt := halfT s }
        pins := { s.pins with lcdSdin := s.engine.ebyte.getLsbD 7 } } := by
  rw [engineStage_ends hcur hcnt, actionEdge_byte hphase]
  simp only [byteEdge, State.withEngine_engine, hsetup, if_true]
  rfl

variable (hsetup : s.engine.esetup = false)
include hsetup

/-- The low half of a bit is over: `lcd_sclk` rises. -/
theorem engineStage_rises (hlow : s.pins.lcdSclk = false) :
    engineStage exec s =
      .next { s with engine := { s.engine with ecnt := halfT s }, pins := { s.pins with lcdSclk := true } } := by
  rw [engineStage_ends hcur hcnt, actionEdge_byte hphase]
  simp only [byteEdge, State.withEngine_engine, State.withEngine_pins, hsetup, hlow, Bool.not_false, if_true,
    Bool.false_eq_true, if_false]
  rfl

/-- The high half of a bit is over, with more bits to send: `lcd_sclk` falls and the next bit goes out. -/
theorem engineStage_falls (hhigh : s.pins.lcdSclk = true) (hleft : 1 < s.engine.ebit) :
    engineStage exec s =
      .next { s with
        engine := { s.engine with ebit := s.engine.ebit - 1, ecnt := halfT s }
        pins := { s.pins with
          lcdSclk := false, lcdSdin := s.engine.eshift.getLsbD (s.engine.ebit - 2) } } := by
  rw [engineStage_ends hcur hcnt, actionEdge_byte hphase]
  simp only [byteEdge, State.withEngine_engine, State.withEngine_pins, hsetup, hhigh, Bool.not_true,
    Bool.false_eq_true, if_false, Nat.not_le.2 hleft]
  rfl

/-- The last bit is over: `lcd_sclk` falls, the byte is complete, and the rest of the list starts. -/
theorem engineStage_sent (hhigh : s.pins.lcdSclk = true) (hleft : s.engine.ebit ≤ 1) :
    engineStage exec s =
      .next (startList ((opActions s).drop (s.engine.eidx + 1))
        { s with
          engine := { s.engine with
            ebit := 0, ecnt := 0, lcdH := modeNext s.engine.lcdH (.byte dc s.engine.eshift)
            eidx := s.engine.eidx + 1 }
          pins := { s.pins with lcdSclk := false } }) := by
  rw [engineStage_ends hcur hcnt, actionEdge_byte hphase]
  simp only [byteEdge, State.withEngine_engine, State.withEngine_pins, hsetup, hhigh, Bool.not_true,
    Bool.false_eq_true, if_false, hleft, if_true]
  rw [finishByte_eq, startDue_nextAction]
  rfl

end

end Sys2Proof.Proofs
end

