-- ==== Sys2Proof/Proofs/SerializerInvariant.lean ====
section
/-! The serializer's invariant, kept by every tick: by the access presented, which starts an op only from IDLE, by each
edge of the op in progress, and by the reset (41_lcd_protocol.md R181, R182, R183, R198, R199). -/

namespace Sys2Proof.Proofs

open Sys2Proof Sys2Proof.Config Sys2Proof.Machine Sys2Proof.Safety

/-! ## The serializer's part of a state -/

/-- `t` has the parameters, the engine and the pins of `s`. -/
structure SameSerializer (s t : State) : Prop where
  params : t.params = s.params
  engine : t.engine = s.engine
  pins : t.pins = s.pins

theorem SameSerializer.refl (s : State) : SameSerializer s s := ⟨rfl, rfl, rfl⟩

theorem SameSerializer.trans {s t u : State} (h : SameSerializer s t) (k : SameSerializer t u) : SameSerializer s u :=
  ⟨k.params.trans h.params, k.engine.trans h.engine, k.pins.trans h.pins⟩

theorem SameSerializer.opActions_eq {s t : State} (h : SameSerializer s t) : opActions t = opActions s := by
  simp only [opActions, h.params, h.engine]

theorem SameSerializer.serializerOk {s t : State} (h : SameSerializer s t) (hs : SerializerOk s) : SerializerOk t := by
  simpa only [SerializerOk, h.opActions_eq, h.engine, h.pins] using hs

/-! ## The invariant between ops, between actions and within one -/

/-- The invariant with the engine IDLE. -/
structure IdleOk (s : State) : Prop where
  idle : s.engine.estate = .idle
  dc : s.pins.lcdDc = decide (s.engine.mode = .datap)
  ebit : s.engine.ebit ≤ 8
  sce : s.pins.lcdSceN = true
  sclk : s.pins.lcdSclk = false
  lcdH : s.engine.lcdH = false

theorem IdleOk.serializerOk {s : State} (h : IdleOk s) : SerializerOk s := by
  simp only [SerializerOk, h.idle]
  exact ⟨h.dc, h.ebit, h.sce, h.sclk, h.lcdH⟩

theorem idleOk_of_serializerOk {s : State} (h : SerializerOk s) (hidle : s.engine.estate = .idle) : IdleOk s := by
  simp only [SerializerOk, hidle] at h
  obtain ⟨hdc, hebit, hsce, hsclk, hmode⟩ := h
  exact ⟨hidle, hdc, hebit, hsce, hsclk, hmode⟩

/-- The engine is in RUN, the actions up to `eidx` are complete, and the one there is about to start. -/
structure BetweenActions (s : State) : Prop where
  run : s.engine.estate = .run
  dc : s.pins.lcdDc = decide (s.engine.mode = .datap)
  ebit : s.engine.ebit ≤ 8
  sce : s.pins.lcdSceN = sceAfter ((opActions s).take s.engine.eidx)
  sclk : s.pins.lcdSclk = false
  lcdH : s.engine.lcdH = modeAfter ((opActions s).take s.engine.eidx)

/-- A byte of phase `dc` is in progress. -/
structure ByteOk (dc : Bool) (s : State) : Prop where
  mode : s.engine.mode = wantMode dc
  left : 1 ≤ s.engine.ebit
  setup : s.engine.esetup = true → s.engine.ebit = 8 ∧ s.pins.lcdSclk = false

/-- The byte in progress is `b`, in the shifter once its setup is over. -/
structure HoldsByte (b : Byte) (s : State) : Prop where
  byte : s.engine.ebyte = b
  shifted : s.engine.esetup = false → s.engine.eshift = b

/-- What the invariant says of the action in progress. -/
def ActionOk (s : State) : Action → Prop
  | .byte dc b => ByteOk dc s ∧ HoldsByte b s
  | .byteFb _ => ByteOk true s
  | .rst _ | .wait _ | .sce _ | .fbrmw _ _ _ | .fbrd _ | .fbz _ => s.pins.lcdSclk = false

theorem ActionOk.byteOk {s : State} {a : Action} {dc : Bool} (h : ActionOk s a)
    (hphase : phaseOf a = some dc) : ByteOk dc s := by
  cases a with
  | byte => cases hphase; exact h.1
  | byteFb => cases hphase; exact h
  | _ => cases hphase

theorem ActionOk.sclk_low {s : State} {a : Action} (h : ActionOk s a) (hphase : phaseOf a = none) :
    s.pins.lcdSclk = false := by
  cases a with
  | byte | byteFb => cases hphase
  | _ => exact h

/-- A byte's phase, count and shifter are all that its action asks of the state. -/
theorem ActionOk.of_byteOk {s t : State} {a : Action} {dc : Bool} (h : ActionOk s a)
    (hphase : phaseOf a = some dc) (ht : ByteOk dc t) (hholds : ∀ b, HoldsByte b s → HoldsByte b t) :
    ActionOk t a := by
  cases a with
  | byte =>
    cases hphase
    obtain ⟨-, hs⟩ := h
    exact ⟨ht, hholds _ hs⟩
  | byteFb => cases hphase; exact ht
  | _ => cases hphase

/-- The invariant in RUN, with the action `a` in progress. -/
structure RunOk (a : Action) (s : State) : Prop where
  run : s.engine.estate = .run
  cur : (opActions s)[s.engine.eidx]? = some a
  dc : s.pins.lcdDc = decide (s.engine.mode = .datap)
  ebit : s.engine.ebit ≤ 8
  sce : s.pins.lcdSceN = sceAfter ((opActions s).take (s.engine.eidx + 1))
  lcdH : s.engine.lcdH = modeAfter ((opActions s).take s.engine.eidx)
  action : ActionOk s a

theorem RunOk.serializerOk {a : Action} {s : State} (h : RunOk a s) : SerializerOk s := by
  obtain ⟨hlt, -⟩ := List.getElem?_eq_some_iff.1 h.cur
  have haction := h.action
  simp only [SerializerOk, h.run, h.cur]
  refine ⟨h.dc, h.ebit, hlt, h.sce, h.lcdH, ?_⟩
  cases a with
  | byte dc b =>
    obtain ⟨⟨hmode, hleft, hsetup⟩, hbyte, hshifted⟩ := haction
    exact ⟨hbyte, hmode, hleft, hshifted, hsetup⟩
  | byteFb i =>
    obtain ⟨hmode, hleft, hsetup⟩ := haction
    exact ⟨hmode, hleft, hsetup⟩
  | _ => exact haction

theorem runOk_of_serializerOk {s : State} (h : SerializerOk s) (hrun : s.engine.estate = .run) : ∃ a, RunOk a s := by
  simp only [SerializerOk, hrun] at h
  obtain ⟨hdc, hebit, hlt, hsce, hmode, haction⟩ := h
  have hcur := List.getElem?_eq_getElem hlt
  rw [hcur] at haction
  refine ⟨_, hrun, hcur, hdc, hebit, hsce, hmode, ?_⟩
  cases ha : (opActions s)[s.engine.eidx] with
  | byte dc b =>
    rw [ha] at haction
    obtain ⟨hbyte, hmode, hleft, hshifted, hsetup⟩ := haction
    exact ⟨⟨hmode, hleft, hsetup⟩, hbyte, hshifted⟩
  | byteFb i =>
    rw [ha] at haction
    obtain ⟨hmode, hleft, hsetup⟩ := haction
    exact ⟨hmode, hleft, hsetup⟩
  | _ => rw [ha] at haction; exact haction

/-! ## The lists -/

/-- The level of bus-select after one action. -/
def sceNext (l : Bool) : Action → Bool
  | .sce l' => l'
  | _ => l

theorem sceAfter_concat (as : List Action) (a : Action) : sceAfter (as ++ [a]) = sceNext (sceAfter as) a := by
  rw [sceAfter, List.foldl_append]
  cases a <;> rfl

theorem modeAfter_concat (as : List Action) (a : Action) : modeAfter (as ++ [a]) = modeNext (modeAfter as) a := by
  rw [modeAfter_eq_foldl, List.foldl_concat, ← modeAfter_eq_foldl]

theorem take_succ_of_cur {as : List Action} {n : Nat} {a : Action} (h : as[n]? = some a) :
    as.take (n + 1) = as.take n ++ [a] := by
  rw [List.take_add_one, h]
  rfl

/-- Every byte of the list is sent with bus-select low, whose level before the list is `l` (41_lcd_protocol.md R181). -/
def framed : Bool → List Action → Bool
  | _, [] => true
  | l, a :: as => !(l && (phaseOf a).isSome) && framed (sceNext l a) as

theorem low_of_framed {l : Bool} {as : List Action} (h : framed l as = true) {n : Nat} {a : Action}
    {dc : Bool} (hn : as[n]? = some a) (hphase : phaseOf a = some dc) : (as.take n).foldl sceNext l = false := by
  induction as generalizing l n with
  | nil => simp at hn
  | cons a' as ih =>
    obtain ⟨hfirst, hrest⟩ := Bool.and_eq_true_iff.1 h
    cases n with
    | zero =>
      cases hn
      simpa [hphase] using hfirst
    | succ n => exact ih hrest hn

theorem framed_of_pixelActions (l : Bool) {as : List Action} (has : ∀ a ∈ as, isPixelAction a = true) :
    framed l as = true := by
  induction as with
  | nil => rfl
  | cons a as ih =>
    obtain ⟨ha, hrest⟩ := List.forall_mem_cons.1 has
    cases a with
    | fbrmw | fbrd | fbz => simp [framed, phaseOf, sceNext, ih hrest]
    | _ => cases ha

theorem setpixActions_pixel (r : BitVec 2) (x y : BitVec 12) (c : BitVec 1) :
    ∀ a ∈ setpixActions r x y c, isPixelAction a = true := by
  intro a ha
  unfold setpixActions at ha
  split at ha
  · obtain rfl := List.mem_singleton.1 ha
    rfl
  · cases ha

theorem framed_data (is : List Nat) : framed false (is.map .byteFb ++ [.sce true]) = true := by
  induction is with
  | nil => rfl
  | cons i is ih => exact ih

/-- The address bytes and the data bytes of a FLUSH stand in one frame (41_lcd_protocol.md R184). -/
theorem framed_flush (is : List Nat) :
    framed true ([.sce false, .byte false 0x40#8, .byte false 0x80#8] ++ is.map .byteFb ++ [.sce true]) = true :=
  framed_data is

theorem framed_actions (p : Params) (op : BitVec 4) (args : BitVec 28) (r : BitVec 2) :
    framed true (actions p op args r) = true :=
  actions_forall (P := fun as => framed true as = true)
    (fun _ _ _ _ => framed_of_pixelActions true (setpixActions_pixel _ _ _ _)) (fun _ _ _ => rfl)
    (framed_of_pixelActions true clearActions_pixel) (framed_flush _) (fun _ _ _ => rfl) (fun _ => rfl)
    (fun _ => rfl) (fun _ => rfl) rfl p op args r

/-- Bus-select is low at every byte (41_lcd_protocol.md R181, R199). -/
theorem RunOk.sce_low {a : Action} {s : State} {dc : Bool} (h : RunOk a s) (hphase : phaseOf a = some dc) :
    s.pins.lcdSceN = false := by
  have hbefore : sceAfter ((opActions s).take s.engine.eidx) = false :=
    low_of_framed (framed_actions _ _ _ _) h.cur hphase
  rw [h.sce, take_succ_of_cur h.cur, sceAfter_concat, hbefore]
  cases a with
  | byte | byteFb => rfl
  | _ => cases hphase

/-! ## The start of an action -/

theorem idleOk_finishOp {s : State} (h : BetweenActions s) (hdone : (opActions s).drop s.engine.eidx = []) :
    IdleOk (finishOp s) := by
  have hall : (opActions s).take s.engine.eidx = opActions s := List.take_of_length_le (List.drop_eq_nil_iff.1 hdone)
  obtain ⟨hemits, hsce⟩ := actions_idle s.params s.engine.eop s.engine.eargs s.engine.erot
  exact
    { idle := rfl
      dc := h.dc
      ebit := h.ebit
      sce := by rw [← hsce]; exact h.sce.trans (congrArg sceAfter hall)
      sclk := h.sclk
      lcdH := by
        rw [← hemits.foldl_modeNext, ← modeAfter_eq_foldl]
        exact h.lcdH.trans (congrArg modeAfter hall) }

/-- A byte that starts has its phase on `lcd_dc`, and all eight bits to send. -/
theorem startByte_byteOk (dc : Bool) (b : Byte) {s : State} (hsclk : s.pins.lcdSclk = false) :
    ByteOk dc (startByte dc b s) ∧ HoldsByte b (startByte dc b s) := by
  by_cases hmode : s.engine.mode = wantMode dc
  · rw [startByte_same b hmode]
    exact ⟨⟨hmode, by simp, by simp⟩, rfl, fun _ => rfl⟩
  · rw [startByte_other b hmode]
    exact ⟨⟨rfl, by simp, fun _ => ⟨rfl, hsclk⟩⟩, rfl, by simp⟩

theorem decide_wantMode (dc : Bool) : decide (wantMode dc = .datap) = dc := by
  cases dc <;> rfl

/-- Its phase on `lcd_dc` agrees with the mode flag (R183). -/
theorem startByte_dc (dc : Bool) (b : Byte) {s : State} (hdc : s.pins.lcdDc = decide (s.engine.mode = .datap)) :
    (startByte dc b s).pins.lcdDc = decide ((startByte dc b s).engine.mode = .datap) := by
  by_cases hmode : s.engine.mode = wantMode dc
  · rw [startByte_same b hmode]; exact hdc
  · rw [startByte_other b hmode]; exact (decide_wantMode dc).symm

/-- What the start of a byte leaves alone, but for the bit count. -/
structure ByteStarts (s t : State) : Prop where
  run : t.engine.estate = s.engine.estate
  eidx : t.engine.eidx = s.engine.eidx
  list : opActions t = opActions s
  ebit : t.engine.ebit = 8
  lcdH : t.engine.lcdH = s.engine.lcdH
  sce : t.pins.lcdSceN = s.pins.lcdSceN
  sclk : t.pins.lcdSclk = s.pins.lcdSclk

theorem byteStarts (dc : Bool) (b : Byte) (s : State) : ByteStarts s (startByte dc b s) := by
  by_cases hmode : s.engine.mode = wantMode dc
  · rw [startByte_same b hmode]; exact ⟨rfl, rfl, rfl, rfl, rfl, rfl, rfl⟩
  · rw [startByte_other b hmode]; exact ⟨rfl, rfl, rfl, rfl, rfl, rfl, rfl⟩

/-- The invariant holds and `lcd_sclk` is low, as at every start of an action. -/
structure StartsOk (s : State) : Prop where
  ok : SerializerOk s
  sclk : s.pins.lcdSclk = false

/-- An action that starts is in progress. -/
theorem startsOk_startAction {a : Action} {s : State} (h : BetweenActions s)
    (hcur : (opActions s)[s.engine.eidx]? = some a) : StartsOk (startDue (startAction a s)) := by
  have hsce (l : Bool) (hl : l = sceNext s.pins.lcdSceN a) :
      l = sceAfter ((opActions s).take (s.engine.eidx + 1)) := by
    rw [take_succ_of_cur hcur, sceAfter_concat, ← h.sce, hl]
  have hbyte {dc : Bool} {b : Byte} (hnext : sceNext s.pins.lcdSceN a = s.pins.lcdSceN)
      (haction : ActionOk (startByte dc b s) a) : StartsOk (startByte dc b s) := by
    have hstarts := byteStarts dc b s
    refine ⟨RunOk.serializerOk (a := a) ⟨hstarts.run.trans h.run, ?_, startByte_dc dc b h.dc, hstarts.ebit.le, ?_, ?_,
      haction⟩, hstarts.sclk.trans h.sclk⟩
    · rw [hstarts.list, hstarts.eidx, hcur]
    · rw [hstarts.list, hstarts.eidx, hstarts.sce]; exact hsce _ hnext.symm
    · rw [hstarts.list, hstarts.eidx, hstarts.lcdH]; exact h.lcdH
  cases a with
  | byte dc b => exact hbyte rfl (startByte_byteOk dc b h.sclk)
  | byteFb i =>
    obtain ⟨hok, -⟩ := startByte_byteOk true (fbRead s i) h.sclk
    exact hbyte rfl hok
  | rst | wait | sce | fbrmw | fbrd | fbz =>
    exact ⟨RunOk.serializerOk ⟨h.run, hcur, h.dc, h.ebit, hsce _ rfl, h.lcdH, h.sclk⟩, h.sclk⟩

/-- A wait of no time changes nothing of the bus. -/
theorem BetweenActions.skip {s : State} (h : BetweenActions s)
    (hcur : (opActions s)[s.engine.eidx]? = some (.wait 0)) :
    BetweenActions (s.withEngine { s.engine with eidx := s.engine.eidx + 1 }) where
  run := h.run
  dc := h.dc
  ebit := h.ebit
  sce := by
    change s.pins.lcdSceN = sceAfter ((opActions s).take (s.engine.eidx + 1))
    rw [take_succ_of_cur hcur, sceAfter_concat, ← h.sce]
    rfl
  sclk := h.sclk
  lcdH := by
    change s.engine.lcdH = modeAfter ((opActions s).take (s.engine.eidx + 1))
    rw [take_succ_of_cur hcur, modeAfter_concat, ← h.lcdH]
    rfl

/-- The rest of the list starts, or the op completes. -/
theorem startsOk_startList {as : List Action} {s : State} (h : BetweenActions s)
    (hrest : (opActions s).drop s.engine.eidx = as) : StartsOk (startList as s) := by
  induction as generalizing s with
  | nil =>
    have hidle := idleOk_finishOp h hrest
    exact ⟨hidle.serializerOk, hidle.sclk⟩
  | cons a as ih =>
    have hcur : (opActions s)[s.engine.eidx]? = some a := by rw [← List.head?_drop, hrest]; rfl
    by_cases ha : a = .wait 0
    · subst ha
      rw [startList_wait_zero]
      refine ih (h.skip hcur) ?_
      change (opActions s).drop (s.engine.eidx + 1) = as
      rw [← List.drop_drop, hrest]
      rfl
    · rw [startList_cons ha]
      exact startsOk_startAction h hcur

/-! ## An edge of the engine -/

/-- After an edge from `s` the invariant holds, and `lcd_sclk` is high only with bus-select low and `lcd_dc` as it
was. -/
structure EdgeOk (s t : State) : Prop where
  ok : SerializerOk t
  high : t.pins.lcdSclk = true → t.pins.lcdSceN = false ∧ t.pins.lcdDc = s.pins.lcdDc

theorem StartsOk.edgeOk {t : State} (h : StartsOk t) (s : State) : EdgeOk s t :=
  ⟨h.ok, fun hhigh => absurd (h.sclk.symm.trans hhigh) Bool.false_ne_true⟩

/-- The rest of the list starts at an edge. -/
theorem BetweenActions.edgeOk {as : List Action} {t : State} (h : BetweenActions t)
    (hrest : (opActions t).drop t.engine.eidx = as) (s : State) : EdgeOk s (startList as t) :=
  (startsOk_startList h hrest).edgeOk s

/-- An action is complete: the next one is about to start. -/
theorem RunOk.betweenActions {a : Action} {s t : State} (h : RunOk a s) (hlist : opActions t = opActions s)
    (hrun : t.engine.estate = s.engine.estate) (hidx : t.engine.eidx = s.engine.eidx + 1)
    (hphase : t.engine.mode = s.engine.mode) (hdc : t.pins.lcdDc = s.pins.lcdDc) (hbit : t.engine.ebit ≤ 8)
    (hsce : t.pins.lcdSceN = s.pins.lcdSceN) (hsclk : t.pins.lcdSclk = false)
    (hmode : t.engine.lcdH = modeNext s.engine.lcdH a) : BetweenActions t where
  run := hrun.trans h.run
  dc := by rw [hphase, hdc]; exact h.dc
  ebit := hbit
  sce := by rw [hlist, hidx, hsce]; exact h.sce
  sclk := hsclk
  lcdH := by rw [hlist, hidx, hmode, h.lcdH, take_succ_of_cur h.cur, modeAfter_concat]

/-- An edge inside a byte: its count, its shifter and the lines of its bits. -/
theorem RunOk.inByte {a : Action} {s : State} {dc : Bool} (h : RunOk a s)
    (hphase : phaseOf a = some dc) {n k : Nat} {sh : Byte} {setup clk : Bool} (sdin : Bool) (hleft : 1 ≤ k)
    (hbit : k ≤ 8) (hsetup : setup = true → k = 8 ∧ clk = false)
    (hshift : setup = false → sh = s.engine.ebyte ∨ s.engine.esetup = false ∧ sh = s.engine.eshift) :
    RunOk a { s with
      engine := { s.engine with ecnt := n, ebit := k, eshift := sh, esetup := setup }
      pins := { s.pins with lcdSclk := clk, lcdSdin := sdin } } where
  run := h.run
  cur := h.cur
  dc := h.dc
  ebit := hbit
  sce := h.sce
  lcdH := h.lcdH
  action := by
    obtain ⟨hmode, -, -⟩ := h.action.byteOk hphase
    refine h.action.of_byteOk hphase ⟨hmode, hleft, hsetup⟩ fun b' hb => ⟨hb.byte, fun hs => ?_⟩
    rcases hshift hs with hsh | ⟨hs', hsh⟩
    · exact hsh.trans hb.byte
    · exact hsh.trans (hb.shifted hs')

/-- Such an edge is one of the invariant. -/
theorem RunOk.edgeOk_inByte {a : Action} {s t : State} {dc : Bool} (ht : RunOk a t)
    (hphase : phaseOf a = some dc) (hdc : t.pins.lcdDc = s.pins.lcdDc) : EdgeOk s t :=
  ⟨ht.serializerOk, fun _ => ⟨ht.sce_low hphase, hdc⟩⟩

/-- The byte in the shifter sets the mode that its action sets. -/
theorem RunOk.modeNext_eshift {a : Action} {s : State} {dc : Bool} (h : RunOk a s)
    (hphase : phaseOf a = some dc) (hset : s.engine.esetup = false) :
    modeNext s.engine.lcdH (.byte dc s.engine.eshift) = modeNext s.engine.lcdH a := by
  have haction := h.action
  cases a with
  | byte =>
    cases hphase
    obtain ⟨-, hholds⟩ := haction
    rw [hholds.shifted hset]
  | byteFb => cases hphase; rfl
  | _ => cases hphase

/-- An edge while a byte is sent. -/
theorem RunOk.engineStage_byte {a : Action} {s : State} {dc : Bool} (h : RunOk a s)
    (hphase : phaseOf a = some dc) : GoesOnTo (EdgeOk s) (engineStage exec s) := by
  obtain ⟨-, hleft, hsetup⟩ := h.action.byteOk hphase
  have hshift : s.engine.esetup = false → s.engine.eshift = s.engine.ebyte ∨
    s.engine.esetup = false ∧ s.engine.eshift = s.engine.eshift := fun hs => .inr ⟨hs, rfl⟩
  by_cases hcnt : 1 < s.engine.ecnt
  · exact ⟨_, engineStage_waits h.cur hcnt,
      (h.inByte hphase s.pins.lcdSdin hleft h.ebit hsetup hshift).edgeOk_inByte hphase rfl⟩
  have hcnt := Nat.le_of_not_lt hcnt
  cases hset : s.engine.esetup with
  | true =>
    exact ⟨_, engineStage_loads h.cur hphase hcnt hset,
      (h.inByte hphase _ hleft h.ebit (by simp) fun _ => .inl rfl).edgeOk_inByte hphase rfl⟩
  | false =>
    cases hclk : s.pins.lcdSclk with
    | false =>
      exact ⟨_, engineStage_rises h.cur hphase hcnt hset hclk,
        (h.inByte hphase _ hleft h.ebit (by simp [hset]) hshift).edgeOk_inByte hphase rfl⟩
    | true =>
      by_cases hlast : s.engine.ebit ≤ 1
      · refine ⟨_, engineStage_sent h.cur hphase hcnt hset hclk hlast, BetweenActions.edgeOk ?_ ?_ s⟩
        · exact h.betweenActions rfl rfl rfl rfl rfl (Nat.zero_le 8) rfl rfl (h.modeNext_eshift hphase hset)
        · rfl
      · have hmore := Nat.lt_of_not_le hlast
        exact ⟨_, engineStage_falls h.cur hphase hcnt hset hclk hmore,
          (h.inByte hphase _ (Nat.le_sub_one_of_lt hmore) ((Nat.sub_le _ _).trans h.ebit) (by simp [hset])
            hshift).edgeOk_inByte hphase rfl⟩

/-- An edge while another action is in progress. -/
theorem RunOk.engineStage_not_byte {a : Action} {s : State} (h : RunOk a s) (hphase : phaseOf a = none) :
    GoesOnTo (EdgeOk s) (engineStage exec s) := by
  have hlow := h.action.sclk_low hphase
  have hmode : s.engine.lcdH = modeNext s.engine.lcdH a := by
    cases a with
    | byte | byteFb => cases hphase
    | _ => rfl
  by_cases hcnt : 1 < s.engine.ecnt
  · refine ⟨_, engineStage_waits h.cur hcnt, StartsOk.edgeOk ⟨RunOk.serializerOk (a := a) ?_, ?_⟩ s⟩
    · refine ⟨h.run, h.cur, h.dc, h.ebit, h.sce, h.lcdH, ?_⟩
      cases a with
      | byte | byteFb => cases hphase
      | _ => exact hlow
    · exact hlow
  · obtain ⟨f, r, hend⟩ := engineStage_completes h.cur hphase (Nat.le_of_not_lt hcnt)
    refine ⟨_, hend, BetweenActions.edgeOk ?_ ?_ s⟩
    · exact h.betweenActions rfl rfl rfl rfl rfl h.ebit rfl hlow hmode
    · rfl

/-- An edge of the op in progress. -/
theorem RunOk.engineStage_edgeOk {a : Action} {s : State} (h : RunOk a s) :
    GoesOnTo (EdgeOk s) (engineStage exec s) := by
  cases hphase : phaseOf a with
  | some dc => exact h.engineStage_byte hphase
  | none => exact h.engineStage_not_byte hphase

/-! ## The access presented -/

/-- The host's part of a clk edge leaves the serializer alone, or starts an op from IDLE. -/
def HostStarts (s t : State) : Prop :=
  SameSerializer s t ∨
    s.engine.estate = .idle ∧ ∃ w op args, SameSerializer s w ∧ SameSerializer (acceptOp op args w) t

theorem HostStarts.trans_same {s t u : State} (h : HostStarts s t) (k : SameSerializer t u) : HostStarts s u := by
  rcases h with h | ⟨hidle, w, op, args, hw, ht⟩
  · exact .inl (h.trans k)
  · exact .inr ⟨hidle, w, op, args, hw, ht.trans k⟩

/-- What leaves the engine, its pins and the parameters as they were. -/
theorem hostStarts_next {s t : State} (hp : t.params = s.params) (he : t.engine = s.engine) (hpins : t.pins = s.pins) :
    GoesOnTo (HostStarts s) (.next t) :=
  goesOnTo_next (.inl ⟨hp, he, hpins⟩)

theorem idle_of_not_cmdHeld {s : State} (h : cmdHeld s = false) : s.engine.estate = .idle := by
  obtain ⟨hbusy, -⟩ := Bool.or_eq_false_iff.1 h
  obtain ⟨hidle, -⟩ := busy_eq_false.1 hbusy
  exact hidle

/-- A CMD write starts its op only when it is not held (44_host_registers.md R323). -/
theorem cmdWrite_hostStarts {accept : State → State} {s w : State} {op : BitVec 4} {args : BitVec 28}
    (hw : SameSerializer s w) (h : SameSerializer (acceptOp op args w) (accept s)) :
    GoesOnTo (HostStarts s) (cmdWrite accept s) := by
  rcases cmdWrite_cases accept s with ⟨-, hheld⟩ | ⟨hfree, hdone⟩
  · exact ⟨_, hheld, .inl ⟨rfl, rfl, rfl⟩⟩
  · exact ⟨_, hdone, .inr ⟨idle_of_not_cmdHeld hfree, w, op, args, hw, h.trans ⟨rfl, rfl, rfl⟩⟩⟩

theorem execInit_hostStarts (contrast bias : BitVec 8) (rsv : BitVec 12) (s : State) :
    GoesOnTo (HostStarts s) (execInit contrast bias rsv s) :=
  cmdWrite_hostStarts (w := s.withRegs { s.regs with initDone := false }) ⟨rfl, rfl, rfl⟩ (.refl _)

/-- A SLEEP is an op with no actions to the engine (43_power.md R282). -/
theorem execSleep_hostStarts (dur : BitVec 24) (deep : BitVec 1) (rsv : BitVec 3) (s : State) :
    GoesOnTo (HostStarts s) (execSleep dur deep rsv s) := by
  unfold execSleep
  split_ifs with hslp hack hheld
  · exact hostStarts_next rfl rfl rfl
  · exact hostStarts_next rfl rfl rfl
  · exact hostStarts_next rfl rfl rfl
  · refine goesOnTo_next (.inr ⟨idle_of_not_cmdHeld (Bool.eq_false_of_not_eq_true hheld), s, 0x9#4,
      rsv ++ deep ++ dur, .refl s, ?_⟩)
    rw [acceptOp_of_no_actions (actions_sleep _ _ _), acceptSleep_eq]
    exact ⟨rfl, rfl, rfl⟩

theorem reservedWrite_hostStarts (op : BitVec 4) (arg : BitVec 28) (s : State) :
    GoesOnTo (HostStarts s) (reservedWrite op arg s) :=
  cmdWrite_hostStarts (w := s) (op := op) (args := arg) (.refl s) ⟨rfl, rfl, rfl⟩

theorem exec_cmd_hostStarts {i : Instr} (hi : i.kind = .cmd) (s : State) : GoesOnTo (HostStarts s) (exec i s) := by
  cases i with
  | sleep dur deep rsv => exact execSleep_hostStarts dur deep rsv s
  | init contrast bias rsv => exact execInit_hostStarts contrast bias rsv s
  | nop | setpix | getpix | clear | flush | setcontrast | dispctl | settempco =>
    exact cmdWrite_hostStarts (.refl s) (.refl _)
  | rsvdA | rsvdB | rsvdC | rsvdD | rsvdE | rsvdF =>
    exact reservedWrite_hostStarts _ _ s
  | _ => cases hi

theorem execRdResult_hostStarts (s : State) : GoesOnTo (HostStarts s) (execRdResult s) := by
  unfold execRdResult
  split_ifs <;> exact hostStarts_next rfl rfl rfl

theorem popEvent_sameSerializer (s : State) : SameSerializer s (popEvent s) := by
  cases hempty : emptyC s with
  | true => rw [popEvent_empty hempty]; exact ⟨rfl, rfl, rfl⟩
  | false => rw [popEvent_some hempty]; exact ⟨rfl, rfl, rfl⟩

theorem exec_access_hostStarts {i : Instr} (hi : i.kind = .access) (s : State) :
    GoesOnTo (HostStarts s) (exec i s) := by
  cases i with
  | wrCmd w =>
    change GoesOnTo (HostStarts s) (execWrCmd w s)
    rw [execWrCmd_eq_exec_decodeCmd]
    exact exec_cmd_hostStarts (decodeCmd_kind w) s
  | rdResult => exact execRdResult_hostStarts s
  | rdEvqPop => exact goesOnTo_next (.inl (popEvent_sameSerializer s))
  | rdId | wrId | rdCtrl | wrCtrl | rdStatus | wrStatus | rdCmd | wrResult | wrEvqPop | rdEvqStat | wrEvqStat
  | rdPwrStat | wrPwrStat | rdRsvd20 | rdRsvd40 | rdRsvd80 | wrRsvd20 | wrRsvd40 | wrRsvd80 | busErr =>
    exact hostStarts_next rfl rfl rfl
  | _ => cases hi

theorem retire_sameSerializer (s : State) : SameSerializer s (retire s) := by
  unfold retire
  split_ifs <;> exact ⟨rfl, rfl, rfl⟩

theorem busStage_hostStarts (s : State) : GoesOnTo (HostStarts s) (busStage exec s) := by
  unfold busStage
  split
  · exact goesOnTo_next (.inl (.refl s))
  · next i hi =>
    obtain ⟨r, -, rfl⟩ := Option.map_eq_some_iff.1 hi
    exact (exec_access_hostStarts (decodeReq_kind r) s).andThen fun t ht =>
      goesOnTo_next (ht.trans_same (retire_sameSerializer t))

theorem IdleOk.of_same {s t : State} (h : IdleOk s) (k : SameSerializer s t) : IdleOk t :=
  idleOk_of_serializerOk (k.serializerOk h.serializerOk) ((congrArg (·.estate) k.engine).trans h.idle)

/-- The first action of an accepted op starts with the bus idle. -/
theorem IdleOk.startsOk_acceptOp {s : State} (h : IdleOk s) (op : BitVec 4) (args : BitVec 28) :
    StartsOk (acceptOp op args s) := by
  by_cases hnil : actions s.params op args s.regs.ctrlRot = []
  · rw [acceptOp_of_no_actions hnil]
    exact ⟨IdleOk.serializerOk ⟨h.idle, h.dc, h.ebit, h.sce, h.sclk, h.lcdH⟩, h.sclk⟩
  · rw [acceptOp_eq_startList rfl hnil]
    exact startsOk_startList ⟨rfl, h.dc, h.ebit, h.sce, h.sclk, h.lcdH⟩ rfl

/-! ## The step -/

theorem EdgeOk.of_same {s t : State} (hs : SerializerOk s) (h : SameSerializer s t) : EdgeOk s t := by
  refine ⟨h.serializerOk hs, ?_⟩
  rw [h.pins]
  intro hhigh
  refine ⟨?_, rfl⟩
  cases hstate : s.engine.estate with
  | idle => exact absurd ((idleOk_of_serializerOk hs hstate).sclk.symm.trans hhigh) Bool.false_ne_true
  | run =>
    obtain ⟨a, hrun⟩ := runOk_of_serializerOk hs hstate
    cases hphase : phaseOf a with
    | some dc => exact hrun.sce_low hphase
    | none => exact absurd ((hrun.action.sclk_low hphase).symm.trans hhigh) Bool.false_ne_true

theorem EdgeOk.trans_same {s t u : State} (h : EdgeOk s t) (k : SameSerializer t u) : EdgeOk s u :=
  ⟨k.serializerOk h.ok, by rw [k.pins]; exact h.high⟩

theorem SameSerializer.trans_edgeOk {s t u : State} (h : SameSerializer s t) (k : EdgeOk t u) : EdgeOk s u :=
  ⟨k.ok, by rw [← h.pins]; exact k.high⟩

/-- In RUN the access leaves the serializer alone. -/
theorem HostStarts.same_of_run {s t : State} (h : HostStarts s t) (hrun : s.engine.estate = .run) :
    SameSerializer s t := by
  rcases h with h | ⟨hidle, -⟩
  · exact h
  · exact absurd (hidle.symm.trans hrun) (by decide)

theorem HostStarts.edgeOk {s t : State} (h : HostStarts s t) (hs : SerializerOk s) : EdgeOk s t := by
  rcases h with h | ⟨hidle, w, op, args, hw, ht⟩
  · exact .of_same hs h
  · exact (StartsOk.edgeOk (((idleOk_of_serializerOk hs hidle).of_same hw).startsOk_acceptOp op args) s).trans_same ht

theorem clkEdge_edgeOk (c : ClkIn) {s : State} (hs : SerializerOk s) : GoesOnTo (EdgeOk s) (clkEdge exec c s) := by
  cases hrst : s.rst.clkInRst with
  | true => exact ⟨issueAccess c.req (clkResetEdge c s), by simp [clkEdge, hrst], .of_same hs ⟨rfl, rfl, rfl⟩⟩
  | false =>
    have hissue : SameSerializer s (issueAccess c.req s) := ⟨rfl, rfl, rfl⟩
    have hs' : SerializerOk (issueAccess c.req s) := hissue.serializerOk hs
    rw [clkEdge_eq c hrst]
    refine (busStage_hostStarts _).andThen fun t ht => ?_
    have hengine : GoesOnTo (EdgeOk s) (if s.engine.estate = .run then engineStage exec t else .next t) := by
      split_ifs with hrun
      · have hsame := hissue.trans (ht.same_of_run hrun)
        have hrun' : t.engine.estate = .run := (congrArg (·.estate) hsame.engine).trans hrun
        obtain ⟨a, hok⟩ := runOk_of_serializerOk (hsame.serializerOk hs) hrun'
        exact hok.engineStage_edgeOk.imp fun _ h => h.imp id hsame.trans_edgeOk
      · exact goesOnTo_next (hissue.trans_edgeOk (ht.edgeOk hs'))
    exact hengine.andThen fun u hu => goesOnTo_next (hu.trans_same ⟨rfl, rfl, rfl⟩)

theorem aonEdge_sameSerializer (a : AonIn) (s : State) : GoesOnTo (SameSerializer s) (aonEdge exec a s) := by
  cases hrst : s.rst.aonInRst with
  | true => exact ⟨aonResetEdge a s, by simp [aonEdge, hrst], rfl, rfl, rfl⟩
  | false =>
    obtain ⟨f, p, c, hnext⟩ := aonEdge_stages a hrst
    obtain ⟨p', c', hcapture⟩ := capture_only a s { s with fifo := f, producer := p, consumer := c }
    obtain ⟨w, x, k, hpower, -⟩ := powerEdge_only a (wakeSources a s)
      { s with fifo := f, producer := p', consumer := c' }
    refine ⟨_, hnext, ?_⟩
    rw [aonRest, hcapture, hpower]
    exact ⟨rfl, rfl, rfl⟩

theorem applyReset_idleOk (s : State) : IdleOk (applyReset s) := ⟨rfl, rfl, Nat.zero_le 8, rfl, rfl, rfl⟩

theorem tickStep_edgeOk (k : Tick) {s : State} (hs : SerializerOk s) : GoesOnTo (EdgeOk s) (tickStep exec k s) := by
  cases k with
  | clk c => exact clkEdge_edgeOk c hs
  | aon a => exact (aonEdge_sameSerializer a s).imp fun _ h => h.imp id (.of_same hs)
  | resetAssert => exact goesOnTo_next (StartsOk.edgeOk ⟨(applyReset_idleOk s).serializerOk, rfl⟩ s)
  | resetRelease => exact goesOnTo_next (.of_same hs ⟨rfl, rfl, rfl⟩)

theorem step_edgeOk {s t : State} (hs : SerializerOk s) (h : step s = .next t) : EdgeOk s t := by
  obtain ⟨e, hnext, -⟩ := nextTick_snd_eq s
  have hsame : SameSerializer s (nextTick s).2 := by rw [hnext]; exact ⟨rfl, rfl, rfl⟩
  exact hsame.trans_edgeOk ((tickStep_edgeOk (nextTick s).1 (hsame.serializerOk hs)).of_eq_next h)

/-- Settles O57: each kind of tick keeps the invariant. -/
theorem stepKeepsSerializer : Obligations.StepKeepsSerializer := fun _ _ hs h => (step_edgeOk hs h).ok

/-- Settles O58: an edge that leaves `lcd_sclk` high leaves bus-select low and `lcd_dc` as it was. -/
theorem dcIsStableAroundClockEdges : Obligations.DcIsStableAroundClockEdges := by
  intro s t hs h
  have hedge := step_edgeOk hs h
  exact ⟨fun _ hhigh => (hedge.high hhigh).1, fun hhigh => (hedge.high hhigh).2⟩

end Sys2Proof.Proofs
end

