-- ==== Sys2Proof/Proofs/DeviceBusRuns.lean ====
section
/-! Runs of the LCD engine as the device sees them: how many edges they take, what is sampled, and what holds before
each edge (10_state.md R33, 41_lcd_protocol.md R180, R182). -/

namespace Sys2Proof.Proofs

open Sys2Proof Sys2Proof.Config Sys2Proof.Machine Sys2Proof.Safety

/-! ## Runs -/

/-- What the device samples at the edge from `s` to `t`: the data line at a rise of `lcd_sclk` with bus-select low. -/
def sampledAt (s t : State) : List (Bool × Bool) :=
  if !s.pins.lcdSclk && t.pins.lcdSclk && !t.pins.lcdSceN then [(t.pins.lcdDc, t.pins.lcdSdin)] else []

/-- From `s` the engine takes `n` edges to `t`, in RUN and with `P` before each, and the device samples `bits`. -/
inductive Shows (P : State → Prop) : Nat → State → List (Bool × Bool) → State → Prop where
  | refl (s : State) : Shows P 0 s [] s
  | edge {s t u : State} {n : Nat} {bits : List (Bool × Bool)} (hrun : s.engine.estate = .run) (hP : P s)
      (hstage : engineStage exec s = .next t) (rest : Shows P n t bits u) :
      Shows P (n + 1) s (sampledAt s t ++ bits) u

section
variable {P Q : State → Prop} {s t u : State} {n k : Nat} {bits bits' : List (Bool × Bool)}

theorem Shows.one (hrun : s.engine.estate = .run) (hP : P s) (hstage : engineStage exec s = .next t) :
    Shows P 1 s (sampledAt s t) t := by
  simpa using Shows.edge hrun hP hstage (.refl t)

theorem Shows.trans (h : Shows P n s bits t) (h' : Shows P k t bits' u) : Shows P (n + k) s (bits ++ bits') u := by
  induction h with
  | refl => simpa using h'
  | edge hrun hP hstage _ ih =>
    rw [Nat.add_right_comm, List.append_assoc]
    exact .edge hrun hP hstage (ih h')

theorem Shows.imp (h : Shows P n s bits t) (hPQ : ∀ s, P s → Q s) : Shows Q n s bits t := by
  induction h with
  | refl => exact .refl _
  | edge hrun hP hstage _ ih => exact .edge hrun (hPQ _ hP) hstage ih

theorem Shows.any (h : Shows P n s bits t) : Shows (fun _ => True) n s bits t := h.imp fun _ _ => trivial

/-- The same run, its length written another way. -/
theorem Shows.cast (h : Shows P n s bits t) (hk : n = k) : Shows P k s bits t := hk ▸ h

theorem Shows.engineRun_add (h : Shows P n s bits t) (k : Nat) : engineRun (n + k) s = engineRun k t := by
  induction h with
  | refl => rw [Nat.zero_add]
  | edge hrun _ hstage _ ih => rw [Nat.add_right_comm, engineRun_succ hrun hstage, ih]

theorem Shows.engineRun_eq (h : Shows P n s bits t) : engineRun n s = .next t := h.engineRun_add 0

theorem Shows.before (h : Shows P n s bits t) {m : Nat} (hm : m < n) :
    ∃ v, engineRun m s = .next v ∧ v.engine.estate = .run ∧ P v := by
  induction h generalizing m with
  | refl => exact absurd hm (Nat.not_lt_zero m)
  | edge hrun hP hstage _ ih =>
    cases m with
    | zero => exact ⟨_, rfl, hrun, hP⟩
    | succ m =>
      rw [engineRun_succ hrun hstage]
      exact ih (Nat.lt_of_succ_lt_succ hm)

theorem Shows.sampledBits_eq (h : Shows P n s bits t) : sampledBits n s = bits := by
  induction h with
  | refl => rfl
  | edge hrun _ hstage _ ih => simp only [sampledBits, hrun, hstage, ih, if_true, sampledAt]

theorem Shows.runsToIdle (h : Shows P n s bits t) (hidle : t.engine.estate = .idle) : RunsToIdle n s t :=
  ⟨h.engineRun_eq, hidle, fun _ hm =>
    have ⟨v, hv, hrun, _⟩ := h.before hm
    ⟨v, hv, hrun⟩⟩

end

/-! ## Waits -/

theorem halfT_pos (s : State) : 0 < halfT s := Nat.succ_pos _

/-- The device reset line is at `l`. -/
def RstAt (l : Bool) (s : State) : Prop := s.pins.lcdRstN = l

/-- Nothing is sampled where `lcd_sclk` stays as it is. -/
theorem sampledAt_of_sclk_eq {s t : State} (h : t.pins.lcdSclk = s.pins.lcdSclk) : sampledAt s t = [] := by
  simp [sampledAt, h]

theorem sampledAt_of_low {s t : State} (h : t.pins.lcdSclk = false) : sampledAt s t = [] := by
  simp [sampledAt, h]

/-- An edge at which nothing is sampled. -/
theorem Shows.quiet_edge {P : State → Prop} {s t u : State} {n : Nat} {bits : List (Bool × Bool)}
    (hrun : s.engine.estate = .run) (hP : P s) (hstage : engineStage exec s = .next t) (hquiet : sampledAt s t = [])
    (rest : Shows P n t bits u) : Shows P (n + 1) s bits u := by
  simpa [hquiet] using Shows.edge hrun hP hstage rest

/-- The state with its wait in the last cycle. -/
def lastCycle (s : State) : State := { s with engine := { s.engine with ecnt := 1 } }

/-- A wait of any length goes by. -/
theorem shows_waits {s : State} {a : Action} {l : Bool} {n : Nat} (hrun : s.engine.estate = .run)
    (hcur : (opActions s)[s.engine.eidx]? = some a) (hrst : s.pins.lcdRstN = l) (hcnt : s.engine.ecnt = n + 1) :
    Shows (RstAt l) n s [] (lastCycle s) := by
  induction n generalizing s with
  | zero =>
    have hlast : lastCycle s = s := by rw [lastCycle, ← show s.engine.ecnt = 1 from hcnt]
    rw [hlast]
    exact .refl s
  | succ n ih =>
    have hstage := engineStage_waits hcur (by omega)
    have hrest := ih (s := { s with engine := { s.engine with ecnt := s.engine.ecnt - 1 } }) hrun hcur hrst
      (by simp [hcnt])
    exact .quiet_edge hrun hrst hstage (sampledAt_of_sclk_eq rfl) hrest

/-- A wait ends at its last edge. -/
theorem shows_wait {s t : State} {a : Action} {l : Bool} {n : Nat} (hrun : s.engine.estate = .run)
    (hcur : (opActions s)[s.engine.eidx]? = some a) (hrst : s.pins.lcdRstN = l) (hcnt : s.engine.ecnt = n)
    (hpos : 0 < n) (hend : engineStage exec (lastCycle s) = .next t) :
    Shows (RstAt l) n s (sampledAt s t) t := by
  obtain ⟨k, rfl⟩ := Nat.exists_eq_succ_of_ne_zero hpos.ne'
  have hlast : Shows (RstAt l) 1 (lastCycle s) (sampledAt s t) t := Shows.one hrun hrst hend
  simpa using (shows_waits hrun hcur hrst hcnt).trans hlast

/-! ## The start of a list -/

@[simp] theorem startByte_sclk (dc : Bool) (b : Byte) (s : State) :
    (startByte dc b s).pins.lcdSclk = s.pins.lcdSclk := (byteStarts dc b s).sclk

/-- No action raises or lowers `lcd_sclk` at its start (41_lcd_protocol.md R180, R182). -/
@[simp] theorem startList_sclk (as : List Action) (s : State) : (startList as s).pins.lcdSclk = s.pins.lcdSclk := by
  induction as generalizing s with
  | nil => rfl
  | cons a as ih =>
    by_cases ha : a = .wait 0
    · subst ha
      rw [startList_wait_zero, ih]
      rfl
    · rw [startList_cons ha]
      cases a with
      | byte dc b => exact startByte_sclk dc b s
      | byteFb i => exact startByte_sclk true (fbRead s i) s
      | _ => rfl

/-- A start leaves the action index or moves it past waits of no time. -/
theorem eidx_le_startList (as : List Action) (s : State) : s.engine.eidx ≤ (startList as s).engine.eidx := by
  induction as generalizing s with
  | nil => exact Nat.le_refl _
  | cons a as ih =>
    by_cases ha : a = .wait 0
    · subst ha
      rw [startList_wait_zero]
      exact Nat.le_of_succ_le (ih (s.withEngine { s.engine with eidx := s.engine.eidx + 1 }))
    · rw [startList_cons ha]
      cases a with
      | byte dc b => exact (byteStarts dc b s).eidx.ge
      | byteFb i => exact (byteStarts true (fbRead s i) s).eidx.ge
      | _ => exact Nat.le_refl _

end Sys2Proof.Proofs
end

