-- ==== Sys2Proof/Proofs/ByteShifting.lean ====
section
/-! A byte on the device bus, from the start of its action: the D/C setup, then eight bits, most significant first, a
low half and a high half each (41_lcd_protocol.md R182, R190 to R197; 20_memory.md R95). -/

namespace Sys2Proof.Proofs

open Sys2Proof Sys2Proof.Config Sys2Proof.Machine Sys2Proof.Safety

/-! ## The eight bits -/

/-- `s` at the start of a half of bit `k`, the byte being in the shifter; `clk` says which half. -/
def atBit (s : State) (k : Nat) (clk : Bool) : State :=
  { s with
    engine := { s.engine with ebit := k + 1, ecnt := halfT s }
    pins := { s.pins with lcdSclk := clk, lcdSdin := s.engine.eshift.getLsbD k } }

/-- `s` with its byte complete, the next action about to start. -/
def pastByte (dc : Bool) (s : State) : State :=
  { s with
    engine := { s.engine with
      ebit := 0, ecnt := 0, lcdH := modeNext s.engine.lcdH (.byte dc s.engine.eshift), eidx := s.engine.eidx + 1 }
    pins := { s.pins with lcdSclk := false, lcdSdin := s.engine.eshift.getLsbD 0 } }

section
variable {s : State} {a : Action} {dc l : Bool} (hrun : s.engine.estate = .run)
  (hcur : (opActions s)[s.engine.eidx]? = some a) (hphase : phaseOf a = some dc) (hsetup : s.engine.esetup = false)
  (hrst : s.pins.lcdRstN = l)
include hrun hcur hphase hsetup hrst

/-- The low half of a bit: the device samples it at the end. -/
theorem shows_low (hsce : s.pins.lcdSceN = false) (k : Nat) :
    Shows (RstAt l) (halfT s) (atBit s k false) [(s.pins.lcdDc, s.engine.eshift.getLsbD k)] (atBit s k true) := by
  have hend : engineStage exec (lastCycle (atBit s k false)) = .next (atBit s k true) :=
    engineStage_rises hcur hphase (Nat.le_refl 1) hsetup rfl
  have hsampled : sampledAt (atBit s k false) (atBit s k true) = [(s.pins.lcdDc, s.engine.eshift.getLsbD k)] := by
    simp [sampledAt, atBit, hsce]
  rw [← hsampled]
  exact shows_wait (s := atBit s k false) hrun hcur hrst rfl (halfT_pos s) hend

/-- The high half of a bit that is not the last. -/
theorem shows_high (k : Nat) :
    Shows (RstAt l) (halfT s) (atBit s (k + 1) true) [] (atBit s k false) :=
  shows_wait (s := atBit s (k + 1) true) hrun hcur hrst rfl (halfT_pos s)
    (engineStage_falls hcur hphase (Nat.le_refl 1) hsetup rfl (by simp [lastCycle, atBit]))

/-- The high half of the last bit. -/
theorem shows_last_high :
    Shows (RstAt l) (halfT s) (atBit s 0 true) []
      (startList ((opActions s).drop (s.engine.eidx + 1)) (pastByte dc s)) := by
  have hend : engineStage exec (lastCycle (atBit s 0 true)) =
      .next (startList ((opActions s).drop (s.engine.eidx + 1)) (pastByte dc s)) :=
    engineStage_sent (s := lastCycle (atBit s 0 true)) hcur hphase (Nat.le_refl 1) hsetup rfl (Nat.le_refl 1)
  have hwait := shows_wait (s := atBit s 0 true) hrun hcur hrst rfl (halfT_pos s) hend
  rwa [sampledAt_of_low (startList_sclk _ _)] at hwait

/-- The bits from `k` down to 0. -/
theorem shows_bits (hsce : s.pins.lcdSceN = false) (k : Nat) :
    Shows (RstAt l) (2 * (k + 1) * halfT s) (atBit s k false)
      ((List.range (k + 1)).reverse.map fun j => (s.pins.lcdDc, s.engine.eshift.getLsbD j))
      (startList ((opActions s).drop (s.engine.eidx + 1)) (pastByte dc s)) := by
  have hlow := shows_low hrun hcur hphase hsetup hrst hsce
  induction k with
  | zero =>
    exact ((hlow 0).trans (shows_last_high hrun hcur hphase hsetup hrst)).cast (by omega)
  | succ k ih =>
    rw [List.range_succ, List.reverse_append]
    exact ((hlow (k + 1)).trans ((shows_high hrun hcur hphase hsetup hrst k).trans ih)).cast (by ring)

end

/-! ## The whole byte -/

/-- `s` with the byte `b` in the shifter and its phase on `lcd_dc`. -/
def loaded (dc : Bool) (b : Byte) (s : State) : State :=
  { s with
    engine := { s.engine with ebyte := b, eshift := b, esetup := false, mode := wantMode dc }
    pins := { s.pins with lcdDc := dc } }

/-- A byte in the phase of the byte before it starts with its first bit. -/
theorem startByte_eq_atBit {dc : Bool} {s : State} (b : Byte) (hmode : s.engine.mode = wantMode dc)
    (hsclk : s.pins.lcdSclk = false) (hdc : s.pins.lcdDc = decide (s.engine.mode = .datap)) :
    startByte dc b s = atBit (loaded dc b s) 7 false := by
  rw [hmode, decide_wantMode] at hdc
  rw [startByte_same b hmode]
  simp [atBit, loaded, halfT, hmode, hdc, hsclk]

/-- `s` at the start of the D/C setup of the byte `b`. -/
def inSetup (dc : Bool) (b : Byte) (s : State) : State :=
  { s with
    engine := { s.engine with ebyte := b, mode := wantMode dc, ebit := 8, esetup := true, ecnt := halfT s }
    pins := { s.pins with lcdDc := dc } }

theorem startByte_eq_inSetup {dc : Bool} {s : State} (b : Byte) (hmode : s.engine.mode ≠ wantMode dc) :
    startByte dc b s = inSetup dc b s := startByte_other b hmode

/-- The D/C setup of a byte in the other phase, `T` edges, and the byte starts with its first bit. -/
theorem shows_setup {s : State} {a : Action} {dc : Bool} (b : Byte) (hrun : s.engine.estate = .run)
    (hcur : (opActions s)[s.engine.eidx]? = some a) (hphase : phaseOf a = some dc)
    (hmode : s.engine.mode ≠ wantMode dc) (hsclk : s.pins.lcdSclk = false) :
    Shows (RstAt s.pins.lcdRstN) (halfT s) (startByte dc b s) [] (atBit (loaded dc b s) 7 false) := by
  have hend : engineStage exec (lastCycle (inSetup dc b s)) = .next (atBit (loaded dc b s) 7 false) := by
    rw [engineStage_loads (s := lastCycle (inSetup dc b s)) hcur hphase (Nat.le_refl 1) rfl]
    simp [atBit, loaded, lastCycle, inSetup, halfT, hsclk]
  have hwait := shows_wait (s := inSetup dc b s) (l := s.pins.lcdRstN) hrun hcur rfl rfl (halfT_pos s) hend
  rw [startByte_eq_inSetup b hmode]
  rwa [sampledAt_of_low (t := atBit (loaded dc b s) 7 false) rfl] at hwait

/-- A byte takes `16·T` edges, and `T` more for the D/C setup (R182, 70_reset_and_hazards.md R420). -/
theorem shows_byte {s : State} {a : Action} {dc : Bool} (b : Byte) (hrun : s.engine.estate = .run)
    (hcur : (opActions s)[s.engine.eidx]? = some a) (hphase : phaseOf a = some dc) (hsclk : s.pins.lcdSclk = false)
    (hsce : s.pins.lcdSceN = false) (hdc : s.pins.lcdDc = decide (s.engine.mode = .datap)) :
    Shows (RstAt s.pins.lcdRstN) (16 * halfT s + setupCycles s (wantMode dc)) (startByte dc b s) (byteBits dc b)
      (startList ((opActions s).drop (s.engine.eidx + 1)) (pastByte dc (loaded dc b s))) := by
  have hbits := shows_bits (s := loaded dc b s) (l := s.pins.lcdRstN) hrun hcur hphase rfl rfl hsce 7
  by_cases hmode : s.engine.mode = wantMode dc
  · rw [startByte_eq_atBit b hmode hsclk hdc, setupCycles, if_pos hmode]
    exact hbits
  · rw [setupCycles, if_neg hmode, Nat.add_comm]
    exact (shows_setup b hrun hcur hphase hmode hsclk).trans hbits

/-- Settles O34: the byte goes out, and what starts after it leaves `lcd_sclk` low. -/
theorem byteShiftsOutMsbFirst : Obligations.ByteShiftsOutMsbFirst := by
  intro s t dc b b' hrun hcur hsclk hsce hdc ht
  subst ht
  have hbyte := shows_byte b hrun hcur rfl hsclk hsce hdc
  refine ⟨_, hbyte.engineRun_eq, hbyte.sampledBits_eq, ?_, ?_⟩
  · exact eidx_le_startList _ (pastByte dc (loaded dc b s))
  · rw [startList_sclk]
    rfl

/-! ## The LCD byte instructions -/

/-- The byte enters the shifter at the end of its D/C setup, and its first bit goes out. -/
theorem setup_loads {s : State} {a : Action} {dc : Bool} (b : Byte) (hcur : (opActions s)[s.engine.eidx]? = some a)
    (hphase : phaseOf a = some dc) :
    ∃ u v,
    engineRun (halfT s - 1)
        { inSetup dc b s with engine := { (inSetup dc b s).engine with estate := .run } } = .next u ∧
      u.engine.eshift = s.engine.eshift ∧ u.pins = (inSetup dc b s).pins ∧ engineStage exec u = .next v ∧
      v.engine = { (inSetup dc b s).engine with estate := .run, eshift := b, esetup := false, ecnt := halfT s } ∧
      v.pins = { (inSetup dc b s).pins with lcdSdin := b.getLsbD 7 } := by
  have hwaits := shows_waits (l := s.pins.lcdRstN) (n := halfT s - 1)
    (s := { inSetup dc b s with engine := { (inSetup dc b s).engine with estate := .run } }) rfl hcur rfl
    (Nat.sub_add_cancel (halfT_pos s)).symm
  exact ⟨_, _, hwaits.engineRun_eq, rfl, rfl, engineStage_loads (a := a) hcur hphase (Nat.le_refl 1) rfl, rfl, rfl⟩

/-- The byte of each LCD form as a number (30_encoding.md R129). -/
theorem lcdForm_eq (h p v hx d e : BitVec 1) (y bias : BitVec 3) (x vop : BitVec 7) (tc : BitVec 2) (data : Byte) :
    ∀ q ∈ [(Instr.lcdFuncset h p v hx, false, 0x20 + 4 * p.toNat + 2 * v.toNat + hx.toNat),
        (.lcdDispctl d e, false, 0x08 + 4 * d.toNat + e.toNat),
        (.lcdSety y, false, 0x40 + y.toNat), (.lcdSetx x, false, 0x80 + x.toNat),
        (.lcdTempctl tc, false, 0x04 + tc.toNat), (.lcdSetbias bias, false, 0x10 + bias.toNat),
        (.lcdSetvop vop, false, 0x80 + vop.toNat), (.lcdData h data, true, data.toNat)],
      lcdForm q.1 = some (q.2.1, BitVec.ofNat 8 q.2.2) := by
  have hfuncset : ∀ p v hx : BitVec 1,
      0b00100#5 ++ p ++ v ++ hx = BitVec.ofNat 8 (0x20 + 4 * p.toNat + 2 * v.toNat + hx.toNat) := by decide
  have hdispctl : ∀ d e : BitVec 1,
      0b00001#5 ++ d ++ 0#1 ++ e = BitVec.ofNat 8 (0x08 + 4 * d.toNat + e.toNat) := by decide
  have hsety : ∀ y : BitVec 3, 0b01000#5 ++ y = BitVec.ofNat 8 (0x40 + y.toNat) := by decide
  have hseven : ∀ x : BitVec 7, 1#1 ++ x = BitVec.ofNat 8 (0x80 + x.toNat) := by decide
  have htempctl : ∀ tc : BitVec 2, 0b000001#6 ++ tc = BitVec.ofNat 8 (0x04 + tc.toNat) := by decide
  have hsetbias : ∀ b : BitVec 3, 0b00010#5 ++ b = BitVec.ofNat 8 (0x10 + b.toNat) := by decide
  intro q hq
  simp only [List.mem_cons, List.not_mem_nil, or_false] at hq
  rcases hq with rfl | rfl | rfl | rfl | rfl | rfl | rfl | rfl
  · exact congrArg (fun b => some (false, b)) (hfuncset p v hx)
  · exact congrArg (fun b => some (false, b)) (hdispctl d e)
  · exact congrArg (fun b => some (false, b)) (hsety y)
  · exact congrArg (fun b => some (false, b)) (hseven x)
  · exact congrArg (fun b => some (false, b)) (htempctl tc)
  · exact congrArg (fun b => some (false, b)) (hsetbias bias)
  · exact congrArg (fun b => some (false, b)) (hseven vop)
  · simp [lcdForm]

/-- Settles O33: each form starts its byte, at once or after the D/C setup. -/
theorem lcdBytesStart : Obligations.LcdBytesStart := by
  intro s h p v hx d e y bias x vop tc data q hq
  have hexec := exec_of_lcdForm (lcdForm_eq h p v hx d e y bias x vop tc data q hq) s
  refine ⟨fun hmode => ?_, fun hmode => ⟨inSetup q.2.1 (BitVec.ofNat 8 q.2.2) s, ?_, rfl, fun hcur => ?_⟩⟩
  · rw [hexec, startByte_same _ hmode]
  · rw [hexec, startByte_eq_inSetup _ hmode]
  · rcases hcur with ⟨b, hcur⟩ | ⟨hdata, i, hcur⟩
    · exact setup_loads _ hcur rfl
    · exact setup_loads _ hcur (congrArg some hdata.symm)

end Sys2Proof.Proofs
end

