-- ==== Sys2Proof/Proofs/DeviceOps.lean ====
section
/-! The ops that drive the device bus, from acceptance to IDLE: FLUSH, INIT, SETCONTRAST, DISPCTL and SETTEMPCO
(41_lcd_protocol.md R181, R184 to R189; 70_reset_and_hazards.md R420). -/

namespace Sys2Proof.Proofs

open Sys2Proof Sys2Proof.Config Sys2Proof.Machine Sys2Proof.Safety

/-! ## The lines -/

/-- The pins with the device reset line at `l`. -/
def setRst (l : Bool) (p : Pins) : Pins := { p with lcdRstN := l }

/-- The pins with bus-select at `l`. -/
def setSce (l : Bool) (p : Pins) : Pins := { p with lcdSceN := l }

/-- The pins after the byte `b` of phase `dc`: its last bit is still on `lcd_sdin`. -/
def setByte (dc : Bool) (b : Byte) (p : Pins) : Pins := { p with lcdDc := dc, lcdSdin := b.getLsbD 0 }

/-- A later byte replaces an earlier one on the lines. -/
theorem setByte_setByte (dc dc' : Bool) (b b' : Byte) (p : Pins) : setByte dc' b' (setByte dc b p) = setByte dc' b' p :=
  rfl

/-! ## Between the actions of an op -/

/-- `u` is `s` with the engine further on in the op: the rest `as` of the list is about to start, the pins are `p` and
the mode flag is `m`. -/
structure Ahead (s : State) (as : List Action) (p : Pins) (m : LcdMode) (u : State) : Prop where
  run : u.engine.estate = .run
  rest : (opActions u).drop u.engine.eidx = as
  frame : ∃ e, u = { s with engine := e, pins := p }
  eop : u.engine.eop = s.engine.eop
  mode : u.engine.mode = m

section
variable {s u : State} {a : Action} {as : List Action} {p : Pins} {m : LcdMode}

theorem Ahead.cur (h : Ahead s (a :: as) p m u) : (opActions u)[u.engine.eidx]? = some a := by
  rw [← List.head?_drop, h.rest]
  rfl

theorem Ahead.drop_succ (h : Ahead s (a :: as) p m u) : (opActions u).drop (u.engine.eidx + 1) = as := by
  rw [← List.drop_drop, h.rest]
  rfl

theorem Ahead.pins_eq (h : Ahead s as p m u) : u.pins = p := by
  obtain ⟨e, hu⟩ := h.frame
  rw [hu]

theorem Ahead.halfT_eq (h : Ahead s as p m u) : halfT u = halfT s := by
  obtain ⟨e, hu⟩ := h.frame
  rw [hu]
  rfl

/-- `u` in an action of `n` cycles that has set the pins to `p`. -/
def inAction (n : Nat) (p : Pins) (u : State) : State := { u with engine := { u.engine with ecnt := n }, pins := p }

/-- `u` past an action that has set the pins to `p`, the next one about to start. -/
def pastAction (p : Pins) (u : State) : State :=
  { u with engine := { u.engine with ecnt := 0, eidx := u.engine.eidx + 1 }, pins := p }

/-- An action of `n` cycles that sets the pins to `p'` at its start, and does nothing at its end. -/
theorem Ahead.shows_action (h : Ahead s (a :: as) p m u) (hend : ∀ t, actionEdge a t = nextAction t) {p' : Pins}
    {n : Nat} (hpos : 0 < n) (hstart : startList (a :: as) u = inAction n p' u) :
    ∃ v, Ahead s as p' m v ∧ Shows (RstAt p'.lcdRstN) n (startList (a :: as) u) [] (startList as v) := by
  have hstage : engineStage exec (lastCycle (inAction n p' u)) = .next (startList as (pastAction p' u)) := by
    rw [engineStage_ends (s := lastCycle (inAction n p' u)) h.cur (Nat.le_refl 1), hend, startDue_nextAction,
      ← h.drop_succ]
    rfl
  have hquiet : sampledAt (inAction n p' u) (startList as (pastAction p' u)) = [] :=
    sampledAt_of_sclk_eq (startList_sclk _ _)
  refine ⟨pastAction p' u, ⟨h.run, h.drop_succ, ?_, h.eop, h.mode⟩, ?_⟩
  · obtain ⟨e, hu⟩ := h.frame
    exact ⟨_, by rw [hu]; rfl⟩
  · rw [hstart, ← hquiet]
    exact shows_wait (s := inAction n p' u) h.run h.cur rfl rfl hpos hstage

/-- RST takes one cycle. -/
theorem Ahead.shows_rst {l : Bool} (h : Ahead s (.rst l :: as) p m u) :
    ∃ v, Ahead s as (setRst l p) m v ∧
      Shows (RstAt l) 1 (startList (.rst l :: as) u) [] (startList as v) :=
  h.shows_action (p' := setRst l p) (fun _ => rfl) Nat.one_pos (by rw [startList_rst, h.pins_eq]; rfl)

/-- SCE takes `T` cycles. -/
theorem Ahead.shows_sce {l : Bool} (h : Ahead s (.sce l :: as) p m u) :
    ∃ v, Ahead s as (setSce l p) m v ∧
      Shows (RstAt p.lcdRstN) (halfT s) (startList (.sce l :: as) u) [] (startList as v) :=
  h.shows_action (p' := setSce l p) (fun _ => rfl) (halfT_pos s)
    (by rw [startList_sce, h.pins_eq, h.halfT_eq]; rfl)

/-- WAIT takes the cycles it names, perhaps none. -/
theorem Ahead.shows_wait {n : Nat} (h : Ahead s (.wait n :: as) p m u) :
    ∃ v, Ahead s as p m v ∧ Shows (RstAt p.lcdRstN) n (startList (.wait n :: as) u) [] (startList as v) := by
  cases n with
  | zero =>
    obtain ⟨e, hu⟩ := h.frame
    exact ⟨u.withEngine { u.engine with eidx := u.engine.eidx + 1 },
      ⟨h.run, h.drop_succ, ⟨_, by rw [hu]; rfl⟩, h.eop, h.mode⟩, .refl _⟩
  | succ n =>
    exact h.shows_action (fun _ => rfl) (Nat.succ_pos n) (by rw [startList_wait_succ, ← h.pins_eq]; rfl)

/-! ## Bytes -/

/-- Bus-select and `lcd_sclk` are low, and `lcd_dc` agrees with the mode flag. -/
structure InFrame (p : Pins) (m : LcdMode) : Prop where
  sce : p.lcdSceN = false
  sclk : p.lcdSclk = false
  dc : p.lcdDc = decide (m = .datap)

/-- The D/C setup of a byte whose phase needs the mode flag `m'` when it is `m`. -/
def setupFrom (T : Nat) (m m' : LcdMode) : Nat := if m = m' then 0 else T

/-- The phase and the byte that a BYTE action sends, its argument evaluated in `s` (R184). -/
def sentBy (s : State) : Action → Option (Bool × Byte)
  | .byte dc b => some (dc, b)
  | .byteFb i => some (true, fbRead s i)
  | .rst _ | .wait _ | .sce _ | .fbrmw _ _ _ | .fbrd _ | .fbz _ => none

theorem phaseOf_of_sentBy {dc : Bool} {b : Byte} (h : sentBy s a = some (dc, b)) : phaseOf a = some dc := by
  cases a with
  | byte | byteFb => cases h; rfl
  | _ => cases h

/-- The op's own progress does not change what its actions send. -/
theorem Ahead.startList_byte (h : Ahead s (a :: as) p m u) {dc : Bool} {b : Byte} (hsent : sentBy s a = some (dc, b)) :
    startList (a :: as) u = startByte dc b u := by
  obtain ⟨e, hu⟩ := h.frame
  rw [hu]
  cases a with
  | byte | byteFb => cases hsent; rfl
  | _ => cases hsent

/-- A byte of the op. -/
theorem Ahead.shows_byte (h : Ahead s (a :: as) p m u) (hp : InFrame p m) {dc : Bool} {b : Byte}
    (hsent : sentBy s a = some (dc, b)) :
    ∃ v, Ahead s as (setByte dc b p) (wantMode dc) v ∧
      Shows (RstAt p.lcdRstN) (16 * halfT s + setupFrom (halfT s) m (wantMode dc)) (startList (a :: as) u)
        (byteBits dc b) (startList as v) := by
  have hpins := h.pins_eq
  have hbyte := Proofs.shows_byte b h.run h.cur (phaseOf_of_sentBy hsent) (by rw [hpins, hp.sclk])
    (by rw [hpins, hp.sce]) (by rw [hpins, hp.dc, h.mode])
  rw [← h.startList_byte hsent, h.drop_succ, hpins, setupCycles, h.mode, h.halfT_eq] at hbyte
  refine ⟨pastByte dc (loaded dc b u), ⟨h.run, h.drop_succ, ?_, h.eop, rfl⟩, hbyte⟩
  obtain ⟨e, hu⟩ := h.frame
  exact ⟨_, by rw [hu]; simp [pastByte, loaded, setByte, hp.sclk]; rfl⟩

theorem InFrame.after_byte (hp : InFrame p m) (dc : Bool) (b : Byte) : InFrame (setByte dc b p) (wantMode dc) :=
  ⟨hp.sce, hp.sclk, (decide_wantMode dc).symm⟩

/-- Bytes of one phase, the first perhaps after a D/C setup: `f` gives the actions and `g` the bytes they send. -/
theorem Ahead.shows_bytes {α : Type} {f : α → Action} {g : α → Byte} {dc : Bool}
    (hfg : ∀ x, sentBy s (f x) = some (dc, g x)) (x : α) (xs : List α)
    (h : Ahead s ((x :: xs).map f ++ as) p m u) (hp : InFrame p m) :
    ∃ v, Ahead s as (setByte dc (g (xs.getLastD x)) p) (wantMode dc) v ∧
      Shows (RstAt p.lcdRstN) (16 * (xs.length + 1) * halfT s + setupFrom (halfT s) m (wantMode dc))
        (startList ((x :: xs).map f ++ as) u) (streamBits ((x :: xs).map fun x => (dc, g x))) (startList as v) := by
  induction xs generalizing x p m u with
  | nil =>
    obtain ⟨v, hv, hrun⟩ := h.shows_byte hp (hfg x)
    exact ⟨v, hv, by simpa [streamBits] using hrun⟩
  | cons y ys ih =>
    obtain ⟨v, hv, hrun⟩ := h.shows_byte hp (hfg x)
    obtain ⟨w, hw, hrest⟩ := ih y hv (hp.after_byte dc _)
    rw [setByte_setByte] at hw
    rw [List.getLastD_cons]
    refine ⟨w, hw, (hrun.trans hrest).cast ?_⟩
    simp only [setupFrom, if_true, List.length_cons]
    ring

/-! ## The end of the op -/

/-- The op ends: DONE, and INIT_DONE for INIT. -/
theorem Ahead.finishOp_eq (h : Ahead s [] p m u) :
    ∃ e, e.estate = .idle ∧ e.mode = m ∧
      finishOp u = { s with
        engine := e, pins := p
        regs := { s.regs with done := true, initDone := s.regs.initDone || s.engine.eop == 0x5#4 } } := by
  have heop := h.eop
  have hmode := h.mode
  obtain ⟨e, rfl⟩ := h.frame
  exact ⟨{ e with estate := .idle }, rfl, hmode, by rw [← heop]; rfl⟩

/-- One frame of command bytes in the list that remains. -/
def commandFrame (b : Byte) (bs : List Byte) : List Action :=
  .sce false :: ((b :: bs).map (.byte false) ++ [.sce true])

/-- A frame of `n` command bytes takes `(2 + 16·n)·T` edges and the D/C setup (R181, R182). -/
theorem Ahead.shows_commandFrame {b : Byte} {bs : List Byte} (h : Ahead s (commandFrame b bs) p m u)
    (hsclk : p.lcdSclk = false) (hdc : p.lcdDc = decide (m = .datap)) :
    ∃ v, Ahead s [] (setSce true (setByte false (bs.getLastD b) (setSce false p))) .cmdp v ∧
      Shows (RstAt p.lcdRstN) ((2 + 16 * (bs.length + 1)) * halfT s + setupFrom (halfT s) m .cmdp)
        (startList (commandFrame b bs) u) (streamBits (commands (b :: bs))) (finishOp v) := by
  obtain ⟨v, hv, hopen⟩ := h.shows_sce
  obtain ⟨w, hw, hbytes⟩ := hv.shows_bytes (g := id) (fun _ => rfl) b bs ⟨rfl, hsclk, hdc⟩
  obtain ⟨x, hx, hclose⟩ := hw.shows_sce
  refine ⟨x, hx, ?_⟩
  have hall := ((hopen.trans hbytes).trans hclose).cast
    (k := (2 + 16 * (bs.length + 1)) * halfT s + setupFrom (halfT s) m .cmdp)
    (by simp only [wantMode, Bool.false_eq_true, if_false]; ring)
  rwa [List.append_nil] at hall

end

/-! ## From acceptance to IDLE -/

/-- The state at the completion of the write of an op with actions, its first action about to start. -/
def issued (op : BitVec 4) (args : BitVec 28) (s : State) : State := respondWrite (accepted op args s)

theorem issued_ahead {op : BitVec 4} {args : BitVec 28} {s : State} {as : List Action}
    (hlist : actions s.params op args s.regs.ctrlRot = as) :
    Ahead (issued op args s) as s.pins s.engine.mode (issued op args s) :=
  ⟨rfl, hlist, ⟨_, rfl⟩, rfl, rfl⟩

/-- The write of an op whose list opens with an action on the device lines. -/
theorem respondWrite_acceptOp {op : BitVec 4} {args : BitVec 28} {s : State} {a : Action} {as : List Action}
    (hlist : actions s.params op args s.regs.ctrlRot = a :: as) (ha : isOpener a = true) :
    respondWrite (acceptOp op args s) = startList (a :: as) (issued op args s) := by
  rw [acceptOp_eq_startList hlist (List.cons_ne_nil a as)]
  cases a with
  | rst | sce | fbrmw | fbrd | fbz => rfl
  | wait | byte | byteFb => cases ha

theorem cmdWrite_issued {op : BitVec 4} {args : BitVec 28} {s : State} {a : Action} {as : List Action}
    (hready : Ready s) (hlist : actions s.params op args s.regs.ctrlRot = a :: as) (ha : isOpener a = true) :
    cmdWrite (acceptOp op args) s = .next (startList (a :: as) (issued op args s)) := by
  rw [cmdWrite_ready hready, respondWrite_acceptOp hlist ha]

/-- `u` is `s` after an op of the device bus: its pins and its mode flag, DONE, and INIT_DONE as it says. -/
structure RanDevice (s : State) (p : Pins) (m : LcdMode) (initDone : Bool) (u : State) : Prop where
  idle : u.engine.estate = .idle
  fb : SameFramebuffer s u
  mode : u.engine.mode = m
  pins : u.pins = p
  regs : u.regs = { s.regs with done := true, initDone := initDone }
  others : OthersUnchanged s u

theorem ranDevice_finishOp {op : BitVec 4} {args : BitVec 28} {s v : State} {p : Pins} {m : LcdMode}
    (h : Ahead (issued op args s) [] p m v) :
    RanDevice s p m (s.regs.initDone || op == 0x5#4) (finishOp v) := by
  obtain ⟨e, hidle, hmode, heq⟩ := h.finishOp_eq
  rw [heq]
  exact ⟨hidle, fun _ => rfl, hmode, rfl, rfl, rfl, rfl, rfl, rfl, rfl, rfl, rfl, rfl, rfl⟩

/-- An op other than INIT, from its write to IDLE, by what its list shows. -/
theorem deviceOp_runs {op : BitVec 4} {args : BitVec 28} {s v : State} {a : Action} {as : List Action} {p : Pins}
    {m : LcdMode} {P : State → Prop} {n : Nat} {bits : List (Bool × Bool)} (hready : Ready s) (hop : op ≠ 0x5#4)
    (hlist : actions s.params op args s.regs.ctrlRot = a :: as) (ha : isOpener a = true)
    (hv : Ahead (issued op args s) [] p m v)
    (hshows : Shows P n (startList (a :: as) (issued op args s)) bits (finishOp v)) :
    ∃ t u, cmdWrite (acceptOp op args) s = .next t ∧ Completed s.bus t.bus ∧ RunsToIdle n t u ∧
      sampledBits n t = bits ∧ SameFramebuffer s u ∧ u.engine.mode = m ∧ u.pins = p ∧
      u.regs = { s.regs with done := true } ∧ OthersUnchanged s u := by
  have hran := ranDevice_finishOp hv
  have hbus : Completed s.bus (respondWrite (acceptOp op args s)).bus := by
    obtain ⟨e, p, f, r, hframe⟩ := acceptOp_only op args s
    rw [hframe]
    exact ⟨rfl, rfl, rfl⟩
  rw [respondWrite_acceptOp hlist ha] at hbus
  refine ⟨_, _, cmdWrite_issued hready hlist ha, hbus, hshows.runsToIdle hran.idle, hshows.sampledBits_eq, hran.fb,
    hran.mode, hran.pins, ?_, hran.others⟩
  rw [hran.regs, beq_false_of_ne hop, Bool.or_false]

/-- The lines after a frame are those before it but for bus-select, the phase and the last bit. -/
theorem pins_after_frame {p : Pins} (hsclk : p.lcdSclk = false) (dc : Bool) (b : Byte) :
    setSce true (setByte dc b (setSce false p)) =
      { p with lcdSceN := true, lcdDc := dc, lcdSclk := false, lcdSdin := b.getLsbD 0 } := by
  rw [← hsclk]
  rfl

/-- An op of one frame of command bytes, from its write to IDLE. -/
theorem commandOp_runs {op : BitVec 4} {args : BitVec 28} {s : State} {b : Byte} {bs : List Byte} {n : Nat}
    {d : Bool} (hready : Ready s) (hlines : LinesIdle s) (hop : op ≠ 0x5#4)
    (hlist : actions s.params op args s.regs.ctrlRot = commandFrame b bs) (hn : 2 + 16 * (bs.length + 1) = n)
    (hlast : (bs.getLastD b).getLsbD 0 = d) :
    ∃ t u, cmdWrite (acceptOp op args) s = .next t ∧ Completed s.bus t.bus ∧
      RunsToIdle (n * halfT s + setupCycles s .cmdp) t u ∧
      sampledBits (n * halfT s + setupCycles s .cmdp) t = streamBits (commands (b :: bs)) ∧
      SameFramebuffer s u ∧ u.engine.mode = .cmdp ∧
      u.pins = { s.pins with lcdSceN := true, lcdDc := false, lcdSclk := false, lcdSdin := d } ∧
      u.regs = { s.regs with done := true } ∧ OthersUnchanged s u := by
  obtain ⟨hsclk, hdc⟩ := hlines
  obtain ⟨v, hv, hshows⟩ := (issued_ahead hlist).shows_commandFrame hsclk hdc
  rw [pins_after_frame hsclk, hlast] at hv
  rw [hn] at hshows
  exact deviceOp_runs hready hop hlist rfl hv hshows

/-! ## SETCONTRAST, DISPCTL, SETTEMPCO -/

/-- The clamped contrast beside the bit of SETVOP (R186, R196), checked on each value. -/
theorem setvopByte_eq : ∀ v : Byte, 0x80#8 ||| clampv v vopMax = BitVec.ofNat 8 (0x80 + min v.toNat 127) := by decide

/-- The clamped bias beside the bit of SETBIAS (R186, R195), checked on each value. -/
theorem setbiasByte_eq : ∀ v : Byte, 0x10#8 ||| clampv v biasMax = BitVec.ofNat 8 (0x10 + min v.toNat 7) := by decide

theorem actions_setcontrast (p : Params) (value : BitVec 8) (rsv : BitVec 20) (r : BitVec 2) :
    actions p 0x6#4 (rsv ++ value) r =
      commandFrame 0x21#8 [BitVec.ofNat 8 (0x80 + min value.toNat 127), 0x20#8] := by
  simp [actions, setcontrastActions, commandFrame, field_of_low, setvopByte_eq]

theorem actions_dispctl (p : Params) (mode : BitVec 2) (rsv : BitVec 26) (r : BitVec 2) :
    actions p 0x7#4 (rsv ++ mode) r =
      commandFrame ([0x08#8, 0x09#8, 0x0C#8, 0x0D#8].getD mode.toNat 0#8) [] := by
  have hbyte : ∀ m : BitVec 2, dispctlByte m = [0x08#8, 0x09#8, 0x0C#8, 0x0D#8].getD m.toNat 0#8 := by decide
  simp only [← hbyte]
  simp [actions, dispctlActions, commandFrame, field_of_low]

theorem actions_settempco (p : Params) (tc : BitVec 2) (rsv : BitVec 26) (r : BitVec 2) :
    actions p 0x8#4 (rsv ++ tc) r = commandFrame 0x21#8 [BitVec.ofNat 8 (4 + tc.toNat), 0x20#8] := by
  have hbyte : ∀ t : BitVec 2, 0x04#8 ||| t.setWidth 8 = BitVec.ofNat 8 (4 + t.toNat) := by decide
  simp only [← hbyte]
  simp [actions, settempcoActions, commandFrame, field_of_low]

/-- Settles O27: one frame of three command bytes. -/
theorem setcontrastProgramsVop : Obligations.SetcontrastProgramsVop := by
  intro s value r hready hlines
  exact commandOp_runs hready hlines (by decide) (actions_setcontrast s.params value r s.regs.ctrlRot) rfl (by simp)

/-- Settles O28: one frame of one command byte. -/
theorem dispctlSendsItsByte : Obligations.DispctlSendsItsByte := by
  intro s mode r hready hlines
  have hlast : ∀ m : BitVec 2, ([0x08#8, 0x09#8, 0x0C#8, 0x0D#8].getD m.toNat 0#8).getLsbD 0 = m.getLsbD 0 := by
    decide
  exact commandOp_runs hready hlines (by decide) (actions_dispctl s.params mode r s.regs.ctrlRot) rfl (hlast mode)

/-- Settles O29: one frame of three command bytes. -/
theorem settempcoProgramsTc : Obligations.SettempcoProgramsTc := by
  intro s tc r hready hlines
  exact commandOp_runs hready hlines (by decide) (actions_settempco s.params tc r s.regs.ctrlRot) rfl (by simp)

/-! ## INIT -/

theorem actions_init (p : Params) (contrast bias : BitVec 8) (rsv : BitVec 12) (r : BitVec 2) :
    actions p 0x5#4 (rsv ++ bias ++ contrast) r =
      [.rst false, .wait p.tRstLow, .rst true, .wait p.tRstHigh] ++
        commandFrame 0x21#8 [BitVec.ofNat 8 (0x10 + min bias.toNat 7), BitVec.ofNat 8 (0x80 + min contrast.toNat 127),
          0x20#8, 0x0C#8] := by
  simp [actions, initActions, commandFrame, field_of_low, field_of_high, setbiasByte_eq, setvopByte_eq]

/-- The pulse on the device reset line: low for `n + 1` edges and then high (R185). -/
theorem Ahead.shows_pulse {s u : State} {as : List Action} {p : Pins} {m : LcdMode} {n k : Nat}
    (h : Ahead s ([.rst false, .wait n, .rst true, .wait k] ++ as) p m u) :
    ∃ v w, Ahead s as (setRst true p) m w ∧
      Shows (RstAt false) (n + 1) (startList ([.rst false, .wait n, .rst true, .wait k] ++ as) u) []
        (startList (.rst true :: .wait k :: as) v) ∧
      Shows (RstAt true) (1 + k) (startList (.rst true :: .wait k :: as) v) [] (startList as w) := by
  obtain ⟨a, ha, hlow⟩ := h.shows_rst
  obtain ⟨v, hv, hlowWait⟩ := ha.shows_wait
  obtain ⟨b, hb, hhigh⟩ := hv.shows_rst
  obtain ⟨w, hw, hhighWait⟩ := hb.shows_wait
  exact ⟨v, w, hw, (hlow.trans hlowWait).cast (Nat.add_comm 1 n), hhigh.trans hhighWait⟩

/-- A run with the reset line low at its first `n` edges and high from there on. -/
theorem rst_of_shows {s t u : State} {n k : Nat} {bits bits' : List (Bool × Bool)}
    (hlow : Shows (RstAt false) n s bits t) (hhigh : Shows (RstAt true) k t bits' u) (hend : u.pins.lcdRstN = true)
    {m : Nat} (hm : m ≤ n + k) : ∃ v, engineRun m s = .next v ∧ v.pins.lcdRstN = decide (n ≤ m) := by
  by_cases hbefore : m < n
  · obtain ⟨v, hv, -, hrst⟩ := hlow.before hbefore
    exact ⟨v, hv, by rw [hrst, decide_eq_false (Nat.not_le.2 hbefore)]⟩
  · obtain ⟨j, rfl⟩ := Nat.exists_eq_add_of_le (Nat.le_of_not_lt hbefore)
    rw [hlow.engineRun_add, decide_eq_true (Nat.le_add_right n j)]
    rcases Nat.lt_or_eq_of_le (Nat.le_of_add_le_add_left hm) with hj | rfl
    · obtain ⟨v, hv, -, hrst⟩ := hhigh.before hj
      exact ⟨v, hv, hrst⟩
    · exact ⟨u, hhigh.engineRun_eq, hend⟩

/-- The write of INIT, which also clears INIT_DONE. -/
theorem exec_init_issued {s : State} {contrast bias : BitVec 8} {rsv : BitVec 12} {l : Bool} {as : List Action}
    (hready : Ready s) (hlist : actions s.params 0x5#4 (rsv ++ bias ++ contrast) s.regs.ctrlRot = .rst l :: as) :
    exec (.init contrast bias rsv) s =
      .next (startList (.rst l :: as)
        (issued 0x5#4 (rsv ++ bias ++ contrast) (s.withRegs { s.regs with initDone := false }))) := by
  rw [← respondWrite_acceptOp (s := s.withRegs { s.regs with initDone := false }) hlist rfl]
  exact cmdWrite_ready hready fun t =>
    acceptOp 0x5#4 (rsv ++ bias ++ contrast) (t.withRegs { t.regs with initDone := false })

/-- Settles O26: the reset pulse, then one frame of five command bytes. -/
theorem initProgramsTheDevice : Obligations.InitProgramsTheDevice := by
  intro s contrast bias r hready hlines
  obtain ⟨hsclk, hdc⟩ := hlines
  have hlist := actions_init s.params contrast bias r s.regs.ctrlRot
  obtain ⟨v, w, hw, hlow, hhigh⟩ :=
    (issued_ahead (s := s.withRegs { s.regs with initDone := false }) hlist).shows_pulse
  obtain ⟨x, hx, hframe⟩ := hw.shows_commandFrame hsclk hdc
  obtain ⟨y, -, hselect⟩ := hw.shows_sce
  have hran := ranDevice_finishOp hx
  have hactive := hhigh.trans hframe
  have hlength : s.params.tRstLow + 1 + (1 + s.params.tRstHigh + ((2 + 16 * (4 + 1)) * halfT s + setupCycles s .cmdp)) =
      2 + s.params.tRstLow + s.params.tRstHigh + 82 * halfT s + setupCycles s .cmdp := by ring
  have hall := (hlow.any.trans hactive.any).cast hlength
  have hquiet := (hlow.any.trans (hhigh.trans hselect).any).cast
    (show s.params.tRstLow + 1 + (1 + s.params.tRstHigh + halfT s) =
      2 + s.params.tRstLow + s.params.tRstHigh + halfT s by ring)
  have hpins : (finishOp x).pins =
      { lcdRstN := true, lcdSceN := true, lcdDc := false, lcdSclk := false, lcdSdin := false } := by
    simp [hran.pins, setSce, setByte, setRst, hsclk]
  refine ⟨_, finishOp x, exec_init_issued hready hlist, ⟨rfl, rfl, rfl⟩, rfl, rfl, hall.runsToIdle hran.idle,
    fun m hm => ?_, hquiet.sampledBits_eq, hall.sampledBits_eq, hran.fb, hran.mode, hpins, hran.regs, hran.others⟩
  exact rst_of_shows hlow hactive (by rw [hpins]) (hm.trans_eq hlength.symm)

/-! ## FLUSH -/

/-- The indices of the framebuffer bytes, counted from the first. -/
theorem range'_fbBytes : List.range' 0 fbBytes = 0 :: List.range' 1 503 := List.range'_succ

/-- FLUSH's list, its data bytes counted from the first. -/
theorem actions_flush (p : Params) (args : BitVec 28) (r : BitVec 2) :
    actions p 0x4#4 args r =
      .sce false :: ([0x40#8, 0x80#8].map (.byte false) ++ ((0 :: List.range' 1 503).map .byteFb ++ [.sce true])) := by
  rw [← range'_fbBytes, ← List.append_assoc]
  rfl

theorem getLastD_range' : (List.range' 1 503).getLastD 0 = 503 := by
  simp [List.getLastD_eq_getLast?, List.getLast?_range']

theorem streamBits_append (xs ys : List (Bool × Byte)) : streamBits (xs ++ ys) = streamBits xs ++ streamBits ys :=
  List.flatMap_append

/-- What a FLUSH shows: the two address bytes, then the framebuffer in index order (R184). -/
theorem flush_bits (s : State) :
    streamBits ([0x40#8, 0x80#8].map fun b => (false, b)) ++
        streamBits ((0 :: List.range' 1 503).map fun i => (true, fbRead s i)) =
      streamBits (commands [0x40#8, 0x80#8] ++ (List.range 504).map fun i => (true, fbRead s i)) := by
  rw [← range'_fbBytes, ← List.range_eq_range', streamBits_append]
  rfl

/-- The length of a FLUSH: two SCE actions, 506 bytes, the setup of the first and the one into the data phase
(70_reset_and_hazards.md R420). -/
theorem flush_cost (T : Nat) (m : LcdMode) :
    T + (16 * ([0x80#8].length + 1) * T + setupFrom T m .cmdp) +
        (16 * ((List.range' 1 503).length + 1) * T + setupFrom T .cmdp .datap) + T =
      8099 * T + setupFrom T m .cmdp := by
  simp only [List.length_range', List.length_singleton, show setupFrom T .cmdp .datap = T from rfl]
  ring

/-- Settles O25: one frame of two command bytes and 504 data bytes. -/
theorem flushSendsTheFramebuffer : Obligations.FlushSendsTheFramebuffer := by
  intro s r hready hlines
  obtain ⟨hsclk, hdc⟩ := hlines
  have hlist := actions_flush s.params r s.regs.ctrlRot
  have hlow : InFrame (setSce false s.pins) s.engine.mode := ⟨rfl, hsclk, hdc⟩
  obtain ⟨u₁, h₁, hopen⟩ := (issued_ahead hlist).shows_sce
  obtain ⟨u₂, h₂, haddress⟩ := h₁.shows_bytes (g := id) (fun _ => rfl) _ _ hlow
  obtain ⟨u₃, h₃, hdata⟩ := h₂.shows_bytes (g := fbRead s) (fun _ => rfl) _ _ (hlow.after_byte false _)
  obtain ⟨u₄, h₄, hclose⟩ := h₃.shows_sce
  have hall := (((hopen.trans haddress).trans hdata).trans hclose).cast (flush_cost (halfT s) s.engine.mode)
  simp only [List.append_nil, List.nil_append, id, flush_bits] at hall
  rw [setByte_setByte, getLastD_range', pins_after_frame hsclk] at h₄
  exact deviceOp_runs hready (by decide) hlist rfl h₄ hall

end Sys2Proof.Proofs
end

