-- ==== Sys2Proof/Proofs/CrossingLinks.lean ====
section
/-! What links the two domains, kept by every tick: each crossing carries its source's newest value through its full
number of stages, the gray pointers are those of the binary ones, and the outputs follow the power state and the
external latch (20_memory.md R107; 42_event_fifo.md R241, R252; 43_power.md R281). Wherever an operation writes a
source, it pushes the value into that source's window. -/

namespace Sys2Proof.Proofs

open Sys2Proof Sys2Proof.Config Sys2Proof.Machine Sys2Proof.Safety

/-! ## One crossing -/

section
variable {α : Type} {n : Nat} {v : α} {x y : Cross α}

theorem crossOk_settled (n : Nat) (v : α) : CrossOk n v (.settled n v) := ⟨List.length_replicate, rfl⟩

/-- A new value of the source, pushed, is the newest of the window. -/
theorem crossOk_push (h : CrossOk n v x) (w : α) : CrossOk n w (x.push w) := ⟨h.1, Cross.push_held_last w x⟩

theorem crossOk_retimed (h : CrossOk n v x) (k : Retimed x y) : CrossOk n v y :=
  ⟨k.stages.trans h.1, k.source.trans h.2⟩

theorem crossOk_clock (h : CrossOk n v x) (d : α) (pick : Nat) : CrossOk n v (x.clock d pick) :=
  crossOk_retimed h (retimed_clock d pick h.2)

theorem crossOk_close (h : CrossOk n v x) (d : α) : CrossOk n v (x.close d) :=
  crossOk_retimed h (retimed_close d h.2)

end

/-! ## The links of a state -/

/-- What the invariant speaks of: both ends of every crossing, and the power record. -/
structure LinkSide where
  params    : Params
  consumer  : Consumer
  producer  : Producer
  power     : Power
  pwrReqTgl : Bool
  ackChain  : Cross Bool

/-- Both ends of every crossing of a state, and its power record. -/
def linkSide (s : State) : LinkSide where
  params := s.params
  consumer := s.consumer
  producer := s.producer
  power := s.power
  pwrReqTgl := s.sleep.pwrReqTgl
  ackChain := s.sleep.ackChain

/-- The invariant: each crossing and its source, the gray pointers, and the outputs. -/
structure LinkSide.Ok (f : LinkSide) : Prop where
  two_stages : 2 ≤ f.params.syncStages
  wptr       : f.producer.wptrGray = bin2gray f.producer.wptr
  rptr       : f.consumer.rptrGray = bin2gray f.consumer.rptr
  wsync      : CrossOk f.params.syncStages f.producer.wptrGray f.consumer.wsync
  ovf        : CrossOk f.params.syncStages f.producer.ovf f.consumer.ovfSync
  mrg        : CrossOk f.params.syncStages f.producer.mrg f.consumer.mrgSync
  rej        : CrossOk f.params.syncStages f.producer.rej f.consumer.rejSync
  fatal      : CrossOk f.params.syncStages f.power.fatal f.consumer.fatalSync
  ack        : CrossOk f.params.syncStages f.power.pwrAckTgl f.ackChain
  rsync      : CrossOk f.params.syncStages f.consumer.rptrGray f.producer.rsync
  req        : CrossOk f.params.syncStages f.pwrReqTgl f.power.reqChain
  irq        : f.power.irqChain.length = f.params.syncStages
  ksync      : f.producer.ksync.length = f.params.syncStages
  outputs    : f.power.enter f.power.pstate = f.power
  ready      : f.producer.extEvReady = !f.producer.pendExt

/-- The links of a state are in order. -/
abbrev Linked (s : State) : Prop := (linkSide s).Ok

theorem linked_iff {s : State} : Linked s ↔ GrayOk s ∧ CrossingsOk s ∧ OutputsOk s := by
  constructor
  · rintro ⟨htwo, hw, hr, hwsync, hovf, hmrg, hrej, hfatal, hack, hrsync, hreq, hirq, hksync, hout, hready⟩
    exact ⟨⟨hw, hr⟩, ⟨htwo, hwsync, hovf, hmrg, hrej, hfatal, hack, hrsync, hreq, hirq, hksync⟩, hout, hready⟩
  · rintro ⟨⟨hw, hr⟩, ⟨htwo, hwsync, hovf, hmrg, hrej, hfatal, hack, hrsync, hreq, hirq, hksync⟩, hout, hready⟩
    exact ⟨htwo, hw, hr, hwsync, hovf, hmrg, hrej, hfatal, hack, hrsync, hreq, hirq, hksync, hout, hready⟩

theorem Linked.of_linkSide_eq {s t : State} (h : Linked s) (heq : linkSide t = linkSide s) : Linked t := by
  rw [Linked, heq]
  exact h

/-- The output `fatal` is 1 in FATAL only (43_power.md R281). -/
theorem Linked.power_fatal {s : State} (h : Linked s) : s.power.fatal = decide (s.power.pstate = .fatal) :=
  (congrArg Power.fatal h.outputs).symm

/-! ## The host's part of a clk edge -/

/-- The outcome is a next state with the links of `s`. -/
abbrev KeepsLinkSide (s : State) : Out → Prop := GoesOnTo fun t => linkSide t = linkSide s

/-- The outcome is a next state whose links are in order. -/
abbrev StaysLinked : Out → Prop := GoesOnTo Linked

theorem KeepsLinkSide.staysLinked {s : State} {o : Out} (h : KeepsLinkSide s o) (hs : Linked s) : StaysLinked o :=
  h.imp fun _ ⟨hnext, heq⟩ => ⟨hnext, hs.of_linkSide_eq heq⟩

theorem linkSide_of_engineOnly {s t : State} (h : EngineOnly s t) : linkSide t = linkSide s := by
  obtain ⟨e, p, f, r, rfl⟩ := h
  rfl

theorem linkSide_acceptOp (op : BitVec 4) (args : BitVec 28) (s : State) :
    linkSide (acceptOp op args s) = linkSide s :=
  linkSide_of_engineOnly (acceptOp_only op args s)

theorem cmdWrite_keepsLinkSide {accept : State → State} {s : State} (h : linkSide (accept s) = linkSide s) :
    KeepsLinkSide s (cmdWrite accept s) := by
  rcases cmdWrite_cases accept s with ⟨-, hheld⟩ | ⟨-, hdone⟩
  · exact ⟨_, hheld, rfl⟩
  · exact ⟨_, hdone, h⟩

theorem execInit_keepsLinkSide (contrast bias : BitVec 8) (rsv : BitVec 12) (s : State) :
    KeepsLinkSide s (execInit contrast bias rsv s) :=
  cmdWrite_keepsLinkSide (linkSide_acceptOp _ _ (s.withRegs _))

theorem reservedWrite_keepsLinkSide (op : BitVec 4) (arg : BitVec 28) (s : State) :
    KeepsLinkSide s (reservedWrite op arg s) :=
  cmdWrite_keepsLinkSide (linkSide_acceptOp op arg s)

/-- The request toggle joins its window (43_power.md R282). -/
theorem Linked.acceptSleep {s : State} (h : Linked s) (dur : BitVec 24) (deep : BitVec 1) (rsv : BitVec 3) :
    Linked (acceptSleep dur deep rsv s) :=
  { h with
    req := crossOk_push h.req _
    outputs := congrArg (fun p : Power => { p with reqChain := s.power.reqChain.push !s.sleep.pwrReqTgl }) h.outputs }

theorem Linked.execSleep {s : State} (h : Linked s) (dur : BitVec 24) (deep : BitVec 1) (rsv : BitVec 3) :
    StaysLinked (execSleep dur deep rsv s) := by
  unfold Machine.execSleep
  split_ifs
  · exact goesOnTo_next h
  · exact goesOnTo_next h
  · exact goesOnTo_next h
  · exact goesOnTo_next (h.acceptSleep dur deep rsv)

theorem Linked.exec_cmd {s : State} (h : Linked s) {i : Instr} (hi : i.kind = .cmd) : StaysLinked (exec i s) := by
  cases i with
  | sleep dur deep rsv => exact h.execSleep dur deep rsv
  | init contrast bias rsv => exact (execInit_keepsLinkSide contrast bias rsv s).staysLinked h
  | nop | setpix | getpix | clear | flush | setcontrast | dispctl | settempco =>
    exact (cmdWrite_keepsLinkSide (linkSide_acceptOp _ _ s)).staysLinked h
  | rsvdA | rsvdB | rsvdC | rsvdD | rsvdE | rsvdF => exact (reservedWrite_keepsLinkSide _ _ s).staysLinked h
  | _ => cases hi

/-- The read pointer's gray code joins its window (42_event_fifo.md R252, R257). -/
theorem Linked.popEvent {s : State} (h : Linked s) : Linked (popEvent s) := by
  cases hempty : emptyC s with
  | true =>
    rw [popEvent_empty hempty]
    exact h
  | false =>
    rw [popEvent_some hempty]
    exact { h with rptr := rfl, rsync := crossOk_push h.rsync _ }

theorem execRdResult_keepsLinkSide (s : State) : KeepsLinkSide s (execRdResult s) := by
  unfold execRdResult
  split_ifs <;> exact goesOnTo_next rfl

/-- A host access writes a source only by a pop or an accepted SLEEP word. -/
theorem Linked.exec_access {s : State} (h : Linked s) {i : Instr} (hi : i.kind = .access) :
    StaysLinked (exec i s) := by
  cases i with
  | wrCmd w =>
    change StaysLinked (execWrCmd w s)
    rw [execWrCmd_eq_exec_decodeCmd]
    exact h.exec_cmd (decodeCmd_kind w)
  | rdResult => exact (execRdResult_keepsLinkSide s).staysLinked h
  | rdEvqPop => exact goesOnTo_next h.popEvent
  | rdId | wrId | rdCtrl | wrCtrl | rdStatus | wrStatus | rdCmd | wrResult | wrEvqPop | rdEvqStat | wrEvqStat
  | rdPwrStat | wrPwrStat | rdRsvd20 | rdRsvd40 | rdRsvd80 | wrRsvd20 | wrRsvd40 | wrRsvd80 | busErr =>
    exact goesOnTo_next h
  | _ => cases hi

theorem linkSide_retire (s : State) : linkSide (retire s) = linkSide s := by
  unfold retire
  split_ifs <;> rfl

theorem Linked.busStage {s : State} (h : Linked s) : StaysLinked (busStage exec s) := by
  unfold Machine.busStage
  split
  · exact goesOnTo_next h
  · next i hi =>
    obtain ⟨r, -, rfl⟩ := Option.map_eq_some_iff.1 hi
    exact (h.exec_access (decodeReq_kind r)).andThen fun t ht => goesOnTo_next (ht.of_linkSide_eq (linkSide_retire t))

/-! ## The synchronisers of each clock -/

theorem Linked.clkSync {s : State} (h : Linked s) (c : ClkIn) : Linked (clkSync c s) :=
  { h with
    wsync := crossOk_clock h.wsync _ _
    ovf := crossOk_clock h.ovf _ _
    mrg := crossOk_clock h.mrg _ _
    rej := crossOk_clock h.rej _ _
    fatal := crossOk_clock h.fatal _ _
    ack := crossOk_clock h.ack _ _ }

theorem Linked.clkResetSync {s : State} (h : Linked s) : Linked (clkResetSync s) :=
  { h with
    wsync := crossOk_close h.wsync _
    ovf := crossOk_close h.ovf _
    mrg := crossOk_close h.mrg _
    rej := crossOk_close h.rej _
    fatal := crossOk_close h.fatal _
    ack := crossOk_close h.ack _ }

/-- The power state and its outputs are no part of a chain. -/
theorem Linked.aonSync {s : State} (h : Linked s) (a : AonIn) : Linked (aonSync a s) :=
  { h with
    rsync := crossOk_clock h.rsync _ _
    req := crossOk_clock h.req _ _
    irq := (chainClock_length _ _).trans h.irq
    ksync := (chainClock_length _ _).trans h.ksync
    outputs := congrArg (fun p : Power =>
      { p with
        reqChain := s.power.reqChain.clock false a.reqPick
        irqChain := chainClock a.irqAny s.power.irqChain }) h.outputs }

theorem Linked.aonResetSync {s : State} (h : Linked s) : Linked (aonResetSync s) :=
  { h with
    rsync := crossOk_close h.rsync _
    req := crossOk_close h.req _
    outputs := congrArg (fun p : Power => { p with reqChain := s.power.reqChain.close false }) h.outputs }

/-! ## The put, the reject and the capture -/

/-- A flag that crosses into clk is pushed where it is set (60_exceptions.md R351). -/
theorem Linked.raiseErr {s : State} (h : Linked s) (e : ErrorCode) : Linked (raiseErr e s) := by
  cases e with
  | busErr | cmdErr => exact h
  | evqOvf => exact { h with ovf := crossOk_push h.ovf _ }
  | evqMrg => exact { h with mrg := crossOk_push h.mrg _ }
  | evqRej => exact { h with rej := crossOk_push h.rej _ }
  | armFail => exact { h with outputs := congrArg (fun p : Power => { p with armFail := true }) h.outputs }
  | dis1Fail => exact { h with outputs := congrArg (fun p : Power => { p with dis1Fail := true }) h.outputs }
  | fatal => exact { h with fatal := crossOk_push h.fatal _, outputs := rfl }

/-- `ext_ev_ready` is 1 again where the external latch is cleared (42_event_fifo.md R241, R248). -/
theorem Linked.drain {s : State} (h : Linked s) (q : Source) : Linked (drain q s) := by
  cases q with
  | timer | keyLeft | keyUp | keyDown | keyRight | keyEnter => exact { h with }
  | ext => exact { h with ready := rfl }

/-- The write pointer's gray code joins its window (42_event_fifo.md R249, R252). -/
theorem Linked.putEvent {s : State} (h : Linked s) (v : Byte) : Linked (putEvent v s) := by
  cases hfull : fullP s with
  | true =>
    rw [putEvent_full v hfull]
    exact h.raiseErr .evqOvf
  | false =>
    rw [putEvent_room v hfull]
    exact { h with wptr := rfl, wsync := crossOk_push h.wsync _ }

theorem Linked.putStage {s : State} (h : Linked s) : StaysLinked (putStage exec s) := by
  unfold Machine.putStage
  split
  · exact goesOnTo_next h
  · next q _ =>
    rw [exec_sourceInstr]
    exact goesOnTo_next ((h.drain q).putEvent _)

theorem Linked.rejectStage {s : State} (h : Linked s) (a : AonIn) : StaysLinked (rejectStage exec a s) := by
  unfold Machine.rejectStage
  split
  · exact goesOnTo_next (h.raiseErr .evqRej)
  · exact goesOnTo_next h

/-- `ext_ev_ready` follows the external latch (42_event_fifo.md R241, R244). -/
theorem Linked.capture {s : State} (h : Linked s) (a : AonIn) (pre : State) : Linked (capture a pre s) := by
  unfold Machine.capture
  dsimp only
  split
  · refine Linked.raiseErr ?_ .evqMrg
    exact { h with ready := rfl }
  · exact { h with ready := rfl }

/-! ## The power FSM -/

/-- A power record with the chains, the acknowledge and the `fatal` of the one before, and the outputs of its state. -/
theorem Linked.withPower {s : State} (h : Linked s) {p : Power} (hreq : p.reqChain = s.power.reqChain)
    (hirq : p.irqChain = s.power.irqChain) (hack : p.pwrAckTgl = s.power.pwrAckTgl) (hfatal : p.fatal = s.power.fatal)
    (hout : p.enter p.pstate = p) : Linked (s.withPower p) where
  two_stages := h.two_stages
  wptr := h.wptr
  rptr := h.rptr
  wsync := h.wsync
  ovf := h.ovf
  mrg := h.mrg
  rej := h.rej
  fatal := by simpa [linkSide, hfatal] using h.fatal
  ack := by simpa [linkSide, hack] using h.ack
  rsync := h.rsync
  req := by simpa [linkSide, hreq] using h.req
  irq := by simpa [linkSide, hirq] using h.irq
  ksync := h.ksync
  outputs := hout
  ready := h.ready

/-- The links are in order and the FSM is not in FATAL, so that it may enter any state but FATAL by its record alone. -/
structure Awake (s : State) : Prop where
  linked : Linked s
  not_fatal : s.power.fatal = false

theorem Linked.awake {s : State} (h : Linked s) (hst : s.power.pstate ≠ .fatal) : Awake s :=
  ⟨h, by rw [h.power_fatal]; exact decide_eq_false hst⟩

/-- What every edge does before the state's own rule changes no output (43_power.md R285, R287). -/
theorem Linked.tick {s : State} (h : Linked s) (a : AonIn) (src : BitVec 5) :
    Linked (s.withPower (s.power.tick a src)) :=
  h.withPower rfl rfl rfl rfl (congrArg (Power.tick a src) h.outputs)

theorem Awake.enter {s : State} (h : Awake s) {p : Power} {st : PowerState} (hreq : p.reqChain = s.power.reqChain)
    (hirq : p.irqChain = s.power.irqChain) (hack : p.pwrAckTgl = s.power.pwrAckTgl) (hst : st ≠ .fatal) :
    Linked (s.withPower (p.enter st)) :=
  h.linked.withPower hreq hirq hack ((decide_eq_false hst).trans h.not_fatal.symm) rfl

theorem Awake.issueAndEnter {s : State} (h : Awake s) (op : Bool) {st : PowerState} (hst : st ≠ .fatal) :
    Linked (issueAndEnter op st s) :=
  h.enter rfl rfl rfl hst

theorem Awake.startSleepOp {s : State} (h : Awake s) : Linked (startSleepOp s) :=
  h.enter rfl rfl rfl (by decide)

/-- The acknowledge toggle joins its window (43_power.md R293). -/
theorem Awake.completePower {s : State} (h : Awake s) : Linked (completePower s) :=
  have hidle : Linked (s.withPower (s.power.enter .idle)) := h.enter rfl rfl rfl (by decide)
  { hidle with ack := crossOk_push hidle.ack _, outputs := rfl }

theorem Awake.disarm1Response {s : State} (h : Awake s) (ok : Bool) : Linked (disarm1Response ok s) := by
  cases ok with
  | true => exact h.issueAndEnter true (by decide)
  | false => exact Awake.issueAndEnter ⟨h.linked.raiseErr .dis1Fail, h.not_fatal⟩ true (by decide)

theorem Awake.armResponse {s : State} (h : Awake s) (ok wake : Bool) : Linked (armResponse ok wake s) := by
  unfold Machine.armResponse
  split_ifs
  · exact Awake.issueAndEnter ⟨h.linked.raiseErr .armFail, h.not_fatal⟩ false (by decide)
  · exact h.issueAndEnter false (by decide)
  · exact h.enter rfl rfl rfl (by decide)

theorem Awake.disarm2Response {s : State} (h : Awake s) (ok : Bool) : Linked (disarm2Response ok s) := by
  unfold Machine.disarm2Response
  split_ifs
  · exact h.linked.raiseErr .fatal
  · exact h.enter rfl rfl rfl (by decide)
  · exact h.completePower

/-- In each state the FSM stays, or enters another one with that state's outputs; FATAL is entered with its flag. -/
theorem Linked.powerEdge {s : State} (h : Linked s) (a : AonIn) (src : BitVec 5) : Linked (powerEdge a src s) := by
  have htick := h.tick a src
  have hawake (hst : s.power.pstate ≠ .fatal) : Awake (s.withPower (s.power.tick a src)) := htick.awake hst
  cases hst : s.power.pstate with
  | idle =>
    rw [powerEdge_idle a src hst]
    split_ifs
    · exact htick
    · exact (hawake (by simp [hst])).startSleepOp
  | disarm1 =>
    rw [powerEdge_disarm1 a src hst]
    split_ifs
    · exact (hawake (by simp [hst])).disarm1Response _
    · exact htick
  | arm =>
    rw [powerEdge_arm a src hst]
    split_ifs
    · exact (hawake (by simp [hst])).armResponse _ _
    · exact htick
  | sleep =>
    rw [powerEdge_sleep a src hst]
    split_ifs
    · exact (hawake (by simp [hst])).issueAndEnter false (by decide)
    · exact htick
  | disarm2 =>
    rw [powerEdge_disarm2 a src hst]
    split_ifs
    · exact (hawake (by simp [hst])).disarm2Response _
    · exact htick
  | restore =>
    rw [powerEdge_restore a src hst]
    split_ifs
    · exact (hawake (by simp [hst])).completePower
    · exact htick
  | fatal =>
    rw [powerEdge_fatal a src hst]
    exact htick

/-! ## The step -/

theorem clkEdge_staysLinked (c : ClkIn) {s : State} (h : Linked s) : StaysLinked (clkEdge exec c s) := by
  cases hrst : s.rst.clkInRst with
  | true => exact ⟨issueAccess c.req (clkResetEdge c s), by simp [clkEdge, hrst], h.clkResetSync⟩
  | false =>
    have hissue : Linked (issueAccess c.req s) := h
    rw [clkEdge_eq c hrst]
    refine hissue.busStage.andThen fun t ht => ?_
    have hengine : StaysLinked (if s.engine.estate = .run then engineStage exec t else .next t) := by
      split_ifs
      · exact ⟨_, engineStage_eq t, ht.of_linkSide_eq (linkSide_of_engineOnly (engineStage_only (engineStage_eq t)))⟩
      · exact goesOnTo_next ht
    exact hengine.andThen fun u hu => goesOnTo_next (hu.clkSync c)

theorem aonEdge_staysLinked (a : AonIn) {s : State} (h : Linked s) : StaysLinked (aonEdge exec a s) := by
  unfold aonEdge
  split
  · exact goesOnTo_next h.aonResetSync
  · refine h.putStage.andThen fun t ht => (ht.rejectStage a).andThen fun u hu => goesOnTo_next ?_
    exact ((hu.capture a s).powerEdge a _).aonSync a

/-- After a reset every source and every stage has its reset value (70_reset_and_hazards.md R391). -/
theorem linked_applyReset {s : State} (htwo : 2 ≤ s.params.syncStages) : Linked (applyReset s) where
  two_stages := htwo
  wptr := show 0#5 = bin2gray 0#5 by decide
  rptr := show 0#5 = bin2gray 0#5 by decide
  wsync := crossOk_settled _ _
  ovf := crossOk_settled _ _
  mrg := crossOk_settled _ _
  rej := crossOk_settled _ _
  fatal := crossOk_settled _ _
  ack := crossOk_settled _ _
  rsync := crossOk_settled _ _
  req := crossOk_settled _ _
  irq := List.length_replicate
  ksync := List.length_replicate
  outputs := rfl
  ready := rfl

theorem tickStep_staysLinked (k : Tick) {s : State} (h : Linked s) : StaysLinked (tickStep exec k s) := by
  cases k with
  | clk c => exact clkEdge_staysLinked c h
  | aon a => exact aonEdge_staysLinked a h
  | resetAssert => exact goesOnTo_next (linked_applyReset h.two_stages)
  | resetRelease => exact goesOnTo_next h

/-- Settles O56: each kind of tick keeps the links, and taking it changes none. -/
theorem stepKeepsCrossingsAndOutputs : Obligations.StepKeepsCrossingsAndOutputs := by
  intro s t hs h
  obtain ⟨e, hnext, -⟩ := nextTick_snd_eq s
  have hs' : Linked (nextTick s).2 := by
    rw [hnext]
    exact linked_iff.2 hs
  exact linked_iff.1 ((tickStep_staysLinked (nextTick s).1 hs').of_eq_next h)

end Sys2Proof.Proofs
end

