-- ==== Sys2Proof/Proofs/FifoViews.lean ====
section
/-! What each side of the FIFO sees: the producer's occupancy errs upwards and the consumer's COUNT downwards, because
each side's copy of the other's pointer lags behind it (42_event_fifo.md R251, R255, R259). -/

namespace Sys2Proof.Proofs

open Sys2Proof Sys2Proof.Config Sys2Proof.Machine Sys2Proof.Safety

/-- The producer's occupancy is the distance of the write pointer from the producer's view of the read pointer. -/
theorem occP_toNat {s : State} (h : InOrder s) :
    (occP s).toNat = aheadOf (fifoSide s).base s.producer.wptrGray := by
  have hgray : s.producer.wptrGray = bin2gray s.producer.wptr := h.from_base.wptr_gray
  rw [hgray, aheadOf_bin2gray]
  rfl

/-- COUNT is the distance of the consumer's view of the write pointer from the read pointer. -/
theorem countC_toNat {s : State} {b : Ptr} (h : OrderedFrom b (fifoSide s)) :
    (countC s).toNat = aheadOf b (wsyncOut s) - aheadOf b s.consumer.rptrGray := by
  have hgray : s.consumer.rptrGray = bin2gray s.consumer.rptr := h.rptr_gray
  have hdist : (gray2bin (wsyncOut s) - gray2bin s.consumer.rptrGray).toNat =
      aheadOf b (wsyncOut s) - aheadOf b s.consumer.rptrGray := toNat_sub_eq_aheadOf_sub h.rptr_behind_wsyncOut
  rwa [hgray, gray2bin_bin2gray, ← hgray] at hdist

/-- COUNT is 0 exactly where the two gray pointers the consumer sees are equal (42_event_fifo.md R255, R259). -/
theorem countC_eq_zero_iff {s : State} (hr : s.consumer.rptrGray = bin2gray s.consumer.rptr) :
    countC s = 0#5 ↔ emptyC s = true :=
  calc countC s = 0#5
    _ ↔ gray2bin (wsyncOut s) = s.consumer.rptr := sub_eq_zero
    _ ↔ bin2gray (gray2bin (wsyncOut s)) = bin2gray s.consumer.rptr := bin2gray_inj.symm
    _ ↔ emptyC s = true := by rw [bin2gray_gray2bin, emptyC, beq_iff_eq, hr, eq_comm]

/-- Settles O41: both views and the real occupancy are distances along the one trail of copies. -/
theorem fifoViewsAreSafe : Obligations.FifoViewsAreSafe := by
  intro s hgray hcross hord
  have hin := inOrder_of_fifoOrdered hgray hcross hord
  have h := hin.from_base
  have hocc : (s.producer.wptr - s.consumer.rptr).toNat =
      aheadOf _ s.producer.wptrGray - aheadOf _ s.consumer.rptrGray := h.occupancy_eq
  have hspan : aheadOf _ s.producer.wptrGray ≤ 16 := h.span
  have hview : aheadOf _ (wsyncOut s) ≤ aheadOf _ s.producer.wptrGray :=
    h.behind_wptr (List.mem_append_right _ h.wsyncOut_mem)
  have hreal : (s.producer.wptr - s.consumer.rptr).toNat ≤ (occP s).toNat := by
    rw [hocc, occP_toNat hin]
    exact Nat.sub_le _ _
  have hp : (occP s).toNat ≤ 16 := (occP_toNat hin).trans_le hspan
  have hcount : (countC s).toNat ≤ (s.producer.wptr - s.consumer.rptr).toNat := by
    rw [hocc, countC_toNat h]
    exact Nat.sub_le_sub_right hview _
  exact ⟨rfl, hp, hreal, rfl, (hcount.trans hreal).trans hp, hcount, countC_eq_zero_iff hgray.2⟩

end Sys2Proof.Proofs
end

