-- ==== Sys2Proof/Proofs/PutsAndPops.lean ====
section
/-! The put of each source, the reject and the pop, and lists of them: puts fill the FIFO and then drop, pops empty it
in order (42_event_fifo.md R240 to R261). -/

namespace Sys2Proof.Proofs

open Sys2Proof Sys2Proof.Config Sys2Proof.Machine Sys2Proof.Safety

/-! ## The latches -/

/-- Clearing latch `j`, bit by bit. -/
theorem clear_latch_getLsbD (pend : BitVec 6) (j k : Nat) :
    (pend &&& ~~~(1#6 <<< j)).getLsbD k = (pend.getLsbD k && decide (j ≠ k)) := by
  by_cases hk : k < 6
  · have hbit : (decide (k < j) || !decide (k - j = 0)) = decide (j ≠ k) := by
      rw [← decide_not, ← Bool.decide_or, decide_eq_decide]
      omega
    simpa [hk] using congrArg (pend.getLsbD k && ·) hbit
  · simp [BitVec.getLsbD_of_ge pend k (by omega)]

theorem drain_of_latch {q : Source} {j : Nat} (h : q.latch = some j) (s : State) :
    drain q s = s.withProducer { s.producer with pend := s.producer.pend &&& ~~~(1#6 <<< j) } := by
  simp only [drain, h]

/-- The selected latch is cleared, and no other (42_event_fifo.md R248). -/
theorem drain_pend_getLsbD (q : Source) (s : State) (k : Nat) :
    (drain q s).producer.pend.getLsbD k = (s.producer.pend.getLsbD k && decide (q.latch ≠ some k)) := by
  cases hlatch : q.latch with
  | none => simp [drain, hlatch]
  | some j =>
    rw [drain_of_latch hlatch, State.withProducer_producer, clear_latch_getLsbD]
    simp

/-- Draining touches the selected latch, and for the external one `ext_ev_ready`. -/
theorem drain_eq (q : Source) (s : State) :
    drain q s = { s with producer := { s.producer with
      pend := (drain q s).producer.pend
      pendExt := if q.latch = none then false else s.producer.pendExt
      extEvReady := if q.latch = none then true else s.producer.extEvReady } } := by
  cases q <;> rfl

/-! ## One put -/

/-- What a put with room leaves, `latch` being that of its source (42_event_fifo.md R248, R249). -/
structure Stored (latch : Option Nat) (v : Byte) (s t : State) : Prop where
  slot : fifoRead t (slotOf s.producer.wptr) = v
  other_slots : ∀ i, i ≠ slotOf s.producer.wptr → fifoRead t i = fifoRead s i
  pend : ∀ k, t.producer.pend.getLsbD k = (s.producer.pend.getLsbD k && decide (latch ≠ some k))
  frame : t = { s with
    fifo := t.fifo
    producer := { s.producer with
      wptr := s.producer.wptr + 1#5, wptrGray := bin2gray (s.producer.wptr + 1#5), pend := t.producer.pend
      pendExt := if latch = none then false else s.producer.pendExt
      extEvReady := if latch = none then true else s.producer.extEvReady }
    consumer := { s.consumer with
      wsync := { s.consumer.wsync with held := s.consumer.wsync.held ++ [bin2gray (s.producer.wptr + 1#5)] } } }

theorem putFrom_stored {s : State} (q : Source) (v : Byte) (h : fullP s = false) :
    Stored q.latch v s (putFrom q v s) := by
  have hview : fullP (drain q s) = false := (fullP_drain q s).trans h
  rw [putFrom, putEvent_room v hview, drain_eq]
  exact {
    slot := fifoRead_fifoWrite_same (slotOf s.producer.wptr) v s
    other_slots := fun i hi => fifoRead_fifoWrite_other v s hi
    pend := drain_pend_getLsbD q s
    frame := rfl }

/-- A put on a full view drains its latch and records the loss (42_event_fifo.md R249). -/
theorem putFrom_full {s : State} (q : Source) (v : Byte) (h : fullP s = true) :
    putFrom q v s = raiseErr .evqOvf (drain q s) :=
  putEvent_full v ((fullP_drain q s).trans h)

/-- Settles O36: every put is the put stage of its source with the source's word. -/
theorem putStoresTheEvent : Obligations.PutStoresTheEvent := by
  intro s e h p hp
  obtain ⟨q, hlatch, hexec⟩ : ∃ q : Source, q.latch = p.2.1 ∧ exec p.1 s = .next (putFrom q p.2.2 s) := by
    simp only [List.mem_cons, List.not_mem_nil, or_false] at hp
    rcases hp with rfl | rfl | rfl | rfl | rfl | rfl | rfl
    exacts [⟨.timer, rfl, rfl⟩, ⟨.keyLeft, rfl, rfl⟩, ⟨.keyUp, rfl, rfl⟩, ⟨.keyDown, rfl, rfl⟩,
      ⟨.keyRight, rfl, rfl⟩, ⟨.keyEnter, rfl, rfl⟩, ⟨.ext, rfl, rfl⟩]
  obtain ⟨hslot, hother, hpend, hframe⟩ := hlatch ▸ putFrom_stored q p.2.2 h
  exact ⟨_, hexec, hslot, hother, hpend, hframe⟩

/-- Settles O37: on a full view each put is the drain of its latch and the record of the loss. -/
theorem putOnFullDropsTheEvent : Obligations.PutOnFullDropsTheEvent := by
  intro s e h
  have hdrop (q : Source) (v : Byte) : (.next (putFrom q v s) : Out) = .next (raiseErr .evqOvf (drain q s)) :=
    congrArg _ (putFrom_full q v h)
  refine ⟨fun p hp => ?_, hdrop .ext e⟩
  simp only [List.mem_cons, List.not_mem_nil, or_false] at hp
  rcases hp with rfl | rfl | rfl | rfl | rfl | rfl
  exacts [hdrop .timer _, hdrop .keyLeft _, hdrop .keyUp _, hdrop .keyDown _, hdrop .keyRight _, hdrop .keyEnter _]

/-- Settles O38: the reject is the record of `rej` (60_exceptions.md R351, R355). -/
theorem rejectOnlySetsRej : Obligations.RejectOnlySetsRej := fun _ _ => rfl

/-! ## One pop -/

theorem exec_rdEvqPop (s : State) : exec .rdEvqPop s = .next (popEvent s) := rfl

theorem emptyC_eq_true_iff {s : State} : emptyC s = true ↔ s.consumer.rptrGray = wsyncOut s := beq_iff_eq

theorem emptyC_eq_false_iff {s : State} : emptyC s = false ↔ s.consumer.rptrGray ≠ wsyncOut s := beq_eq_false_iff_ne

/-- Settles O39: the two cases of a pop. -/
theorem popTakesTheOldest : Obligations.PopTakesTheOldest := by
  intro s
  refine ⟨fun hempty => ?_, fun hne => ⟨(fifoRead s (slotOf s.consumer.rptr)).setWidth 32, ?_, ?_⟩⟩
  · rw [exec_rdEvqPop, popEvent_empty (emptyC_eq_true_iff.2 hempty), respondRead_eq]
  · exact BitVec.toNat_setWidth_of_le (by decide)
  · rw [exec_rdEvqPop, popEvent_some (emptyC_eq_false_iff.2 hne)]
    rfl

/-! ## Puts with no pops -/

theorem exec_putExt (v : Byte) (s : State) : exec (.putExt v) s = .next (putFrom .ext v s) := rfl

/-- A list of puts with one more at its end. -/
theorem putAll_concat {vs : List Byte} {v : Byte} {s t : State} (h : putAll vs s = .next t) :
    putAll (vs ++ [v]) s = .next (putFrom .ext v t) := by
  induction vs generalizing s with
  | nil =>
    cases h
    rfl
  | cons w vs ih =>
    simp only [putAll, exec_putExt, andThen] at h
    exact ih h

/-- From `s` to `t` the words `vs` have been put: the first 16 stand in the slots from the write pointer of `s` on, and
the others are lost. -/
structure Filled (vs : List Byte) (s t : State) : Prop where
  wptr : t.producer.wptr = s.producer.wptr + BitVec.ofNat 5 (min vs.length 16)
  gray : t.producer.wptrGray = bin2gray t.producer.wptr
  view : rsyncOut t = rsyncOut s
  ovf : t.producer.ovf = (s.producer.ovf || decide (16 < vs.length))
  slots : ∀ k, k < 16 → ∀ v, vs[k]? = some v → fifoRead t (slotOf (s.producer.wptr + BitVec.ofNat 5 k)) = v

/-- From an empty view the producer sees as many events as it has put. -/
theorem Filled.fullP_iff {vs : List Byte} {s t : State} (h : Filled vs s t)
    (hempty : gray2bin (rsyncOut s) = s.producer.wptr) : fullP t = true ↔ 16 ≤ vs.length := by
  have hdist : t.producer.wptr - gray2bin (rsyncOut t) = BitVec.ofNat 5 (min vs.length 16) := by
    rw [h.view, hempty, h.wptr]
    bv_omega
  rw [fullP_iff_sub_eq_16 h.gray, hdist]
  constructor
  · intro heq
    bv_omega
  · intro hle
    rw [Nat.min_eq_right hle]

/-- One more put with room fills the next slot. -/
theorem Filled.concat_room {vs : List Byte} {s t : State} (h : Filled vs s t) (v : Byte) (hroom : vs.length < 16)
    (hfull : fullP t = false) : Filled (vs ++ [v]) s (putFrom .ext v t) := by
  obtain ⟨hslot, hother, -, hframe⟩ := putFrom_stored .ext v hfull
  have hlast : t.producer.wptr = s.producer.wptr + BitVec.ofNat 5 vs.length := by
    rw [h.wptr, Nat.min_eq_left hroom.le]
  refine ⟨?_, ?_, ?_, ?_, fun k hk w hw => ?_⟩
  · rw [hframe]
    simp only [hlast, List.length_append, List.length_singleton, Nat.min_eq_left hroom]
    bv_omega
  · rw [hframe]
  · rw [hframe]
    exact h.view
  · rw [hframe]
    simpa [hroom.not_ge, hroom.not_gt] using h.ovf
  · rcases lt_trichotomy k vs.length with hlt | rfl | hgt
    · rw [List.getElem?_append_left hlt] at hw
      rw [hother _ ?_]
      · exact h.slots k hk w hw
      · rw [hlast]
        exact slotOf_ne_of_unread (r := s.producer.wptr) (by bv_omega) (by bv_omega)
    · rw [← hlast, hslot]
      simpa using hw
    · rw [List.getElem?_eq_none (by simpa using hgt)] at hw
      cases hw

/-- One more put on a full view is lost. -/
theorem Filled.concat_full {vs : List Byte} {s t : State} (h : Filled vs s t) (v : Byte) (hle : 16 ≤ vs.length)
    (hfull : fullP t = true) : Filled (vs ++ [v]) s (putFrom .ext v t) := by
  rw [putFrom_full .ext v hfull]
  refine ⟨?_, h.gray, h.view, ?_, fun k hk w hw => ?_⟩
  · rw [List.length_append, Nat.min_eq_right (by omega), ← Nat.min_eq_right hle]
    exact h.wptr
  · simp [raiseErr, hle]
  · rw [List.getElem?_append_left (hk.trans_le hle)] at hw
    exact h.slots k hk w hw

theorem putAll_filled (vs : List Byte) {s : State} (hgray : s.producer.wptrGray = bin2gray s.producer.wptr)
    (hempty : gray2bin (rsyncOut s) = s.producer.wptr) : ∃ t, putAll vs s = .next t ∧ Filled vs s t := by
  induction vs using List.reverseRecOn with
  | nil => exact ⟨s, rfl, by simp, hgray, rfl, by simp, fun k _ v hv => by simp at hv⟩
  | append_singleton vs v ih =>
    obtain ⟨t, ht, hfilled⟩ := ih
    refine ⟨_, putAll_concat ht, ?_⟩
    have hiff := hfilled.fullP_iff hempty
    cases hfull : fullP t with
    | true => exact hfilled.concat_full v (hiff.1 hfull) hfull
    | false => exact hfilled.concat_room v (not_le.1 (hiff.not.1 (by simp [hfull]))) hfull

/-- Settles O44: a settled FIFO whose pointers are equal is empty to the producer. -/
theorem putsStoreTheFirstSixteen : Obligations.PutsStoreTheFirstSixteen := by
  rintro vs s ⟨hw, hr⟩ hsame hsettled
  have hempty : gray2bin (rsyncOut s) = s.producer.wptr := by rw [hsettled, hr, gray2bin_bin2gray, hsame]
  obtain ⟨t, ht, hfilled⟩ := putAll_filled vs hw hempty
  exact ⟨t, ht, hfilled.wptr, hfilled.ovf, hfilled.slots⟩

/-! ## Pops with no puts -/

theorem popWords_succ (n : Nat) (s : State) :
    popWords (n + 1) s = (popEvent s).bus.hRdata :: popWords n (popEvent s) := rfl

/-- The event `k` places behind the oldest one, as a pop returns it. -/
def heldWord (s : State) (k : Nat) : Word :=
  (fifoRead s (slotOf (s.consumer.rptr + BitVec.ofNat 5 k))).setWidth 32

/-- A pop returns the oldest event. -/
theorem popEvent_hRdata {s : State} (h : emptyC s = false) : (popEvent s).bus.hRdata = heldWord s 0 := by
  simp [popEvent_some h, heldWord]

/-- A pop moves every other event one place on. -/
theorem heldWord_popEvent {s : State} (h : emptyC s = false) : heldWord (popEvent s) = heldWord s ∘ Nat.succ := by
  funext k
  have hptr : s.consumer.rptr + 1#5 + BitVec.ofNat 5 k = s.consumer.rptr + BitVec.ofNat 5 (k + 1) := by bv_omega
  rw [popEvent_some h, Function.comp_apply, heldWord, heldWord, Nat.succ_eq_add_one, ← hptr]
  rfl

/-- With the consumer's copy settled, its view is empty exactly when the FIFO is. -/
theorem emptyC_iff_occupancy {s : State} (hgray : GrayOk s) (hsettled : wsyncOut s = s.producer.wptrGray) :
    emptyC s = true ↔ occupancy s = 0 := by
  obtain ⟨hw, hr⟩ := hgray
  rw [emptyC_eq_true_iff, hsettled, hw, hr, bin2gray_inj, occupancy]
  constructor
  · intro heq
    simp [heq]
  · intro heq
    bv_omega

/-- A pop of an event takes one off the occupancy. -/
theorem occupancy_popEvent {s : State} {n : Nat} (h : emptyC s = false) (hocc : occupancy s = n + 1) :
    occupancy (popEvent s) = n := by
  rw [popEvent_some h]
  unfold occupancy at *
  bv_omega

/-- Settles O45: each pop takes the slot of the read pointer and moves it on, until the FIFO is empty. -/
theorem popsReturnTheEventsInOrder : Obligations.PopsReturnTheEventsInOrder := by
  intro n
  induction n with
  | zero =>
    intro s hgray hsettled hocc
    rw [popWords_succ, popEvent_empty ((emptyC_iff_occupancy hgray hsettled).2 hocc)]
    rfl
  | succ n ih =>
    intro s hgray hsettled hocc
    have hne : emptyC s = false := by
      rw [← Bool.not_eq_true, emptyC_iff_occupancy hgray hsettled]
      omega
    have hgray' : GrayOk (popEvent s) := by rw [popEvent_some hne]; exact ⟨hgray.1, rfl⟩
    have hsettled' : wsyncOut (popEvent s) = (popEvent s).producer.wptrGray := by
      rw [popEvent_some hne]; exact hsettled
    calc popWords (n + 2) s
      _ = heldWord s 0 :: ((List.range n).map (heldWord (popEvent s)) ++ [0#32]) := by
          rw [popWords_succ, popEvent_hRdata hne, ih _ hgray' hsettled' (occupancy_popEvent hne hocc)]
          rfl
      _ = (List.range (n + 1)).map (heldWord s) ++ [0#32] := by
          rw [heldWord_popEvent hne, List.range_succ_eq_map, List.map_cons, List.map_map, List.cons_append]

end Sys2Proof.Proofs
end

