-- ==== Sys2Proof/Proofs/AonEdge.lean ====
section
/-! An aon_clk edge of the producer front end: which source is selected, and what the put, the reject, the capture and
the key history leave in the producer's registers (42_event_fifo.md R241 to R248). -/

namespace Sys2Proof.Proofs

open Sys2Proof Sys2Proof.Config Sys2Proof.Machine Sys2Proof.Safety

/-! ## Latches and sources -/

/-- The source of a latch; EXT has its own. -/
def latchSource : Option Nat → Source
  | some 0 => .timer
  | some 1 => .keyLeft
  | some 2 => .keyUp
  | some 3 => .keyDown
  | some 4 => .keyRight
  | some 5 => .keyEnter
  | _ => .ext

/-- No two sources share a latch. -/
theorem latch_injective : Function.Injective Source.latch :=
  Function.LeftInverse.injective (g := latchSource) fun q => by cases q <;> rfl

theorem latch_latchSource {k : Nat} (hk : k < 6) : (latchSource (some k)).latch = some k := by
  interval_cases k <;> rfl

theorem ne_ext_of_latch {q : Source} {k : Nat} (hq : q.latch = some k) : q ≠ .ext := by
  rintro rfl
  cases hq

theorem latches_eq_zero_iff {x : BitVec 6} : x = 0#6 ↔ ∀ k < 6, x.getLsbD k = false := by
  constructor
  · rintro rfl k -
    exact BitVec.getLsbD_zero
  · exact fun h => BitVec.eq_of_getLsbD_eq fun k hk => by rw [h k hk, BitVec.getLsbD_zero]

theorem latches_ne_zero_iff {x : BitVec 6} : x ≠ 0#6 ↔ ∃ k < 6, x.getLsbD k = true := by
  simp [latches_eq_zero_iff]

/-! ## The selected source (42_event_fifo.md R247) -/

/-- The first of the six latches that is 1. -/
def firstLatch (s : State) : Option Nat := (List.range 6).find? s.producer.pend.getLsbD

theorem firstLatch_eq_some_iff {s : State} {k : Nat} (hk : k < 6) :
    firstLatch s = some k ↔ s.producer.pend.getLsbD k = true ∧ ∀ j < k, s.producer.pend.getLsbD j = false := by
  simp [firstLatch, List.find?_range_eq_some, hk]

theorem firstLatch_eq_none_iff {s : State} : firstLatch s = none ↔ s.producer.pend = 0#6 := by
  simp [firstLatch, latches_eq_zero_iff]

/-- The chain of R247 is a search of the latches in order. -/
theorem select_eq (s : State) :
    select s =
      if firstLatch s = none ∧ s.producer.pendExt = false then none else some (latchSource (firstLatch s)) := by
  rw [select, firstLatch, show List.range 6 = [0, 1, 2, 3, 4, 5] from rfl]
  split_ifs <;> simp_all [latchSource]

/-- The source of the first latch that is 1, else EXT if its latch is 1, else none. -/
theorem select_cases (s : State) :
    (∃ q k, firstLatch s = some k ∧ q.latch = some k ∧ select s = some q) ∨
      firstLatch s = none ∧ select s = if s.producer.pendExt then some .ext else none := by
  cases hfirst : firstLatch s with
  | some k =>
    have hk : k < 6 := List.mem_range.1 (List.mem_of_find?_eq_some hfirst)
    exact .inl ⟨latchSource (some k), k, rfl, latch_latchSource hk, by simp [select_eq, hfirst]⟩
  | none => exact .inr ⟨rfl, by cases hext : s.producer.pendExt <;> simp [select_eq, hfirst, hext, latchSource]⟩

theorem select_eq_latch_iff {s : State} {q : Source} {k : Nat} (hq : q.latch = some k) :
    select s = some q ↔ firstLatch s = some k := by
  rcases select_cases s with ⟨p, i, hfirst, hp, hsel⟩ | ⟨hfirst, hsel⟩
  · rw [hsel, hfirst, Option.some.injEq, ← latch_injective.eq_iff, hp, hq]
  · cases hpend : s.producer.pendExt <;> simp [hsel, hfirst, hpend, (ne_ext_of_latch hq).symm]

theorem select_eq_ext_iff {s : State} :
    select s = some .ext ↔ s.producer.pendExt = true ∧ s.producer.pend = 0#6 := by
  rw [← firstLatch_eq_none_iff]
  rcases select_cases s with ⟨q, k, hfirst, hq, hsel⟩ | ⟨hfirst, hsel⟩
  · simp [hsel, hfirst, ne_ext_of_latch hq]
  · simp [hsel, hfirst]

theorem select_eq_none_iff {s : State} :
    select s = none ↔ s.producer.pendExt = false ∧ s.producer.pend = 0#6 := by
  rw [← firstLatch_eq_none_iff]
  rcases select_cases s with ⟨q, k, hfirst, -, hsel⟩ | ⟨hfirst, hsel⟩
  · simp [hsel, hfirst]
  · simp [hsel, hfirst]

/-! ## The stages of the edge -/

/-- An aon_clk edge out of reset: the put, the reject, the rest (log 16). -/
theorem aonEdge_eq {s : State} (a : AonIn) (h : s.rst.aonInRst = false) :
    aonEdge exec a s =
      andThen (putStage exec s) fun t => andThen (rejectStage exec a t) fun u => .next (aonRest a s u) := by
  simp only [aonEdge, h, Bool.false_eq_true, if_false]

theorem putStage_none {s : State} (h : select s = none) : putStage exec s = .next s := by
  simp only [putStage, h]

theorem putStage_some {s : State} {q : Source} (h : select s = some q) : putStage exec s = exec (q.instr s) s := by
  simp only [putStage, h]

theorem rejectStage_true {a : AonIn} (h : extRejected a = true) (s : State) :
    rejectStage exec a s = exec (.extReject a.extCode) s := by
  simp only [rejectStage, h, if_true]

theorem rejectStage_false {a : AonIn} (h : extRejected a = false) (s : State) : rejectStage exec a s = .next s := by
  simp only [rejectStage, h, Bool.false_eq_true, if_false]

/-- The codes that are not storable: 0, and 8 to 0x7F (30_encoding.md R127). -/
theorem storable_eq_false_iff (e : Byte) :
    storable e = false ↔ e.toNat = 0 ∨ (8 ≤ e.toNat ∧ e.toNat < 0x80) := by
  simp [storable, BitVec.le_def]
  omega

theorem extRejected_iff (a : AonIn) : extRejected a = true ↔
    a.extValid = true ∧ (a.extCode.toNat = 0 ∨ (8 ≤ a.extCode.toNat ∧ a.extCode.toNat < 0x80)) := by
  rw [extRejected, Bool.and_eq_true, Bool.not_eq_true', storable_eq_false_iff]

/-- Settles O5: the three stages of an aon_clk edge, by what is pending and what the port presents. -/
theorem stepRunsTheSelectedPut : Obligations.StepRunsTheSelectedPut := by
  intro s s' a ts hs hrst hs'
  have hedge : step s =
      andThen (putStage exec s') fun t => andThen (rejectStage exec a t) fun u => .next (aonRest a s' u) := by
    rw [step_eq_tickStep hs, hs']
    exact aonEdge_eq a hrst
  refine ⟨extRejected_iff a, fun q t hrej hsel ht => ?_, fun q t u hrej hsel ht hu => ?_, fun u hrej hsel hu => ?_,
    fun hrej hsel => ?_⟩
  · rw [hedge, putStage_some hsel, ht, andThen, rejectStage_false hrej, andThen]
  · rw [hedge, putStage_some hsel, ht, andThen, rejectStage_true hrej, hu, andThen]
  · rw [hedge, putStage_none hsel, andThen, rejectStage_true hrej, hu, andThen]
  · rw [hedge, putStage_none hsel, andThen, rejectStage_false hrej, andThen]

/-! ## What the edge leaves in the producer -/

/-- What the put stage does to the latches and the flags that the rest of the edge reads. -/
structure Drained (s t : State) : Prop where
  pend : t.producer.pend = keptLatches (select s) s.producer.pend
  pendExt : t.producer.pendExt = (s.producer.pendExt && decide (select s ≠ some .ext))
  pendExtCode : t.producer.pendExtCode = s.producer.pendExtCode
  mrg : t.producer.mrg = s.producer.mrg
  rej : t.producer.rej = s.producer.rej
  ksync : t.producer.ksync = s.producer.ksync

theorem drain_pend (q : Source) (s : State) :
    (drain q s).producer.pend = keptLatches (some q) s.producer.pend := by
  cases q <;> rfl

theorem drain_pendExt (q : Source) (s : State) :
    (drain q s).producer.pendExt = (s.producer.pendExt && decide (some q ≠ some .ext)) := by
  cases q <;> simp [drain, Source.latch]

theorem putStage_drained (s : State) : GoesOnTo (Drained s) (putStage exec s) := by
  cases hsel : select s with
  | none =>
    rw [putStage_none hsel]
    refine goesOnTo_next { pend := ?_, pendExt := ?_, pendExtCode := rfl, mrg := rfl, rej := rfl, ksync := rfl }
    · rw [hsel]; rfl
    · simp [hsel]
  | some q =>
    rw [putStage_some hsel, exec_sourceInstr]
    obtain ⟨f, p, c, ht, hpend, hext, -, hcode, hmrg, hrej, -, hksync, -⟩ := putFrom_only q (q.word s) s
    rw [ht]
    refine goesOnTo_next { pend := ?_, pendExt := ?_, pendExtCode := hcode, mrg := hmrg, rej := hrej, ksync := hksync }
    · rw [hsel, ← drain_pend]; exact hpend
    · rw [hsel, ← drain_pendExt]; exact hext

/-- The reject sets `rej` and touches no other register of the producer (42_event_fifo.md R246). -/
theorem rejectStage_producer (a : AonIn) (s : State) :
    GoesOnTo (fun t => t.producer = { s.producer with rej := s.producer.rej || extRejected a })
      (rejectStage exec a s) := by
  cases hrej : extRejected a with
  | true =>
    rw [rejectStage_true hrej]
    refine goesOnTo_next ?_
    rw [Bool.or_true]
    rfl
  | false =>
    rw [rejectStage_false hrej]
    exact goesOnTo_next (by simp)

/-- The capture as the latches, the external code and `mrg` show it (42_event_fifo.md R244, R245). -/
theorem capture_producer (a : AonIn) (pre s : State) :
    (capture a pre s).producer =
      { s.producer with
        pend := s.producer.pend ||| latchEvents a pre
        pendExt := s.producer.pendExt || capturesExt a pre
        pendExtCode := if capturesExt a pre then a.extCode else s.producer.pendExtCode
        extEvReady := !(s.producer.pendExt || capturesExt a pre)
        mrg := s.producer.mrg || merges a pre } := by
  cases hm : merges a pre with
  | true => simp [capture, hm, raiseErr]
  | false => simp [capture, hm]

/-- The power FSM writes no register of the producer. -/
theorem powerEdge_producer (a : AonIn) (src : BitVec 5) (s : State) : (powerEdge a src s).producer = s.producer := by
  obtain ⟨p, f, k, h, -⟩ := powerEdge_only a src s
  rw [h]

/-- From `s` to `t` the producer's front end has taken one edge with the inputs `a`. -/
structure FrontEdge (a : AonIn) (s t : State) : Prop where
  pend : t.producer.pend = keptLatches (select s) s.producer.pend ||| latchEvents a s
  pendExt : t.producer.pendExt = (s.producer.pendExt && decide (select s ≠ some .ext) || capturesExt a s)
  extEvReady : t.producer.extEvReady = !t.producer.pendExt
  pendExtCode : t.producer.pendExtCode = if capturesExt a s then a.extCode else s.producer.pendExtCode
  mrg : t.producer.mrg = (s.producer.mrg || merges a s)
  rej : t.producer.rej = (s.producer.rej || extRejected a)
  kprev : t.producer.kprev = kout s
  ksync : t.producer.ksync = chainClock a.keys s.producer.ksync

theorem aonEdge_frontEdge (a : AonIn) {s : State} (h : s.rst.aonInRst = false) :
    GoesOnTo (FrontEdge a s) (aonEdge exec a s) := by
  rw [aonEdge_eq a h]
  refine (putStage_drained s).andThen fun t ht => (rejectStage_producer a t).andThen fun u hu => goesOnTo_next ?_
  obtain ⟨hpend, hext, hcode, hmrg, hrej, hksync⟩ := ht
  have hrest : (powerEdge a (wakeSources a s) (capture a s u)).producer = _ :=
    (powerEdge_producer _ _ _).trans (capture_producer a s u)
  constructor <;> simp [aonRest, aonSync, kout, hrest, hu, hpend, hext, hcode, hmrg, hrej, hksync]

/-! ## Capture and merge, latch by latch -/

/-- A latch is kept if it was 1 and its source was not selected. -/
theorem keptLatches_getLsbD {q : Source} {k : Nat} (hq : q.latch = some k) (sel : Option Source) (pend : BitVec 6) :
    (keptLatches sel pend).getLsbD k = (pend.getLsbD k && decide (sel ≠ some q)) := by
  cases sel with
  | none => simp [keptLatches]
  | some p =>
    have hpq : p.latch = some k ↔ p = q := by rw [← hq, latch_injective.eq_iff]
    cases hp : p.latch with
    | none => simp [keptLatches, hp, ← hpq]
    | some j =>
      have hkept : keptLatches (some p) pend = pend &&& ~~~(1#6 <<< j) := by simp [keptLatches, hp]
      simp only [hp, Option.some.injEq] at hpq
      rw [hkept, clear_latch_getLsbD]
      simp [← hpq]

/-- An event is lost where its latch is 1 already and is not drained at this edge (42_event_fifo.md R245). -/
theorem merges_iff (a : AonIn) (s : State) : merges a s = true ↔
    (∃ k < 6, ∃ q : Source, q.latch = some k ∧ (latchEvents a s).getLsbD k = true ∧
        s.producer.pend.getLsbD k = true ∧ select s ≠ some q) ∨
      (a.extValid = true ∧ storable a.extCode = true ∧ s.producer.pendExt = true ∧ select s ≠ some .ext) := by
  have hlatches : (latchEvents a s &&& keptLatches (select s) s.producer.pend) ≠ 0#6 ↔
      ∃ k < 6, ∃ q : Source, q.latch = some k ∧ (latchEvents a s).getLsbD k = true ∧
        s.producer.pend.getLsbD k = true ∧ select s ≠ some q := by
    rw [latches_ne_zero_iff]
    refine exists_congr fun k => and_congr_right fun hk => ?_
    constructor
    · intro hbit
      have hq := latch_latchSource hk
      exact ⟨_, hq, by simpa [keptLatches_getLsbD hq] using hbit⟩
    · rintro ⟨q, hq, hbits⟩
      simpa [keptLatches_getLsbD hq] using hbits
  rw [merges, Bool.or_eq_true, bne_iff_ne, hlatches]
  simp [extEvent, and_assoc]

theorem capturesExt_eq (a : AonIn) (s : State) : capturesExt a s =
    (a.extValid && storable a.extCode && !(s.producer.pendExt && decide (select s ≠ some .ext))) := by
  simp [capturesExt, extEvent]

theorem latchEvents_getLsbD_succ (a : AonIn) (s : State) (k : Nat) :
    (latchEvents a s).getLsbD (k + 1) = (keyEvents s).getLsbD k := by
  rw [latchEvents, BitVec.getLsbD_append]
  simp

theorem latchEvents_getLsbD_zero (a : AonIn) (s : State) : (latchEvents a s).getLsbD 0 = a.wktExpire := by
  rw [latchEvents, BitVec.getLsbD_append]
  simp

/-- Settles O47: the selection, and each register of the front end after the edge. -/
theorem captureDrainAndMerge : Obligations.CaptureDrainAndMerge := by
  intro a s t hrst h
  obtain ⟨hpend, hext, hready, hcode, hmrg, hrej, hkprev, hksync⟩ := (aonEdge_frontEdge a hrst).of_eq_next h
  refine ⟨fun p hp => ?_, select_eq_ext_iff, select_eq_none_iff, hrej, fun k _ q hq => ?_, ?_, hready, ?_, ?_, hkprev,
    hksync, fun k => ⟨rfl, latchEvents_getLsbD_succ a s k⟩, latchEvents_getLsbD_zero a s⟩
  · obtain ⟨hlatch, hlt⟩ : p.1.latch = some p.2 ∧ p.2 < 6 := by
      simp only [List.mem_cons, List.not_mem_nil, or_false] at hp
      rcases hp with rfl | rfl | rfl | rfl | rfl | rfl <;> exact ⟨rfl, by decide⟩
    exact ⟨hlatch, (select_eq_latch_iff hlatch).trans (firstLatch_eq_some_iff hlt)⟩
  · rw [hpend, BitVec.getLsbD_or, keptLatches_getLsbD hq]
  · rw [hext, capturesExt_eq]
    cases s.producer.pendExt && decide (select s ≠ some .ext) <;> simp
  · rw [hcode, capturesExt_eq]
  · rw [hmrg, Bool.or_eq_true, merges_iff]

end Sys2Proof.Proofs
end

