-- ==== Sys2Proof/Proofs/SleepCommand.lean ====
section
/-! The SLEEP command in clk: its acceptance, and the wait for the acknowledge (43_power.md R282, R283). -/

namespace Sys2Proof.Proofs

open Sys2Proof Sys2Proof.Config Sys2Proof.Machine Sys2Proof.Safety

/-- Out of an outstanding handshake the toggled request makes BUSY 1 (10_state.md R44). -/
theorem busy_acceptSleep {s : State} (h : s.sleep.pwrReqTgl = pwrAckSync s) (dur : BitVec 24) (deep : BitVec 1)
    (rsv : BitVec 3) : busy (acceptSleep dur deep rsv s) = true := by
  have hack : pwrAckSync (acceptSleep dur deep rsv s) = s.sleep.pwrReqTgl := h.symm
  have hreq : (acceptSleep dur deep rsv s).sleep.pwrReqTgl = !s.sleep.pwrReqTgl := rfl
  simp [busy, hack, hreq]

/-- An accepted SLEEP whose acknowledge equals the request completes. -/
theorem execSleep_acknowledged {s : State} (hslp : s.sleep.slpHeld = true) (hack : pwrAckSync s = s.sleep.pwrReqTgl)
    (dur : BitVec 24) (deep : BitVec 1) (rsv : BitVec 3) : execSleep dur deep rsv s = .next (completeSleep s) := by
  simp [execSleep, hslp, hack]

/-- An accepted SLEEP whose acknowledge does not yet equal the request is held. -/
theorem execSleep_waiting {s : State} (hslp : s.sleep.slpHeld = true) (hack : pwrAckSync s ≠ s.sleep.pwrReqTgl)
    (dur : BitVec 24) (deep : BitVec 1) (rsv : BitVec 3) : execSleep dur deep rsv s = .next (holdAccess s) := by
  simp [execSleep, hslp, hack]

/-- Settles O30: accepted, completed or held, by `slpHeld` and the acknowledge. -/
theorem sleepWaitsForItsAcknowledge : Obligations.SleepWaitsForItsAcknowledge := by
  intro s dur deep rsv
  refine ⟨fun hready => ?_, fun hslp hack => ?_, fun hslp hack => ?_⟩
  · obtain ⟨-, htgl, -, -⟩ := id hready
    exact ⟨_, execSleep_ready hready dur deep rsv, busy_acceptSleep htgl dur deep rsv, ⟨rfl, rfl, rfl⟩,
      acceptSleep_eq dur deep rsv s⟩
  · exact ⟨_, execSleep_acknowledged hslp hack dur deep rsv, rfl, rfl, rfl⟩
  · exact ⟨_, execSleep_waiting hslp hack dur deep rsv, rfl, rfl, rfl⟩

end Sys2Proof.Proofs
end

