-- ==== Sys2Proof/Proofs/PowerEdges.lean ====
section
/-! One edge of aon_clk as the power FSM takes it: what starts a sleep op, what each answer leads to, how each state
waits, and what the wake latch records (43_power.md R284 to R294). -/

namespace Sys2Proof.Proofs

open Sys2Proof Sys2Proof.Config Sys2Proof.Machine

/-! ## The edge, from the power FSM's side -/

/-- `t` differs from `s` at most in the FIFO RAM, the producer and the consumer, there not in the crossing of FATAL:
what the put, the reject and the capture of an edge write. -/
def FrontOnly (s t : State) : Prop :=
  ∃ f p c, t = { s with fifo := f, producer := p, consumer := c } ∧ c.fatalSync = s.consumer.fatalSync

theorem FrontOnly.refl (s : State) : FrontOnly s s := ⟨_, _, _, rfl, rfl⟩

theorem FrontOnly.trans {s t u : State} (h : FrontOnly s t) (k : FrontOnly t u) : FrontOnly s u := by
  obtain ⟨f, p, c, rfl, hc⟩ := h
  obtain ⟨f', p', c', rfl, hc'⟩ := k
  exact ⟨f', p', c', rfl, hc'.trans hc⟩

theorem putStage_frontOnly (s : State) : GoesOnTo (FrontOnly s) (putStage exec s) := by
  cases hsel : select s with
  | none =>
    rw [putStage_none hsel]
    exact goesOnTo_next (.refl s)
  | some q =>
    rw [putStage_some hsel, exec_sourceInstr]
    obtain ⟨f, p, c, hput, -, -, -, -, -, -, -, -, -, -, -, -, -, -, -, hfatal⟩ := putFrom_only q (q.word s) s
    exact goesOnTo_next ⟨f, p, c, hput, hfatal⟩

theorem rejectStage_frontOnly (a : AonIn) (s : State) : GoesOnTo (FrontOnly s) (rejectStage exec a s) := by
  cases hrej : extRejected a with
  | true =>
    rw [rejectStage_true hrej]
    exact goesOnTo_next ⟨_, _, _, rfl, rfl⟩
  | false =>
    rw [rejectStage_false hrej]
    exact goesOnTo_next (.refl s)

theorem capture_frontOnly (a : AonIn) (pre s : State) : FrontOnly s (capture a pre s) := by
  unfold capture
  dsimp only
  split
  · exact ⟨_, _, _, rfl, rfl⟩
  · exact ⟨_, _, _, rfl, rfl⟩

theorem frontOnly_ite {c : Prop} [Decidable c] {s t u v : State} (h : FrontOnly s u) (k : FrontOnly t v) :
    FrontOnly (if c then s else t) (if c then u else v) := by
  split_ifs
  · exact h
  · exact k

/-- The power FSM reads its own record and the operands of the SLEEP command, which the front end does not write. -/
theorem powerEdge_of_frontOnly {s u : State} (h : FrontOnly s u) (a : AonIn) (src : BitVec 5) :
    FrontOnly (powerEdge a src s) (powerEdge a src u) := by
  obtain ⟨f, p, c, rfl, hc⟩ := h
  cases hst : s.power.pstate with
  | idle | sleep | restore =>
    simp only [powerEdge, hst]
    exact frontOnly_ite ⟨_, _, _, rfl, hc⟩ ⟨_, _, _, rfl, hc⟩
  | disarm1 =>
    simp only [powerEdge, hst]
    cases a.wktOk <;> exact frontOnly_ite ⟨_, _, _, rfl, hc⟩ ⟨_, _, _, rfl, hc⟩
  | arm =>
    simp only [powerEdge, hst, armResponse]
    exact frontOnly_ite (frontOnly_ite ⟨_, _, _, rfl, hc⟩ (frontOnly_ite ⟨_, _, _, rfl, hc⟩ ⟨_, _, _, rfl, hc⟩))
      ⟨_, _, _, rfl, hc⟩
  | disarm2 =>
    have hraise : c.fatalSync.push true = s.consumer.fatalSync.push true := congrArg (Cross.push true) hc
    simp only [powerEdge, hst, disarm2Response]
    exact frontOnly_ite
      (frontOnly_ite ⟨_, _, _, rfl, hraise⟩ (frontOnly_ite ⟨_, _, _, rfl, hc⟩ ⟨_, _, _, rfl, hc⟩)) ⟨_, _, _, rfl, hc⟩
  | fatal =>
    simp only [powerEdge, hst]
    exact ⟨_, _, _, rfl, hc⟩

/-- The FSM does not touch the chain of `irq_any`. -/
theorem powerEdge_irqChain (a : AonIn) (src : BitVec 5) (s : State) :
    (powerEdge a src s).power.irqChain = s.power.irqChain := by
  cases hst : s.power.pstate with
  | idle => rw [powerEdge_idle a src hst]; split_ifs <;> rfl
  | disarm1 => rw [powerEdge_disarm1 a src hst, disarm1Response]; split_ifs <;> rfl
  | arm => rw [powerEdge_arm a src hst, armResponse]; split_ifs <;> rfl
  | sleep => rw [powerEdge_sleep a src hst]; split_ifs <;> rfl
  | disarm2 => rw [powerEdge_disarm2 a src hst, disarm2Response]; split_ifs <;> rfl
  | restore => rw [powerEdge_restore a src hst]; split_ifs <;> rfl
  | fatal => rw [powerEdge_fatal a src hst]; rfl

/-- From `s` to `t` the power FSM has taken one edge with the inputs `a`, out of reset: its own rule, and one edge of the
two chains into it. -/
structure FsmEdge (a : AonIn) (s t : State) : Prop where
  power : t.power =
    { (powerEdge a (wakeSources a s) s).power with
      reqChain := s.power.reqChain.clock false a.reqPick
      irqChain := chainClock a.irqAny s.power.irqChain }
  fatalSync : t.consumer.fatalSync = (powerEdge a (wakeSources a s) s).consumer.fatalSync
  rst : t.rst = s.rst
  env : t.env = s.env

theorem powerEdge_rst_env (a : AonIn) (src : BitVec 5) (s : State) :
    (powerEdge a src s).rst = s.rst ∧ (powerEdge a src s).env = s.env := by
  obtain ⟨p, f, k, h, -⟩ := powerEdge_only a src s
  rw [h]
  exact ⟨rfl, rfl⟩

theorem aonEdge_fsmEdge (a : AonIn) {s : State} (h : s.rst.aonInRst = false) :
    GoesOnTo (FsmEdge a s) (aonEdge exec a s) := by
  rw [aonEdge_eq a h]
  refine (putStage_frontOnly s).andThen fun t ht => (rejectStage_frontOnly a t).andThen fun u hu => goesOnTo_next ?_
  obtain ⟨f, p, c, hedge, hfatal⟩ :=
    powerEdge_of_frontOnly ((ht.trans hu).trans (capture_frontOnly a s u)) a (wakeSources a s)
  obtain ⟨hrst, henv⟩ := powerEdge_rst_env a (wakeSources a s) s
  have hsync : aonRest a s u = aonSync a _ := congrArg (aonSync a) hedge
  rw [hsync]
  exact {
    power := by simp [aonSync, reqChain_powerEdge, powerEdge_irqChain]
    fatalSync := hfatal
    rst := hrst
    env := henv }

/-- Settles O48: in IDLE with a request the FSM's rule is the start of a sleep op. -/
theorem sleepOpStarts : Obligations.SleepOpStarts := by
  intro a s hrst hidle hreq
  obtain ⟨t, ht, hedge⟩ := aonEdge_fsmEdge a hrst
  have hpower := hedge.power
  rw [powerEdge_idle a _ hidle, if_neg hreq] at hpower
  refine ⟨t, ht, ?_⟩
  rw [hpower]
  exact ⟨rfl, rfl, rfl, rfl, rfl, rfl, rfl, rfl, rfl, rfl, rfl, rfl, rfl, rfl⟩

/-! ## Waiting -/

/-- With no response an edge only ends the request pulse and latches the wake sources (43_power.md R285, R287). -/
theorem tick_no_response {a : AonIn} {p : Power} (h : p.wktWait = false ∨ a.wktAck = false) (src : BitVec 5) :
    p.tick a src =
      { p with wktReq := false, wakeCause := (p.tick a src).wakeCause, wakePend := (p.tick a src).wakePend } := by
  have hwait : (p.wktWait && !a.wktAck) = p.wktWait := by rcases h with h | h <;> simp [h]
  rw [Power.tick, hwait]

/-- Outside the latch's window an edge touches neither record of a wake (43_power.md R287). -/
theorem tick_not_latching {p : Power} (h : p.pstate.latchesWake = false) (a : AonIn) (src : BitVec 5) :
    p.tick a src = { p with wktReq := false, wktWait := (p.tick a src).wktWait } := by
  simp [Power.tick, h]

/-- In the latch's window an edge adds the active sources (43_power.md R287). -/
theorem tick_latching {p : Power} (h : p.pstate.latchesWake = true) (a : AonIn) (src : BitVec 5) :
    (p.tick a src).wakeCause = p.wakeCause ||| src ∧ (p.tick a src).wakePend = (p.wakePend || decide (src ≠ 0#5)) := by
  rw [decide_not, ← beq_eq_decide, Power.tick, if_pos h, h, Bool.true_and]
  exact ⟨rfl, rfl⟩

/-- The states that wait for the timer do nothing of their own without its response. -/
theorem powerEdge_no_response {a : AonIn} {s : State}
    (hst : s.power.pstate = .disarm1 ∨ s.power.pstate = .arm ∨ s.power.pstate = .disarm2)
    (h : s.power.wktWait = false ∨ a.wktAck = false) (src : BitVec 5) :
    powerEdge a src s = s.withPower (s.power.tick a src) := by
  have hresp : (s.power.wktWait && a.wktAck) = false := Bool.and_eq_false_iff.2 h
  rcases hst with hst | hst | hst
  · simp [powerEdge_disarm1 a src hst, hresp]
  · simp [powerEdge_arm a src hst, hresp]
  · simp [powerEdge_disarm2 a src hst, hresp]

/-- RESTORE does nothing of its own without the clock controller's answer. -/
theorem powerEdge_no_restoreAck {a : AonIn} {s : State} (hst : s.power.pstate = .restore) (h : a.restoreAck = false)
    (src : BitVec 5) : powerEdge a src s = s.withPower (s.power.tick a src) := by
  simp [powerEdge_restore a src hst, h]

/-! ## The wake sources (43_power.md R286) -/

/-- Five flags side by side, bit by bit: each of the 32 words. -/
theorem flags_getLsbD : ∀ b₀ b₁ b₂ b₃ b₄ : Bool,
    let w := BitVec.ofBool b₄ ++ BitVec.ofBool b₃ ++ BitVec.ofBool b₂ ++ BitVec.ofBool b₁ ++ BitVec.ofBool b₀
    w.getLsbD 0 = b₀ ∧ w.getLsbD 1 = b₁ ∧ w.getLsbD 2 = b₂ ∧ w.getLsbD 3 = b₃ ∧ w.getLsbD 4 = b₄ ∧
      (w ≠ 0#5 ↔ b₀ = true ∨ b₁ = true ∨ b₂ = true ∨ b₃ = true ∨ b₄ = true) := by
  decide

theorem wakeSources_ne_zero_iff (a : AonIn) (s : State) :
    wakeSources a s ≠ 0#5 ↔ a.wktExpire = true ∨ keyEvents s ≠ 0#5 ∨ a.extValid = true ∨
      chainOut false s.power.irqChain = true ∨ s.producer.wptr ≠ gray2bin (rsyncOut s) := by
  obtain ⟨-, -, -, -, -, h⟩ := flags_getLsbD a.wktExpire (keyEvents s != 0#5) a.extValid
    (chainOut false s.power.irqChain) (s.producer.wptr != gray2bin (rsyncOut s))
  rw [bne_iff_ne, bne_iff_ne] at h
  exact h

/-- No wake has been seen before this edge, and none is seen at it. -/
theorem no_wake_iff (a : AonIn) (s : State) :
    (s.power.wakePend || wakeSources a s != 0#5) = false ↔ s.power.wakePend = false ∧ wakeSources a s = 0#5 := by
  simp

/-- A wake has been seen before this edge, or is seen at it. -/
theorem wake_iff (a : AonIn) (s : State) :
    (s.power.wakePend || wakeSources a s != 0#5) = true ↔ s.power.wakePend = true ∨ a.wktExpire = true ∨
      keyEvents s ≠ 0#5 ∨ a.extValid = true ∨ chainOut false s.power.irqChain = true ∨
      s.producer.wptr ≠ gray2bin (rsyncOut s) := by
  rw [Bool.or_eq_true, bne_iff_ne, wakeSources_ne_zero_iff]

/-! ## The first disarm, the arm, and the sleep -/

/-- An arm that failed, or a wake before the sleep: the second disarm (43_power.md R289). -/
theorem armResponse_skip {ok wake : Bool} (h : ok = false ∨ wake = true) (s : State) :
    armResponse ok wake s = issueAndEnter false .disarm2 (if ok then s else raiseErr .armFail s) := by
  cases ok with
  | false => rfl
  | true => simp [armResponse, h.resolve_left Bool.noConfusion]

/-- Settles O49: each state's rule at its response, without one, and in SLEEP. -/
theorem armAndSleep : Obligations.ArmAndSleep := by
  intro a s hrst
  obtain ⟨t, ht, hedge⟩ := aonEdge_fsmEdge a hrst
  have hpower := hedge.power
  refine ⟨fun hst hwait hack => ⟨t, ht, ?_⟩, fun hst hno => ⟨t, ht, ?_⟩, fun hst hwait hack => ⟨t, ht, ?_⟩,
    fun hst => ⟨t, ht, ?_⟩⟩
  · rw [powerEdge_disarm1 a _ hst, hwait, hack, Bool.and_self, if_pos rfl] at hpower
    rw [hpower]
    cases a.wktOk with
    | true => exact ⟨rfl, (Bool.or_false _).symm, rfl, rfl, rfl, rfl, rfl⟩
    | false => exact ⟨rfl, (Bool.or_true _).symm, rfl, rfl, rfl, rfl, rfl⟩
  · rw [powerEdge_no_response (hst.imp_right .inl) hno] at hpower
    rw [hpower, State.withPower_power, tick_no_response hno]
  · rw [powerEdge_arm a _ hst, hwait, hack, Bool.and_self, if_pos rfl] at hpower
    by_cases hsleep : a.wktOk = true ∧ s.power.wakePend = false ∧ wakeSources a s = 0#5
    · rw [if_pos hsleep]
      obtain ⟨hok, hquiet⟩ := hsleep
      have hwait' : (s.power.tick a (wakeSources a s)).wktWait = false := by simp [Power.tick, hack]
      rw [hok, (no_wake_iff a s).2 hquiet] at hpower
      rw [hpower, hok]
      exact ⟨(Bool.or_false _).symm, rfl, rfl, rfl, hwait', rfl, rfl, rfl⟩
    · rw [if_neg hsleep]
      rw [← no_wake_iff, not_and_or, Bool.not_eq_true, Bool.not_eq_false] at hsleep
      rw [armResponse_skip hsleep] at hpower
      rw [hpower]
      cases a.wktOk with
      | true => exact ⟨(Bool.or_false _).symm, rfl, rfl, rfl, rfl, rfl, rfl⟩
      | false => exact ⟨(Bool.or_true _).symm, rfl, rfl, rfl, rfl, rfl, rfl⟩
  · rw [powerEdge_sleep a _ hst] at hpower
    by_cases hwake : (s.power.wakePend || wakeSources a s != 0#5) = true
    · rw [if_pos hwake] at hpower
      rw [if_pos ((wake_iff a s).1 hwake), hpower]
      exact ⟨rfl, rfl, rfl, rfl, rfl, rfl⟩
    · rw [if_neg hwake] at hpower
      rw [if_neg (mt (wake_iff a s).2 hwake), hpower]
      exact ⟨hst, rfl⟩

/-! ## The second disarm and the clock restore -/

/-- After a deep sleep that slept, the clocks are restored (43_power.md R292). -/
theorem disarm2Response_deep {s : State} (h : s.power.pDeep = true ∧ s.power.slept = true) :
    disarm2Response true s = s.withPower (s.power.enter .restore) := by
  rw [← Bool.and_eq_true_iff] at h
  exact if_pos h

/-- After any other op the second disarm completes it (43_power.md R292). -/
theorem disarm2Response_complete {s : State} (h : ¬ (s.power.pDeep = true ∧ s.power.slept = true)) :
    disarm2Response true s = completePower s := by
  rw [← Bool.and_eq_true_iff] at h
  exact if_neg h

/-- Settles O50: each state's rule at its answer, and without one. -/
theorem secondDisarmAndRestore : Obligations.SecondDisarmAndRestore := by
  intro a s hrst
  obtain ⟨t, ht, hedge⟩ := aonEdge_fsmEdge a hrst
  have hpower := hedge.power
  refine ⟨fun hst hwait hack => ⟨t, ht, ?_⟩, fun hst hack => ⟨t, ht, ?_⟩, fun hno => ⟨t, ht, ?_⟩⟩
  · rw [powerEdge_disarm2 a _ hst, hwait, hack, Bool.and_self, if_pos rfl] at hpower
    cases hok : a.wktOk with
    | false =>
      rw [hok] at hpower
      rw [if_pos rfl, hpower]
      exact ⟨rfl, rfl, rfl, rfl, rfl⟩
    | true =>
      rw [if_neg (by decide)]
      by_cases hdeep : s.power.pDeep = true ∧ s.power.slept = true
      · rw [hok, disarm2Response_deep (s := s.withPower (s.power.tick a _)) hdeep] at hpower
        rw [if_pos hdeep, hpower]
        exact ⟨rfl, rfl, rfl⟩
      · rw [hok, disarm2Response_complete (s := s.withPower (s.power.tick a _)) hdeep] at hpower
        rw [if_neg hdeep, hpower]
        exact ⟨rfl, rfl, rfl⟩
  · rw [powerEdge_restore a _ hst, if_pos hack] at hpower
    rw [hpower]
    exact ⟨rfl, rfl, rfl, rfl⟩
  · rcases hno with ⟨hst, hno⟩ | ⟨hst, hno⟩
    · rw [powerEdge_no_response (.inr (.inr hst)) hno, State.withPower_power] at hpower
      rw [hpower]
      refine ⟨by rw [tick_not_latching (by rw [hst]; rfl)], fun _ => ?_⟩
      rw [tick_no_response hno]
    · rw [powerEdge_no_restoreAck hst hno, State.withPower_power] at hpower
      rw [hpower]
      exact ⟨by rw [tick_not_latching (by rw [hst]; rfl)], fun hst' => absurd (hst.symm.trans hst') (by decide)⟩

/-! ## The wake latch -/

/-- But for the start of a sleep op, what an edge does to the wake latch it does whatever the state's own rule. -/
theorem powerEdge_wake {s : State} (h : s.power.pstate = .idle → pwrReqSync s = s.power.pwrAckTgl) (a : AonIn)
    (src : BitVec 5) :
    (powerEdge a src s).power.wakeCause = (s.power.tick a src).wakeCause ∧
      (powerEdge a src s).power.wakePend = (s.power.tick a src).wakePend := by
  cases hst : s.power.pstate with
  | idle => rw [powerEdge_idle a src hst, if_pos (h hst)]; exact ⟨rfl, rfl⟩
  | disarm1 => rw [powerEdge_disarm1 a src hst, disarm1Response]; split_ifs <;> exact ⟨rfl, rfl⟩
  | arm => rw [powerEdge_arm a src hst, armResponse]; split_ifs <;> exact ⟨rfl, rfl⟩
  | sleep => rw [powerEdge_sleep a src hst]; split_ifs <;> exact ⟨rfl, rfl⟩
  | disarm2 => rw [powerEdge_disarm2 a src hst, disarm2Response]; split_ifs <;> exact ⟨rfl, rfl⟩
  | restore => rw [powerEdge_restore a src hst]; split_ifs <;> exact ⟨rfl, rfl⟩
  | fatal => rw [powerEdge_fatal a src hst]; exact ⟨rfl, rfl⟩

/-- A key has an event where its last sample was 0 and its new one is 1 (42_event_fifo.md R242). -/
theorem keyEvents_getLsbD (s : State) {k : Nat} (hk : k < 5) :
    (keyEvents s).getLsbD k = (!s.producer.kprev.getLsbD k && (kout s).getLsbD k) := by
  rw [keyEvents, BitVec.getLsbD_and, BitVec.getLsbD_not, decide_eq_true hk, Bool.true_and]

theorem keyEvents_eq_zero_iff (s : State) : keyEvents s = 0#5 ↔ ∀ k < 5, (keyEvents s).getLsbD k = false := by
  constructor
  · intro h k _
    rw [h, BitVec.getLsbD_zero]
  · exact fun h => BitVec.eq_of_getLsbD_eq fun k hk => by rw [h k hk, BitVec.getLsbD_zero]

theorem keyEvents_ne_zero_iff (s : State) :
    keyEvents s ≠ 0#5 ↔ ∃ k < 5, s.producer.kprev.getLsbD k = false ∧ (kout s).getLsbD k = true := by
  rw [ne_eq, keyEvents_eq_zero_iff]
  push Not
  refine exists_congr fun k => and_congr_right fun hk => ?_
  simp [keyEvents_getLsbD s hk]

/-- Settles O51: the sources flag by flag, and the latch by whether the state is in its window. -/
theorem wakeLatchRecordsSources : Obligations.WakeLatchRecordsSources := by
  intro a s t hrst h
  have hedge := (aonEdge_fsmEdge a hrst).of_eq_next h
  have hpower := hedge.power
  obtain ⟨htimer, hkey, hext, hirq, hfifo, -⟩ := flags_getLsbD a.wktExpire (keyEvents s != 0#5) a.extValid
    (chainOut false s.power.irqChain) (s.producer.wptr != gray2bin (rsyncOut s))
  refine ⟨⟨htimer, ?_, hext, hirq, ?_⟩, by rw [hpower]; rfl, fun hst => ?_, fun hst => ?_⟩
  · rw [← keyEvents_ne_zero_iff, ← bne_iff_ne]
    exact Eq.congr_left hkey
  · rw [← bne_iff_ne]
    exact Eq.congr_left hfifo
  · have hwindow : s.power.pstate.latchesWake = true := by rcases hst with hst | hst | hst <;> rw [hst] <;> rfl
    obtain ⟨hcause, hpend⟩ := powerEdge_wake (s := s) (fun hidle => by simp [hidle] at hst) a (wakeSources a s)
    obtain ⟨hcause', hpend'⟩ := tick_latching hwindow a (wakeSources a s)
    rw [hpower]
    exact ⟨hcause.trans hcause', hpend.trans hpend'⟩
  · have hwindow : s.power.pstate.latchesWake = false := by
      rcases hst with hst | hst | hst | ⟨hst, -⟩ <;> rw [hst] <;> rfl
    obtain ⟨hcause, hpend⟩ := powerEdge_wake (s := s) (fun hidle => by simpa [hidle] using hst) a (wakeSources a s)
    rw [tick_not_latching hwindow] at hcause hpend
    rw [hpower]
    exact ⟨hcause, hpend⟩

end Sys2Proof.Proofs
end

