-- ==== Sys2Proof/Proofs/PowerSteps.lean ====
section
/-! What a step can do to the power FSM: a reset, nothing, or one edge of aon_clk. From it, the order of the requests of
a sleep op (43_power.md R295) and that FATAL has no exit but reset (43_power.md R294). -/

namespace Sys2Proof.Proofs

open Sys2Proof Sys2Proof.Config Sys2Proof.Machine Sys2Proof.Safety

/-! ## The reset lines and the ticks to come -/

/-- `t` has the reset lines and the ticks to come of `s`. -/
structure SameTiming (s t : State) : Prop where
  rst : t.rst = s.rst
  env : t.env = s.env

theorem SameTiming.trans {s t u : State} (h : SameTiming s t) (k : SameTiming t u) : SameTiming s u :=
  ⟨k.rst.trans h.rst, k.env.trans h.env⟩

theorem sameTiming_of_engineOnly {s t : State} (h : EngineOnly s t) : SameTiming s t := by
  obtain ⟨e, p, f, r, rfl⟩ := h
  exact ⟨rfl, rfl⟩

/-- The outcome is a next state with the reset lines and the ticks to come of `s`. -/
abbrev KeepsTiming (s : State) : Out → Prop := GoesOnTo (SameTiming s)

theorem cmdWrite_keepsTiming {accept : State → State} {s : State} (h : SameTiming s (accept s)) :
    KeepsTiming s (cmdWrite accept s) := by
  rcases cmdWrite_cases accept s with ⟨-, hheld⟩ | ⟨-, hdone⟩
  · exact ⟨_, hheld, rfl, rfl⟩
  · exact ⟨_, hdone, h.trans ⟨rfl, rfl⟩⟩

theorem acceptOp_sameTiming (op : BitVec 4) (args : BitVec 28) (s : State) : SameTiming s (acceptOp op args s) :=
  sameTiming_of_engineOnly (acceptOp_only op args s)

theorem execInit_keepsTiming (contrast bias : BitVec 8) (rsv : BitVec 12) (s : State) :
    KeepsTiming s (execInit contrast bias rsv s) :=
  have hflag (x : Regs) : SameTiming s (s.withRegs x) := ⟨rfl, rfl⟩
  cmdWrite_keepsTiming ((hflag _).trans (acceptOp_sameTiming _ _ _))

theorem reservedWrite_keepsTiming (op : BitVec 4) (arg : BitVec 28) (s : State) :
    KeepsTiming s (reservedWrite op arg s) :=
  cmdWrite_keepsTiming ((acceptOp_sameTiming op arg s).trans ⟨rfl, rfl⟩)

theorem execSleep_keepsTiming (dur : BitVec 24) (deep : BitVec 1) (rsv : BitVec 3) (s : State) :
    KeepsTiming s (execSleep dur deep rsv s) := by
  unfold execSleep
  split_ifs <;> exact goesOnTo_next ⟨rfl, rfl⟩

theorem exec_cmd_keepsTiming {i : Instr} (hi : i.kind = .cmd) (s : State) : KeepsTiming s (exec i s) := by
  cases i with
  | sleep dur deep rsv => exact execSleep_keepsTiming dur deep rsv s
  | init contrast bias rsv => exact execInit_keepsTiming contrast bias rsv s
  | nop | setpix | getpix | clear | flush | setcontrast | dispctl | settempco =>
    exact cmdWrite_keepsTiming (acceptOp_sameTiming _ _ s)
  | rsvdA | rsvdB | rsvdC | rsvdD | rsvdE | rsvdF => exact reservedWrite_keepsTiming _ _ s
  | _ => cases hi

theorem execRdResult_keepsTiming (s : State) : KeepsTiming s (execRdResult s) := by
  unfold execRdResult
  split_ifs <;> exact goesOnTo_next ⟨rfl, rfl⟩

theorem popEvent_sameTiming (s : State) : SameTiming s (popEvent s) := by
  cases hempty : emptyC s with
  | true => rw [popEvent_empty hempty]; exact ⟨rfl, rfl⟩
  | false => rw [popEvent_some hempty]; exact ⟨rfl, rfl⟩

theorem exec_access_keepsTiming {i : Instr} (hi : i.kind = .access) (s : State) : KeepsTiming s (exec i s) := by
  cases i with
  | wrCmd w =>
    change KeepsTiming s (execWrCmd w s)
    rw [execWrCmd_eq_exec_decodeCmd]
    exact exec_cmd_keepsTiming (decodeCmd_kind w) s
  | rdResult => exact execRdResult_keepsTiming s
  | rdEvqPop => exact goesOnTo_next (popEvent_sameTiming s)
  | rdId | wrId | rdCtrl | wrCtrl | rdStatus | wrStatus | rdCmd | wrResult | wrEvqPop | rdEvqStat | wrEvqStat
  | rdPwrStat | wrPwrStat | rdRsvd20 | rdRsvd40 | rdRsvd80 | wrRsvd20 | wrRsvd40 | wrRsvd80 | busErr =>
    exact goesOnTo_next ⟨rfl, rfl⟩
  | _ => cases hi

theorem retire_sameTiming (s : State) : SameTiming s (retire s) := by
  unfold retire
  split_ifs <;> exact ⟨rfl, rfl⟩

theorem busStage_keepsTiming (s : State) : KeepsTiming s (busStage exec s) := by
  unfold busStage
  split
  · exact goesOnTo_next ⟨rfl, rfl⟩
  · next i hi =>
    obtain ⟨r, -, rfl⟩ := Option.map_eq_some_iff.1 hi
    exact (exec_access_keepsTiming (decodeReq_kind r) s).andThen fun t ht =>
      goesOnTo_next (ht.trans (retire_sameTiming t))

/-- A clk edge changes neither the ticks to come nor whether aon_clk is in reset. -/
theorem clkEdge_keepsAonReset (c : ClkIn) (s : State) :
    GoesOnTo (fun t => t.rst.aonInRst = s.rst.aonInRst ∧ t.env = s.env) (clkEdge exec c s) := by
  cases hrst : s.rst.clkInRst with
  | true => exact ⟨issueAccess c.req (clkResetEdge c s), by simp [clkEdge, hrst], rfl, rfl⟩
  | false =>
    rw [clkEdge_eq c hrst]
    refine (busStage_keepsTiming (issueAccess c.req s)).andThen fun t ht => ?_
    have hengine : KeepsTiming t (if s.engine.estate = .run then engineStage exec t else .next t) := by
      split_ifs
      · exact ⟨_, engineStage_eq t, sameTiming_of_engineOnly (engineStage_only (engineStage_eq t))⟩
      · exact goesOnTo_next ⟨rfl, rfl⟩
    refine hengine.andThen fun u hu => goesOnTo_next ?_
    obtain ⟨hrst, henv⟩ := ht.trans hu
    exact ⟨congrArg Reset.aonInRst hrst, henv⟩

/-! ## What a step can do to the power FSM -/

/-- From `x` to `y` a crossing has taken at most one edge of its destination clock, in reset or out of it. -/
def Carried {α : Type} (x y : Cross α) : Prop := ∀ v, x.held.getLast? = some v → Retimed x y

theorem Carried.refl {α : Type} (x : Cross α) : Carried x x := fun _ _ => .refl x

theorem clkEdge_fatalSync (c : ClkIn) (s : State) :
    GoesOnTo (fun t => Carried s.consumer.fatalSync t.consumer.fatalSync) (clkEdge exec c s) := by
  cases hrst : s.rst.clkInRst with
  | true => exact ⟨issueAccess c.req (clkResetEdge c s), by simp [clkEdge, hrst], fun _ h => retimed_close false h⟩
  | false =>
    obtain ⟨t, u, hhost, ⟨honly, -⟩, hedge⟩ := clkEdge_effect c hrst
    obtain ⟨e, p, f, r, rfl⟩ := honly
    obtain ⟨-, -, -, rp, g, hcons⟩ := hhost.frame
    refine ⟨_, hedge, fun v hv => ?_⟩
    simp only [clkSync, State.withSleep_consumer, State.withConsumer_consumer, hcons]
    exact retimed_clock false _ hv

/-- What the tick `k` does to the power FSM from `s` to `t`: a reset, which begins another epoch; no edge of its own; or
an edge out of reset. -/
inductive FsmStep (k : Tick) (s t : State) : Prop
  | reset (hepoch : t.env.epoch ≠ s.env.epoch) (hidle : t.power.pstate = .idle) (hk : ∀ a, k ≠ .aon a)
  | hold (hepoch : t.env.epoch = s.env.epoch)
      (hpower : ∃ x, t.power = { s.power with reqChain := x })
      (hfatal : Carried s.consumer.fatalSync t.consumer.fatalSync)
      (hrst : s.rst.aonInRst = false → t.rst.aonInRst = false ∧ ∀ a, k ≠ .aon a)
  | edge (a : AonIn) (hk : k = .aon a) (hedge : FsmEdge a s t)

theorem tickStep_fsmStep (k : Tick) (s : State) : GoesOnTo (FsmStep k s) (tickStep exec k s) := by
  cases k with
  | clk c =>
    obtain ⟨t, ht, hheld⟩ := clkEdge_keepsAon c s
    obtain ⟨hrst, henv⟩ := (clkEdge_keepsAonReset c s).of_eq_next ht
    have hfatal := (clkEdge_fatalSync c s).of_eq_next ht
    exact ⟨t, ht, .hold (congrArg Env.epoch henv) ⟨_, hheld.power⟩ hfatal fun h => ⟨hrst.trans h, fun _ => nofun⟩⟩
  | aon a =>
    cases hrst : s.rst.aonInRst with
    | true =>
      exact ⟨aonResetEdge a s, by simp [tickStep, aonEdge, hrst],
        .hold rfl ⟨_, rfl⟩ (.refl _) fun h => absurd (hrst.symm.trans h) (by decide)⟩
    | false => exact (aonEdge_fsmEdge a hrst).imp fun t ⟨ht, hedge⟩ => ⟨ht, .edge a rfl hedge⟩
  | resetAssert => exact goesOnTo_next (.reset (Nat.succ_ne_self _) rfl fun _ => nofun)
  | resetRelease => exact goesOnTo_next (.hold rfl ⟨_, rfl⟩ (.refl _) fun h => ⟨h, fun _ => nofun⟩)

theorem step_fsmStep {s t : State} (h : step s = .next t) :
    ∃ e, e.epoch = s.env.epoch ∧ FsmStep (nextTick s).1 (s.withEnv e) t := by
  obtain ⟨e, hnext, he⟩ := nextTick_snd_eq s
  rw [step, stepWith, hnext] at h
  exact ⟨e, he, (tickStep_fsmStep _ _).of_eq_next h⟩

/-! ## The requests of a sleep op -/

/-- The requests a sleep op has issued when the FSM is in a state; in IDLE, when it is over (43_power.md R295). -/
def requestsBy : PowerState → List Bool
  | .disarm1 => [false]
  | .arm | .sleep => [false, true]
  | .disarm2 | .restore | .fatal | .idle => [false, true, false]

/-- The request that an edge leaving the record `p` has issued. -/
def issuedRequest (p : Power) : List Bool := if p.wktReq then [p.wktOp] else []

/-- An edge that only ends the pulse of the request before issues none. -/
theorem requestsBy_tick {p : Power} {st : PowerState} (h : p.pstate = st) (a : AonIn) (src : BitVec 5) :
    requestsBy st ++ issuedRequest (p.tick a src) = requestsBy (p.tick a src).pstate := by
  subst h
  exact List.append_nil _

/-- Whatever an edge does, the requests stay as far along as the state says. -/
theorem requestsBy_powerEdge {s : State} (h : s.power.pstate ≠ .idle) (a : AonIn) (src : BitVec 5) :
    requestsBy s.power.pstate ++ issuedRequest (powerEdge a src s).power =
      requestsBy (powerEdge a src s).power.pstate := by
  cases hst : s.power.pstate with
  | idle => exact absurd hst h
  | disarm1 =>
    rw [powerEdge_disarm1 a src hst]
    split_ifs
    · rfl
    · exact requestsBy_tick hst a src
  | arm =>
    rw [powerEdge_arm a src hst, armResponse]
    split_ifs
    · rfl
    · rfl
    · rfl
    · exact requestsBy_tick hst a src
  | sleep =>
    rw [powerEdge_sleep a src hst]
    split_ifs
    · rfl
    · exact requestsBy_tick hst a src
  | disarm2 =>
    rw [powerEdge_disarm2 a src hst, disarm2Response]
    split_ifs
    · rfl
    · rfl
    · rfl
    · exact requestsBy_tick hst a src
  | restore =>
    rw [powerEdge_restore a src hst]
    split_ifs
    · rfl
    · exact requestsBy_tick hst a src
  | fatal =>
    rw [powerEdge_fatal a src hst]
    exact requestsBy_tick hst a src

/-- The request that the step from `s` to `t` has issued: at edges of aon_clk only. -/
def stepRequest (s t : State) : List Bool := if aonNext s && t.power.wktReq then [t.power.wktOp] else []

theorem stepRequest_aon {s t : State} (h : aonNext s = true) : stepRequest s t = issuedRequest t.power := by
  simp [stepRequest, issuedRequest, h]

theorem stepRequest_other {s t : State} (h : aonNext s = false) : stepRequest s t = [] := by
  simp [stepRequest, h]

theorem aonNext_true {s : State} {a : AonIn} (h : (nextTick s).1 = .aon a) : aonNext s = true := by
  simp [aonNext, h]

theorem aonNext_false {s : State} (h : ∀ a, (nextTick s).1 ≠ .aon a) : aonNext s = false := by
  unfold aonNext
  split
  · next a heq => exact absurd heq (h a)
  · rfl
  · rfl
  · rfl

/-- One step of a sleep op that no reset ends. -/
theorem step_requests {s t : State} (h : step s = .next t) (hrst : s.rst.aonInRst = false)
    (hst : s.power.pstate ≠ .idle) (hepoch : t.env.epoch = s.env.epoch) :
    t.rst.aonInRst = false ∧ requestsBy s.power.pstate ++ stepRequest s t = requestsBy t.power.pstate := by
  obtain ⟨e, he, hstep⟩ := step_fsmStep h
  cases hstep with
  | reset hne _ _ => exact absurd (hepoch.trans he.symm) hne
  | hold _ hpower _ hk =>
    obtain ⟨x, hx⟩ := hpower
    obtain ⟨hrst', hk⟩ := hk hrst
    rw [stepRequest_other (aonNext_false hk), hx, List.append_nil]
    exact ⟨hrst', rfl⟩
  | edge a hk hedge =>
    rw [stepRequest_aon (aonNext_true hk), hedge.rst, hedge.power]
    exact ⟨hrst, requestsBy_powerEdge (s := s.withEnv e) hst a _⟩

/-- A step that leaves the FSM out of IDLE is no reset. -/
theorem epoch_of_not_idle {s t : State} (h : step s = .next t) (hst : t.power.pstate ≠ .idle) :
    t.env.epoch = s.env.epoch := by
  obtain ⟨e, he, hstep⟩ := step_fsmStep h
  cases hstep with
  | reset _ hidle _ => exact absurd hidle hst
  | hold heq _ _ _ => exact heq.trans he
  | edge a _ hedge => exact (congrArg Env.epoch hedge.env).trans he

theorem sleepRequests_succ {s t : State} (h : step s = .next t) (n : Nat) :
    sleepRequests (n + 1) s =
      if t.power.pstate = .idle then (stepRequest s t, t)
      else (stepRequest s t ++ (sleepRequests n t).1, (sleepRequests n t).2) := by
  simp only [sleepRequests, h]
  rfl

/-- A run from within a sleep op issues what is left of the list up to the state it ends in. -/
theorem requestsBy_sleepRequests (n : Nat) {s : State} (hrst : s.rst.aonInRst = false)
    (hst : s.power.pstate ≠ .idle) (hepoch : (sleepRequests n s).2.env.epoch = s.env.epoch) :
    requestsBy s.power.pstate ++ (sleepRequests n s).1 = requestsBy (sleepRequests n s).2.power.pstate := by
  induction n generalizing s with
  | zero => exact List.append_nil _
  | succ n ih =>
    obtain ⟨t, ht⟩ := everyStepGoesOn s
    rw [sleepRequests_succ ht] at hepoch ⊢
    by_cases hidle : t.power.pstate = .idle
    · rw [if_pos hidle] at hepoch ⊢
      obtain ⟨-, hstep⟩ := step_requests ht hrst hst hepoch
      exact hstep
    · rw [if_neg hidle] at hepoch ⊢
      have hsame := epoch_of_not_idle ht hidle
      obtain ⟨hrst', hstep⟩ := step_requests ht hrst hst hsame
      rw [← List.append_assoc, hstep]
      exact ih hrst' hidle (hepoch.trans hsame.symm)

/-- The step that starts a sleep op issues its first DISARM. -/
theorem step_starts {s t : State} (h : step s = .next t) (hrst : s.rst.aonInRst = false)
    (hidle : s.power.pstate = .idle) (hreq : pwrReqSync s ≠ s.power.pwrAckTgl) (haon : aonNext s = true) :
    t.rst.aonInRst = false ∧ t.power.pstate = .disarm1 ∧ stepRequest s t = [false] := by
  obtain ⟨e, he, hstep⟩ := step_fsmStep h
  cases hstep with
  | reset _ _ hk => exact absurd haon (by simp [aonNext_false hk])
  | hold _ _ _ hk =>
    obtain ⟨-, hk⟩ := hk hrst
    exact absurd haon (by simp [aonNext_false hk])
  | edge a _ hedge =>
    rw [stepRequest_aon haon, hedge.rst, hedge.power, powerEdge_idle (s := s.withEnv e) a _ hidle, if_neg]
    · exact ⟨hrst, rfl, rfl⟩
    · exact hreq

/-- Settles O52: the first DISARM, and then what is left of the list. -/
theorem sleepIssuesDisarmArmDisarm : Obligations.SleepIssuesDisarmArmDisarm := by
  intro n s hrst hidle hreq haon hepoch
  obtain ⟨t, ht⟩ := everyStepGoesOn s
  obtain ⟨hrst', hst, hfirst⟩ := step_starts ht hrst hidle hreq haon
  have hawake : t.power.pstate ≠ .idle := by simp [hst]
  rw [sleepRequests_succ ht, if_neg hawake] at hepoch ⊢
  have hrun := requestsBy_sleepRequests n hrst' hawake (hepoch.trans (epoch_of_not_idle ht hawake).symm)
  rw [hst] at hrun
  rw [hfirst]
  refine hrun.trans ?_
  cases (sleepRequests n t).2.power.pstate <;> rfl

/-! ## FATAL -/

/-- Every value a crossing carries is 1: its source has settled there, as far as any stage has seen. -/
def AllOnes (x : Cross Bool) : Prop := x.held ≠ [] ∧ x.chain ≠ [] ∧ ∀ b ∈ x.held ++ x.chain, b = true

theorem AllOnes.getLast? {x : Cross Bool} (h : AllOnes x) : x.held.getLast? = some true := by
  obtain ⟨hheld, -, hall⟩ := h
  rw [List.getLast?_eq_some_getLast hheld,
    hall _ (List.mem_append_left _ (List.getLast_mem hheld))]

/-- An edge samples only values that the crossing carries already. -/
theorem AllOnes.carried {x y : Cross Bool} (h : AllOnes x) (k : Carried x y) : AllOnes y := by
  have hlast := h.getLast?
  obtain ⟨-, hchain, hall⟩ := h
  obtain ⟨htrail, hstages, hsource⟩ := k true hlast
  refine ⟨held_ne_nil (hsource.trans hlast), ?_, fun b hb => hall b ?_⟩
  · rw [← List.length_pos_iff, hstages]
    exact List.length_pos_iff.2 hchain
  · have hmem : b ∈ crossTrail y := by simpa [crossTrail, or_comm] using hb
    simpa [crossTrail, or_comm] using htrail.subset hmem

theorem AllOnes.out {x : Cross Bool} (h : AllOnes x) : x.out false = true := by
  obtain ⟨-, hchain, hall⟩ := h
  rw [Cross.out, chainOut, List.getLastD_eq_getLast?, List.getLast?_eq_some_getLast hchain]
  exact hall _ (List.mem_append_right _ (List.getLast_mem hchain))

/-- In FATAL a step that is no reset keeps the state, the acknowledge and the outputs, and passes the flag on. -/
theorem step_fatal {s t : State} (hst : s.power.pstate = .fatal) (h : step s = .next t)
    (hepoch : t.env.epoch = s.env.epoch) :
    (t.power.pstate = .fatal ∧ t.power.pwrAckTgl = s.power.pwrAckTgl ∧ t.power.fatal = s.power.fatal ∧
      t.power.cpuRunEn = s.power.cpuRunEn) ∧
    Carried s.consumer.fatalSync t.consumer.fatalSync := by
  obtain ⟨e, he, hstep⟩ := step_fsmStep h
  cases hstep with
  | reset hne _ _ => exact absurd (hepoch.trans he.symm) hne
  | hold _ hpower hfatal _ =>
    obtain ⟨x, hx⟩ := hpower
    rw [hx]
    exact ⟨⟨hst, rfl, rfl, rfl⟩, hfatal⟩
  | edge a _ hedge =>
    rw [hedge.power, hedge.fatalSync, powerEdge_fatal (s := s.withEnv e) a _ hst]
    exact ⟨⟨hst, rfl, rfl, rfl⟩, .refl _⟩

/-- Settles O53: the record by the step in FATAL, the crossing by what an edge of clk samples. -/
theorem fatalIsTerminal : Obligations.FatalIsTerminal := by
  intro s t hst h hepoch
  obtain ⟨hkept, hcross⟩ := step_fatal hst h hepoch
  refine ⟨hkept, fun hlast => (hcross true hlast).source.trans hlast, fun hheld hchain hall => ?_⟩
  have hones : AllOnes t.consumer.fatalSync := AllOnes.carried ⟨hheld, hchain, hall⟩ hcross
  obtain ⟨hheld', hchain', hall'⟩ := id hones
  exact ⟨hheld', hchain', hall', hones.out⟩

end Sys2Proof.Proofs
end

