-- ==== Sys2Proof/Proofs/RegisterWords.lean ====
section
/-! The host registers that answer at once: what the words they read as hold, bit by bit, and what their writes leave
(44_host_registers.md R320 to R322, R325 to R327, R330 to R332). -/

namespace Sys2Proof.Proofs

open Sys2Proof Sys2Proof.Config Sys2Proof.Machine Sys2Proof.Safety

/-! ## Words made of fields -/

section
variable {n m k s l : Nat}

/-- A bit within the low part of a word. -/
theorem bit_of_low (x : BitVec n) (y : BitVec m) (h : k < m) :
    BitVec.getLsbD (w := no_index (n + m)) (HAppend.hAppend (γ := no_index (BitVec (n + m))) x y) k =
      y.getLsbD k := by
  simp [BitVec.getLsbD_append, h]

/-- A bit within the high part of a word. -/
theorem bit_of_high (x : BitVec n) (y : BitVec m) (h : m ≤ k) :
    BitVec.getLsbD (w := no_index (n + m)) (HAppend.hAppend (γ := no_index (BitVec (n + m))) x y) k =
      x.getLsbD (k - m) := by
  simp [BitVec.getLsbD_append, Nat.not_lt.2 h]

/-- A register reads a field of `x` where it stands there. -/
theorem register_field (x : BitVec n) (h : s + l ≤ 32) : (x.setWidth 32).extractLsb' s l = x.extractLsb' s l :=
  BitVec.extractLsb'_setWidth_of_le h

/-- Above its fields a register reads zeros. -/
theorem register_above (x : BitVec n) (h : n ≤ k) : (x.setWidth 32).getLsbD k = false := by
  rw [BitVec.getLsbD_setWidth, BitVec.getLsbD_of_ge x k h, Bool.and_false]

end

/-! ## Accesses that complete at once -/

/-- An ignored write only answers (R326, R332). -/
theorem ignoredWrite_completes (s : State) :
    ∃ b, ignoredWrite s = .next { s with bus := b } ∧ Completed s.bus b :=
  ⟨(respondWrite s).bus, rfl, rfl, rfl, rfl⟩

/-- A write of each register's offset decodes to that register's write (10_state.md R39). -/
theorem decodeReq_writeReq (v : Word) :
    decodeReq (writeReq 0x00#8 v) = .wrId v ∧ decodeReq (writeReq 0x04#8 v) = .wrCtrl v ∧
      decodeReq (writeReq 0x08#8 v) = .wrStatus v ∧ decodeReq (writeReq 0x0C#8 v) = .wrCmd v ∧
      decodeReq (writeReq 0x10#8 v) = .wrResult v ∧ decodeReq (writeReq 0x14#8 v) = .wrEvqPop v ∧
      decodeReq (writeReq 0x18#8 v) = .wrEvqStat v ∧ decodeReq (writeReq 0x1C#8 v) = .wrPwrStat v := by
  obtain ⟨-, hwrites⟩ := decodeReq_registers v
  simpa [List.range_succ] using hwrites

/-- Settles O10: each of the five is the ignored write. -/
theorem readOnlyWritesAreIgnored : Obligations.ReadOnlyWritesAreIgnored := by
  intro v s p hp
  simp only [List.mem_cons, List.not_mem_nil, or_false] at hp
  obtain ⟨hid, -, -, -, hresult, hpop, hevq, hpwr⟩ := decodeReq_writeReq v
  rcases hp with rfl | rfl | rfl | rfl | rfl
  · exact ⟨hid, ignoredWrite_completes s⟩
  · exact ⟨hresult, ignoredWrite_completes s⟩
  · exact ⟨hpop, ignoredWrite_completes s⟩
  · exact ⟨hevq, ignoredWrite_completes s⟩
  · exact ⟨hpwr, ignoredWrite_completes s⟩

/-- Settles O11: both reads are completed reads of a constant. -/
theorem idAndCmdReadConstants : Obligations.IdAndCmdReadConstants := fun _ => ⟨rfl, rfl, rfl, rfl⟩

/-! ## CTRL -/

theorem ctrlWord_rot (s : State) : (ctrlWord s).extractLsb' 0 2 = s.regs.ctrlRot := by
  simp [ctrlWord, register_field, field_of_low, BitVec.extractLsb'_eq_self]

theorem ctrlWord_getLsbD (s : State) :
    (ctrlWord s).getLsbD 2 = false ∧ (ctrlWord s).getLsbD 3 = false ∧
      (ctrlWord s).getLsbD 4 = s.regs.ctrlIeDone ∧ (ctrlWord s).getLsbD 5 = s.regs.ctrlIeEvq := by
  simp [ctrlWord, bit_of_low, bit_of_high, -BitVec.getLsbD_eq_getElem]

theorem ctrlWord_above (s : State) {k : Nat} (h : 6 ≤ k) : (ctrlWord s).getLsbD k = false := register_above _ h

/-- The bits of CTRL that hold no field read 0. -/
theorem ctrlWord_elsewhere (s : State) {k : Nat} (h : k = 2 ∨ k = 3 ∨ 6 ≤ k) : (ctrlWord s).getLsbD k = false := by
  obtain ⟨h2, h3, -, -⟩ := ctrlWord_getLsbD s
  rcases h with rfl | rfl | h
  · exact h2
  · exact h3
  · exact ctrlWord_above s h

/-- The fields of a written word read back, under the mask of the bits that hold one. -/
theorem ctrlWord_of_written {v : Word} {s : State} (hrot : s.regs.ctrlRot = v.extractLsb' 0 2)
    (hdone : s.regs.ctrlIeDone = v.getLsbD 4) (hevq : s.regs.ctrlIeEvq = v.getLsbD 5) :
    ctrlWord s = v &&& 0x33#32 := by
  have hmask (k : Nat) (hk : 6 ≤ k) : (0x33#32).getLsbD k = false := register_above 0x33#6 hk
  refine BitVec.eq_of_getLsbD_eq fun k _ => ?_
  by_cases hk : 6 ≤ k
  · rw [ctrlWord_above s hk, BitVec.getLsbD_and, hmask k hk, Bool.and_false]
  · simp only [ctrlWord, hrot, hdone, hevq]
    interval_cases k <;> simp [bit_of_low, bit_of_high, -BitVec.getLsbD_eq_getElem]

/-- The state after a CTRL write. -/
def ctrlWritten (v : Word) (s : State) : State :=
  { s with
    regs := { s.regs with ctrlRot := v.extractLsb' 0 2, ctrlIeDone := v.getLsbD 4, ctrlIeEvq := v.getLsbD 5 }
    bus := (respondWrite s).bus }

theorem exec_wrCtrl (v : Word) (s : State) : exec (.wrCtrl v) s = .next (ctrlWritten v s) := rfl

/-- CTRL does not bear on whether a CMD write is accepted. -/
theorem ready_ctrlWritten {s : State} (h : Ready s) (v : Word) : Ready (ctrlWritten v s) := h

/-- Settles O12: the fields of the word, the state after the write, and the acceptance there. -/
theorem ctrlReadsAndWrites : Obligations.CtrlReadsAndWrites := by
  intro v s
  obtain ⟨-, -, hdone, hevq⟩ := ctrlWord_getLsbD s
  obtain ⟨-, hdecode, -⟩ := decodeReq_writeReq v
  refine ⟨rfl, hdecode, ⟨ctrlWord s, rfl, ctrlWord_rot s, hdone, hevq,
    fun k => ctrlWord_elsewhere s⟩, ?_⟩
  refine ⟨ctrlWritten v s, _, exec_wrCtrl v s, ⟨rfl, rfl, rfl⟩, rfl, rfl, rfl, ctrlWord_of_written rfl rfl rfl, ?_⟩
  intro hready w
  obtain ⟨-, haccept⟩ := acceptanceLatchesTheWord w (ctrlWritten v s)
  obtain ⟨x, hx, -, -, hrot, -⟩ := haccept (ready_ctrlWritten hready v)
  exact ⟨x, hx, hrot⟩

/-! ## STATUS -/

theorem statusWord_phase (s : State) : (statusWord s).extractLsb' 1 2 = s.engine.mode.phase := by
  simp [statusWord, register_field, field_of_low, field_of_high, BitVec.extractLsb'_eq_self]

theorem statusWord_getLsbD (s : State) :
    (statusWord s).getLsbD 0 = busy s ∧ (statusWord s).getLsbD 3 = s.regs.initDone ∧
      (statusWord s).getLsbD 4 = s.regs.done ∧ (statusWord s).getLsbD 5 = s.regs.cmdErr ∧
      (statusWord s).getLsbD 6 = evNe s ∧ (statusWord s).getLsbD 7 = fatalSyncOut s := by
  simp [statusWord, bit_of_low, bit_of_high, -BitVec.getLsbD_eq_getElem]

/-- Each mode has a code of its own (10_state.md R42). -/
theorem phase_eq_iff (m : LcdMode) :
    (m.phase = 0#2 ↔ m = .uninit) ∧ (m.phase = 1#2 ↔ m = .cmdp) ∧ (m.phase = 2#2 ↔ m = .datap) := by
  cases m <;> decide

theorem busy_eq_true {s : State} :
    busy s = true ↔ s.engine.estate ≠ .idle ∨ s.sleep.pwrReqTgl ≠ pwrAckSync s := by
  simp [busy]

theorem evNe_eq_true {s : State} : evNe s = true ↔ s.consumer.rptrGray ≠ wsyncOut s := by
  rw [evNe, Bool.not_eq_true', emptyC_eq_false_iff]

/-- Settles O13: the bits of the word, each by its flag. -/
theorem statusReadBits : Obligations.StatusReadBits := by
  intro s
  obtain ⟨hbusy, hinit, hdone, herr, hne, hfatal⟩ := statusWord_getLsbD s
  obtain ⟨huninit, hcmdp, hdatap⟩ := phase_eq_iff s.engine.mode
  refine ⟨rfl, statusWord s, rfl, ?_⟩
  rw [statusWord_phase, hbusy, hne]
  exact ⟨busy_eq_true, huninit, hcmdp, hdatap, hinit, hdone, herr, evNe_eq_true, hfatal,
    fun k hk => register_above _ hk⟩

/-! ## EVQ_STAT and PWR_STAT -/

theorem evqStatWord_count (s : State) : (evqStatWord s).extractLsb' 0 5 = countC s := by
  simp [evqStatWord, register_field, field_of_low, BitVec.extractLsb'_eq_self]

theorem evqStatWord_getLsbD (s : State) :
    (evqStatWord s).getLsbD 8 = s.consumer.ovfSync.out false ∧
      (evqStatWord s).getLsbD 9 = s.consumer.mrgSync.out false ∧
      (evqStatWord s).getLsbD 10 = s.consumer.rejSync.out false := by
  simp [evqStatWord, bit_of_low, bit_of_high, -BitVec.getLsbD_eq_getElem]

/-- The bits of EVQ_STAT that hold no field read 0. -/
theorem evqStatWord_elsewhere (s : State) {k : Nat} (h : (5 ≤ k ∧ k < 8) ∨ 11 ≤ k) :
    (evqStatWord s).getLsbD k = false := by
  rcases h with ⟨h5, h8⟩ | h11
  · interval_cases k <;> simp [evqStatWord, bit_of_low, bit_of_high, -BitVec.getLsbD_eq_getElem]
  · exact register_above _ h11

theorem pwrStatWord_state (s : State) : (pwrStatWord s).extractLsb' 0 3 = s.power.pstate.code := by
  simp [pwrStatWord, register_field, field_of_low, BitVec.extractLsb'_eq_self]

theorem pwrStatWord_cause (s : State) : (pwrStatWord s).extractLsb' 8 5 = s.power.wakeCause := by
  simp [pwrStatWord, register_field, field_of_high, BitVec.extractLsb'_eq_self]

theorem pwrStatWord_getLsbD (s : State) :
    (pwrStatWord s).getLsbD 3 = s.power.armFail ∧ (pwrStatWord s).getLsbD 4 = s.power.dis1Fail ∧
      (pwrStatWord s).getLsbD 5 = s.power.pDeep := by
  simp [pwrStatWord, bit_of_low, bit_of_high, -BitVec.getLsbD_eq_getElem]

/-- The bits of PWR_STAT that hold no field read 0. -/
theorem pwrStatWord_elsewhere (s : State) {k : Nat} (h : k = 6 ∨ k = 7 ∨ 13 ≤ k) :
    (pwrStatWord s).getLsbD k = false := by
  rcases h with rfl | rfl | h13
  · simp [pwrStatWord, bit_of_low, bit_of_high, -BitVec.getLsbD_eq_getElem]
  · simp [pwrStatWord, bit_of_low, bit_of_high, -BitVec.getLsbD_eq_getElem]
  · exact register_above _ h13

/-- Settles O16: the bits of both words, field by field. -/
theorem evqStatAndPwrStatReadBits : Obligations.EvqStatAndPwrStatReadBits := by
  intro s
  obtain ⟨hovf, hmrg, hrej⟩ := evqStatWord_getLsbD s
  obtain ⟨harm, hdis, hdeep⟩ := pwrStatWord_getLsbD s
  refine ⟨rfl, rfl, ?_, ?_⟩
  · exact ⟨evqStatWord s, rfl, evqStatWord_count s, hovf, hmrg, hrej,
      fun k => evqStatWord_elsewhere s⟩
  · refine ⟨pwrStatWord s, rfl, ?_, harm, hdis, hdeep, pwrStatWord_cause s,
      fun k => pwrStatWord_elsewhere s⟩
    rw [pwrStatWord_state]
    cases s.power.pstate <;> rfl

end Sys2Proof.Proofs
end

