-- ==== Sys2Proof/Proofs/StatusWrites.lean ====
section
/-! The STATUS write, and that set wins over it: an op that completes at an edge leaves DONE 1 there, whatever access
is presented (44_host_registers.md R328, 40_pixel_ops.md R150). -/

namespace Sys2Proof.Proofs

open Sys2Proof Sys2Proof.Config Sys2Proof.Machine Sys2Proof.Safety

/-! ## The end of an op -/

/-- The engine is still in RUN, or it has completed its op. -/
def RunsOrDone (s : State) : Prop := s.engine.estate = .run ∨ s.regs.done = true

theorem startAction_estate (a : Action) (s : State) : (startAction a s).1.engine.estate = s.engine.estate := by
  cases a <;> rfl

theorem startDue_estate (p : State × Option (Bool × Byte)) : (startDue p).engine.estate = p.1.engine.estate := by
  unfold startDue
  split
  · rfl
  · next dc b _ => exact (byteStarts dc b p.1).run

/-- In RUN the rest of a list goes on, or the op completes with DONE. -/
theorem startList_runsOrDone (as : List Action) {s : State} (hrun : s.engine.estate = .run) :
    RunsOrDone (startList as s) := by
  induction as generalizing s with
  | nil => exact .inr rfl
  | cons a as ih =>
    by_cases ha : a = .wait 0
    · subst ha
      exact ih hrun
    · rw [startList_cons ha]
      exact .inl ((startDue_estate _).trans ((startAction_estate a s).trans hrun))

/-- While a byte is sent, only its last bit can end the op. -/
theorem engineStage_byte_runsOrDone {s : State} {a : Action} {dc : Bool} (hrun : s.engine.estate = .run)
    (hcur : (opActions s)[s.engine.eidx]? = some a) (hphase : phaseOf a = some dc) (hcnt : s.engine.ecnt ≤ 1) :
    GoesOnTo RunsOrDone (engineStage exec s) := by
  cases hset : s.engine.esetup with
  | true => exact ⟨_, engineStage_loads hcur hphase hcnt hset, .inl hrun⟩
  | false =>
    cases hclk : s.pins.lcdSclk with
    | false => exact ⟨_, engineStage_rises hcur hphase hcnt hset hclk, .inl hrun⟩
    | true =>
      by_cases hlast : s.engine.ebit ≤ 1
      · exact ⟨_, engineStage_sent hcur hphase hcnt hset hclk hlast, startList_runsOrDone _ hrun⟩
      · exact ⟨_, engineStage_falls hcur hphase hcnt hset hclk (Nat.lt_of_not_le hlast), .inl hrun⟩

/-- An edge of the engine ends an op only by completing it. -/
theorem engineStage_runsOrDone {s : State} (hrun : s.engine.estate = .run) :
    GoesOnTo RunsOrDone (engineStage exec s) := by
  cases hcur : (opActions s)[s.engine.eidx]? with
  | none => exact ⟨finishOp s, by simp [engineStage_eq, engineEdge, hcur, startDue], .inr rfl⟩
  | some a =>
    by_cases hwait : 1 < s.engine.ecnt
    · exact ⟨_, engineStage_waits hcur hwait, .inl hrun⟩
    have hcnt := Nat.le_of_not_lt hwait
    cases hphase : phaseOf a with
    | some dc => exact engineStage_byte_runsOrDone hrun hcur hphase hcnt
    | none =>
      obtain ⟨f, r, hend⟩ := engineStage_completes hcur hphase hcnt
      exact ⟨_, hend, startList_runsOrDone _ hrun⟩

/-! ## Set wins -/

/-- The engine comes after the access at an edge (log 16), so what it sets stays set. -/
theorem clkEdge_runsOrDone (c : ClkIn) {s : State} (hrst : s.rst.clkInRst = false) (hrun : s.engine.estate = .run) :
    GoesOnTo RunsOrDone (clkEdge exec c s) := by
  simp only [clkEdge_eq c hrst, hrun, if_true]
  refine (busStage_hostStarts (issueAccess c.req s)).andThen fun t ht => ?_
  have hkept : t.engine = s.engine := (ht.same_of_run hrun).engine
  have hrun' : t.engine.estate = .run := (congrArg (·.estate) hkept).trans hrun
  exact (engineStage_runsOrDone hrun').andThen fun u hu => goesOnTo_next hu

/-- Settles O14: the write clears the bits it names; an op in RUN before the edge and not after it has set DONE. -/
theorem statusWriteOneToClear : Obligations.StatusWriteOneToClear := by
  refine fun v s => ⟨⟨(respondWrite s).bus, rfl, rfl, rfl, rfl⟩, fun t c ts q hs hrst _ hrun h hidle => ?_⟩
  rw [step_eq_tickStep hs] at h
  rcases (clkEdge_runsOrDone (s := s.withEnv { s.env with sched := ts }) c hrst hrun).of_eq_next h with hr | hdone
  · exact absurd (hidle.symm.trans hr) (by decide)
  · exact hdone

end Sys2Proof.Proofs
end

