-- ==== Sys2Proof/Proofs/ResultReads.lean ====
section
/-! The RESULT read, held while BUSY, and BUSY in FATAL: with no acknowledge on its way a BUSY that is 0 stays 0
(10_state.md R44, R45; 44_host_registers.md R324; log 9). -/

namespace Sys2Proof.Proofs

open Sys2Proof Sys2Proof.Config Sys2Proof.Machine Sys2Proof.Safety

/-! ## The read -/

theorem ne_idle_iff_run {e : EngineState} : e ≠ .idle ↔ e = .run := by
  cases e <;> decide

theorem busy_iff_run {s : State} :
    busy s = true ↔ s.engine.estate = .run ∨ s.sleep.pwrReqTgl ≠ pwrAckSync s :=
  busy_eq_true.trans (or_congr_left ne_idle_iff_run)

theorem exec_rdResult_busy {s : State} (h : busy s = true) : exec .rdResult s = .next (holdAccess s) := by
  change execRdResult s = _
  rw [execRdResult, if_pos h]

theorem exec_rdResult_free {s : State} (h : busy s = false) :
    exec .rdResult s = .next (respondRead (resultWord s) s) := by
  change execRdResult s = _
  rw [execRdResult, h]
  rfl

theorem resultWord_eq (s : State) : resultWord s = if s.regs.resultPix then 1#32 else 0#32 := by
  cases h : s.regs.resultPix <;> simp [resultWord, h]

/-! ## What decides BUSY -/

/-- From `s` to `t` the engine's state and the request toggle are kept, and the crossing of the acknowledge has taken
at most one edge of clk: its source has not toggled. -/
structure BusyKept (s t : State) : Prop where
  estate : t.engine.estate = s.engine.estate
  request : t.sleep.pwrReqTgl = s.sleep.pwrReqTgl
  ack : Carried s.sleep.ackChain t.sleep.ackChain

/-- A crossing whose copies all are the value it shows goes on showing it. -/
theorem Carried.out_eq {α : Type} {x y : Cross α} {d v : α} (h : Carried x y) (hheld : x.held ≠ [])
    (hall : ∀ b ∈ x.held ++ x.chain, b = v) (hout : x.out d = v) : y.out d = v := by
  obtain ⟨htrail, hstages, -⟩ := h _ (List.getLast?_eq_some_getLast hheld)
  by_cases hchain : y.chain = []
  · have hnone : x.chain = [] := by simpa [hchain] using hstages.symm
    rw [← hout, Cross.out, Cross.out, hchain, hnone]
  · have hmem : y.out d ∈ crossTrail x := htrail.subset (List.mem_of_mem_head? (crossTrail_head? d hchain))
    exact hall _ (by simpa [crossTrail, or_comm] using hmem)

/-- With no acknowledge on its way, what keeps its inputs keeps BUSY 0. -/
theorem BusyKept.not_busy {s t : State} (h : BusyKept s t) (hheld : s.sleep.ackChain.held ≠ [])
    (hall : ∀ b ∈ s.sleep.ackChain.held ++ s.sleep.ackChain.chain, b = s.sleep.pwrReqTgl) (hbusy : busy s = false) :
    busy t = false := by
  obtain ⟨hidle, hack⟩ := busy_eq_false.1 hbusy
  have hout : pwrAckSync t = s.sleep.pwrReqTgl := h.ack.out_eq hheld hall hack.symm
  exact busy_eq_false.2 ⟨h.estate.trans hidle, h.request.trans hout.symm⟩

/-! ## A clk edge with CMD writes held -/

/-- `t` has the engine and the clk side of the handshake of `s`, apart from whether a SLEEP write is held. -/
structure HandshakeKept (s t : State) : Prop where
  engine : t.engine = s.engine
  request : t.sleep.pwrReqTgl = s.sleep.pwrReqTgl
  ack : t.sleep.ackChain = s.sleep.ackChain

/-- A SLEEP write that is held or completes starts no handshake (43_power.md R283). -/
theorem execSleep_handshakeKept {s : State} (h : cmdHeld s = true) (dur : BitVec 24) (deep : BitVec 1)
    (rsv : BitVec 3) : GoesOnTo (HandshakeKept s) (execSleep dur deep rsv s) := by
  unfold execSleep
  split_ifs <;> exact goesOnTo_next ⟨rfl, rfl, rfl⟩

theorem exec_cmd_handshakeKept {i : Instr} (hi : i.kind = .cmd) {s : State} (h : cmdHeld s = true) :
    GoesOnTo (HandshakeKept s) (exec i s) := by
  cases i with
  | sleep dur deep rsv => exact execSleep_handshakeKept h dur deep rsv
  | init contrast bias rsv => exact ⟨_, execInit_held h contrast bias rsv, rfl, rfl, rfl⟩
  | nop | setpix | getpix | clear | flush | setcontrast | dispctl | settempco =>
    exact ⟨_, cmdWrite_held h _, rfl, rfl, rfl⟩
  | rsvdA | rsvdB | rsvdC | rsvdD | rsvdE | rsvdF => exact ⟨_, reservedWrite_held h _ _, rfl, rfl, rfl⟩
  | _ => cases hi

theorem execRdResult_handshakeKept (s : State) : GoesOnTo (HandshakeKept s) (execRdResult s) := by
  unfold execRdResult
  split_ifs <;> exact goesOnTo_next ⟨rfl, rfl, rfl⟩

theorem popEvent_handshakeKept (s : State) : HandshakeKept s (popEvent s) := by
  obtain ⟨-, -, hsleep, -⟩ := popEvent_frame s
  exact ⟨(popEvent_sameSerializer s).engine, congrArg _ hsleep, congrArg _ hsleep⟩

theorem exec_access_handshakeKept {i : Instr} (hi : i.kind = .access) {s : State} (h : cmdHeld s = true) :
    GoesOnTo (HandshakeKept s) (exec i s) := by
  cases i with
  | wrCmd w =>
    change GoesOnTo (HandshakeKept s) (execWrCmd w s)
    rw [execWrCmd_eq_exec_decodeCmd]
    exact exec_cmd_handshakeKept (decodeCmd_kind w) h
  | rdResult => exact execRdResult_handshakeKept s
  | rdEvqPop => exact goesOnTo_next (popEvent_handshakeKept s)
  | rdId | wrId | rdCtrl | wrCtrl | rdStatus | wrStatus | rdCmd | wrResult | wrEvqPop | rdEvqStat | wrEvqStat
  | rdPwrStat | wrPwrStat | rdRsvd20 | rdRsvd40 | rdRsvd80 | wrRsvd20 | wrRsvd40 | wrRsvd80 | busErr =>
    exact goesOnTo_next ⟨rfl, rfl, rfl⟩
  | _ => cases hi

theorem HandshakeKept.retire {s t : State} (h : HandshakeKept s t) : HandshakeKept s (retire t) := by
  unfold Machine.retire
  split_ifs
  · exact ⟨h.engine, h.request, h.ack⟩
  · exact h

theorem busStage_handshakeKept {s : State} (h : cmdHeld s = true) :
    GoesOnTo (HandshakeKept s) (busStage exec s) := by
  unfold busStage
  split
  · exact goesOnTo_next ⟨rfl, rfl, rfl⟩
  · next i hi =>
    obtain ⟨r, -, rfl⟩ := Option.map_eq_some_iff.1 hi
    exact (exec_access_handshakeKept (decodeReq_kind r) h).andThen fun t ht => goesOnTo_next ht.retire

/-- With the engine IDLE and CMD writes held, a clk edge only clocks the crossing of the acknowledge. -/
theorem clkEdge_busyKept (c : ClkIn) {s : State} (hidle : s.engine.estate = .idle) (h : cmdHeld s = true) :
    GoesOnTo (BusyKept s) (clkEdge exec c s) := by
  cases hrst : s.rst.clkInRst with
  | true =>
    exact ⟨issueAccess c.req (clkResetEdge c s), by simp [clkEdge, hrst], rfl, rfl, fun _ hv => retimed_close false hv⟩
  | false =>
    simp only [clkEdge_eq c hrst, hidle, reduceCtorEq, if_false]
    refine (busStage_handshakeKept (s := issueAccess c.req s) h).andThen fun t ht => goesOnTo_next ?_
    refine ⟨congrArg (·.estate) ht.engine, ht.request, fun v hv => ?_⟩
    have hclock : (clkSync c t).sleep.ackChain = s.sleep.ackChain.clock false c.ackPick :=
      congrArg (·.clock false c.ackPick) ht.ack
    rw [hclock]
    exact retimed_clock false _ hv

/-! ## A step in FATAL -/

/-- In FATAL the acknowledge does not toggle (43_power.md R294). -/
theorem aonEdge_busyKept (a : AonIn) {s : State} (hst : s.power.pstate = .fatal) :
    GoesOnTo (BusyKept s) (aonEdge exec a s) := by
  cases hrst : s.rst.aonInRst with
  | true => exact ⟨aonResetEdge a s, by simp [aonEdge, hrst], rfl, rfl, .refl _⟩
  | false =>
    obtain ⟨f, p, c, hnext⟩ := aonEdge_stages a hrst
    obtain ⟨p', c', hcapture⟩ := capture_only a s { s with fifo := f, producer := p, consumer := c }
    have hfsm := powerEdge_fatal a (wakeSources a s) (s := { s with fifo := f, producer := p', consumer := c' }) hst
    refine ⟨_, hnext, ?_⟩
    rw [aonRest, hcapture, hfsm]
    exact ⟨rfl, rfl, .refl _⟩

/-- A tick in FATAL that is no reset keeps what decides BUSY, once clk has seen FATAL and with the engine IDLE. -/
theorem tickStep_busyKept (k : Tick) {s : State} (hst : s.power.pstate = .fatal) (hidle : s.engine.estate = .idle)
    (hseen : fatalSyncOut s = true) :
    GoesOnTo (fun t => t.env.epoch = s.env.epoch → BusyKept s t) (tickStep exec k s) := by
  cases k with
  | clk c =>
    have hheld : cmdHeld s = true := (cmdHeld_eq_true s).2 (.inr (.inr hseen))
    exact (clkEdge_busyKept c hidle hheld).imp fun _ h => h.imp id fun ht _ => ht
  | aon a => exact (aonEdge_busyKept a hst).imp fun _ h => h.imp id fun ht _ => ht
  | resetAssert => exact goesOnTo_next fun hepoch => absurd hepoch (Nat.succ_ne_self _)
  | resetRelease => exact goesOnTo_next fun _ => ⟨rfl, rfl, .refl _⟩

theorem step_busyKept {s t : State} (hst : s.power.pstate = .fatal) (hidle : s.engine.estate = .idle)
    (hseen : fatalSyncOut s = true) (h : step s = .next t) (hepoch : t.env.epoch = s.env.epoch) : BusyKept s t := by
  obtain ⟨e, hnext, he⟩ := nextTick_snd_eq s
  rw [step, stepWith, hnext] at h
  obtain ⟨hstate, hrequest, hack⟩ :=
    (tickStep_busyKept _ (s := s.withEnv e) hst hidle hseen).of_eq_next h (hepoch.trans he.symm)
  exact ⟨hstate, hrequest, hack⟩

/-- Settles O15: the read by BUSY; in FATAL, BUSY by what a step keeps of its inputs. -/
theorem resultReadHoldsWhileBusy : Obligations.ResultReadHoldsWhileBusy := by
  intro s
  refine ⟨busy_iff_run, fun hfree => ?_, fun hbusy => ?_, ?_⟩
  · rw [exec_rdResult_free (busy_eq_false.2 hfree), resultWord_eq]
    rfl
  · exact ⟨_, exec_rdResult_busy (busy_iff_run.2 hbusy), rfl, rfl, rfl⟩
  · intro t hst hfatal hstages hones hheld hall hbusy h hepoch
    obtain ⟨hidle, -⟩ := busy_eq_false.1 hbusy
    have hseen : fatalSyncOut s = true := AllOnes.out ⟨hfatal, hstages, hones⟩
    exact (step_busyKept hst hidle hseen h hepoch).not_busy hheld hall hbusy

end Sys2Proof.Proofs
end

