-- ==== Sys2Proof/Proofs/ResetBehaviour.lean ====
section
/-! Reset (70_reset_and_hazards.md R390 to R392): what the fall of `rst_n` leaves and makes the block show, what an
edge of a clock does while its domain is in reset, and that the state after reset meets every invariant. -/

namespace Sys2Proof.Proofs

open Sys2Proof Sys2Proof.Config Sys2Proof.Machine Sys2Proof.Safety

/-! ## The state after reset -/

/-- With nothing written, both RAMs are in canonical form. -/
theorem memoryOk_of_unwritten {s : State} (hfb : s.fb = []) (hfifo : s.fifo = []) : MemoryOk s := by
  simp [MemoryOk, Memory.wf, hfb, hfifo]

/-- Settles O59: the state after reset differs from what a fall of `rst_n` leaves in the reset lines and the ticks
alone, and none of the invariants speaks of those. -/
theorem resetMeetsTheInvariants : Obligations.ResetMeetsTheInvariants := by
  have hlinked : Linked State.reset := (linked_applyReset (s := State.reset) (by decide)).of_linkSide_eq rfl
  have horder : InOrder State.reset := (applyReset_inOrder (s := State.reset) (by decide)).of_fifoSide_eq rfl
  have hsame : SameSerializer (applyReset State.reset) State.reset := ⟨rfl, rfl, rfl⟩
  obtain ⟨hgray, hcross, hout⟩ := linked_iff.1 hlinked
  exact ⟨memoryOk_of_unwritten rfl rfl, hgray, hcross, hout,
    hsame.serializerOk (applyReset_idleOk State.reset).serializerOk, horder.fifoOrdered⟩

/-! ## An edge in reset -/

/-- In reset the host may issue an access, and the edge ends the windows of the crossings into clk (log 13). -/
theorem clkEdge_of_inReset {c : ClkIn} {s t : State} (h : clkEdge exec c s = .next t) (hrst : s.rst.clkInRst = true) :
    issueAccess c.req (clkResetEdge c s) = t := by
  simpa [clkEdge, hrst] using h

/-- In reset the edge ends the windows of the crossings into aon_clk (log 13). -/
theorem aonEdge_of_inReset {a : AonIn} {s t : State} (h : aonEdge exec a s = .next t) (hrst : s.rst.aonInRst = true) :
    aonResetEdge a s = t := by
  simpa [aonEdge, hrst] using h

/-! ## What a reset makes the block show -/

section
variable {s : State}

/-- Each synchroniser shows its reset value (20_memory.md R107). -/
theorem applyReset_syncOutputs (h : 1 ≤ s.params.syncStages) :
    wsyncOut (applyReset s) = 0#5 ∧ rsyncOut (applyReset s) = 0#5 ∧ fatalSyncOut (applyReset s) = false ∧
      pwrAckSync (applyReset s) = false ∧ (applyReset s).consumer.ovfSync.out false = false ∧
      (applyReset s).consumer.mrgSync.out false = false ∧ (applyReset s).consumer.rejSync.out false = false :=
  have hflag : (Cross.settled s.params.syncStages false).out false = false := Cross.out_settled _ _ _ h
  have hptr : (Cross.settled s.params.syncStages 0#5).out 0#5 = 0#5 := Cross.out_settled _ _ _ h
  ⟨hptr, hptr, hflag, hflag, hflag, hflag, hflag⟩

theorem applyReset_busy (h : 1 ≤ s.params.syncStages) : busy (applyReset s) = false := by
  obtain ⟨-, -, -, hack, -⟩ := applyReset_syncOutputs h
  exact busy_eq_false.2 ⟨rfl, hack.symm⟩

/-- The consumer sees the FIFO empty (42_event_fifo.md R255). -/
theorem applyReset_emptyC (h : 1 ≤ s.params.syncStages) : emptyC (applyReset s) = true := by
  obtain ⟨hwptr, -⟩ := applyReset_syncOutputs h
  exact beq_iff_eq.2 hwptr.symm

theorem applyReset_irq (h : 1 ≤ s.params.syncStages) : irq (applyReset s) = false := by
  simp only [irq, evNe, applyReset_emptyC h]
  rfl

/-- The producer sees room (42_event_fifo.md R250). -/
theorem applyReset_fullP (h : 1 ≤ s.params.syncStages) : fullP (applyReset s) = false := by
  obtain ⟨-, hrptr, -⟩ := applyReset_syncOutputs h
  simp only [fullP, hrptr]
  rfl

theorem applyReset_countC (h : 1 ≤ s.params.syncStages) : countC (applyReset s) = 0#5 :=
  (countC_eq_zero_iff (show 0#5 = bin2gray 0#5 by decide)).2 (applyReset_emptyC h)

theorem applyReset_statusWord (h : 1 ≤ s.params.syncStages) : statusWord (applyReset s) = 0#32 := by
  obtain ⟨-, -, hfatal, -⟩ := applyReset_syncOutputs h
  simp only [statusWord, evNe, hfatal, applyReset_emptyC h, applyReset_busy h]
  change (BitVec.ofBool false ++ BitVec.ofBool false ++ BitVec.ofBool false ++ BitVec.ofBool false ++
    BitVec.ofBool false ++ 0#2 ++ BitVec.ofBool false).setWidth 32 = 0#32
  rfl

theorem applyReset_evqStatWord (h : 1 ≤ s.params.syncStages) : evqStatWord (applyReset s) = 0#32 := by
  obtain ⟨-, -, -, -, hovf, hmrg, hrej⟩ := applyReset_syncOutputs h
  simp only [evqStatWord, hovf, hmrg, hrej, applyReset_countC h]
  rfl

end

/-- No interrupt enabled, and rotation 0 (44_host_registers.md R322). -/
theorem applyReset_ctrlWord (s : State) : ctrlWord (applyReset s) = 0#32 := by
  change (BitVec.ofBool false ++ BitVec.ofBool false ++ 0#2 ++ 0#2).setWidth 32 = 0#32
  rfl

/-- No wake cause, no failure, no deep sleep, and the code of IDLE (44_host_registers.md R331). -/
theorem applyReset_pwrStatWord (s : State) : pwrStatWord (applyReset s) = 0#32 := by
  change (0#5 ++ 0#2 ++ BitVec.ofBool false ++ BitVec.ofBool false ++ BitVec.ofBool false ++ 0#3).setWidth 32 = 0#32
  rfl

/-! ## The stages of the synchronisers -/

/-- Every stage of a synchroniser of a flag or of an asynchronous line is 0 (10_state.md R51 to R53). -/
theorem applyReset_flagStages (s : State) :
    ∀ b ∈ (applyReset s).consumer.ovfSync.chain ++ (applyReset s).consumer.mrgSync.chain ++
      (applyReset s).consumer.rejSync.chain ++ (applyReset s).consumer.fatalSync.chain ++
      (applyReset s).sleep.ackChain.chain ++ (applyReset s).power.reqChain.chain ++ (applyReset s).power.irqChain,
      b = false := by
  intro b hb
  have hstages : b ∈ List.replicate s.params.syncStages false := by
    simpa only [applyReset, State.resetWith, Cross.settled, List.mem_append, or_self] using hb
  exact List.eq_of_mem_replicate hstages

/-- Every stage of the read pointer's synchroniser and of the keys' is 0 (10_state.md R54). -/
theorem applyReset_producerStages (s : State) :
    ∀ g ∈ (applyReset s).producer.rsync.chain ++ (applyReset s).producer.ksync, g = 0#5 := by
  intro g hg
  have hstages : g ∈ List.replicate s.params.syncStages 0#5 := by
    simpa only [applyReset, State.resetWith, Cross.settled, List.mem_append, or_self] using hg
  exact List.eq_of_mem_replicate hstages

/-! ## The four kinds of tick -/

/-- Settles O60: the edges in reset touch a domain's windows and its reset line alone, and the fall of `rst_n` leaves
the reset values. -/
theorem resetValues : Obligations.ResetValues := by
  refine ⟨fun s t ts c hs hrst h => ?_, fun s t ts a hs hrst h => ?_, fun s t ts hs h => ?_,
    fun s t ts hs hstages h => ?_⟩ <;> rw [step_eq_tickStep hs] at h
  · obtain rfl := clkEdge_of_inReset h hrst
    exact ⟨rfl, rfl, rfl, rfl, rfl, fun _ => Cross.close_held 0#5, rfl, rfl, rfl, rfl, rfl, rfl⟩
  · obtain rfl := aonEdge_of_inReset h hrst
    exact ⟨rfl, fun _ => Cross.close_held 0#5, rfl, rfl, rfl, rfl, rfl, rfl, rfl, rfl, rfl, rfl⟩
  · exact (Host.Outcome.next.inj h).symm
  · obtain rfl := Host.Outcome.next.inj h
    exact ⟨rfl, rfl, rfl, rfl, applyReset_irq hstages, applyReset_busy hstages, rfl, rfl, rfl, rfl, rfl,
      fun _ => List.eq_of_mem_replicate, applyReset_flagStages _, rfl, rfl, rfl, rfl, rfl,
      applyReset_producerStages _, applyReset_emptyC hstages, applyReset_fullP hstages, applyReset_ctrlWord _,
      applyReset_statusWord hstages, rfl, applyReset_evqStatWord hstages, applyReset_pwrStatWord _, rfl⟩

end Sys2Proof.Proofs
end
